-- ==== Sys2Proof/Word.lean ====
section
/-! DEFINITION. The two value widths of the QC framing block (rules R9 and R11). -/
namespace Sys2Proof

/-- A byte: an unsigned 8-bit value, bit 0 the least significant (R11). -/
abbrev Byte := BitVec 8

/-- A word: an unsigned 16-bit value, bit 0 the least significant (R11). Addition and subtraction wrap
modulo 2^16, the spec's `+_16` and `-_16`. -/
abbrev Word := BitVec 16

end Sys2Proof
end

