-- ==== Sys2Proof/Machine/Operands.lean ====
section
/-! DEFINITION. The byte-order helpers and operand readings of rules R11, R12 and R73. -/
namespace Sys2Proof.Machine

/-- `hi8(w) = w[15:8]` (R12). -/
def hi8 (w : Word) : Byte := w.extractLsb' 8 8

/-- `lo8(w) = w[7:0]` (R12). -/
def lo8 (w : Word) : Byte := w.extractLsb' 0 8

/-- `le16(lo, hi) = lo | (hi << 8)` (R12). -/
def le16 (lo hi : Byte) : Word := lo.setWidth 16 ||| (hi.setWidth 16 <<< 8)

/-- A word as two bytes, low byte first (R53). -/
def leBytes (w : Word) : List Byte := [lo8 w, hi8 w]

/-- A word as two bytes, high byte first (R54). -/
def beBytes (w : Word) : List Byte := [hi8 w, lo8 w]

/-- `xs[i]` (R12). The rules keep every index in range; log entry 6 says what an index out of range reads. -/
def byteAt (xs : List Byte) (i : Nat) : Byte := xs.getD i 0

/-- `xs[i..i+n-1]` (R12). -/
def bytesFrom (xs : List Byte) (i n : Nat) : List Byte := (xs.drop i).take n

/-- `REG[0..len(bs)-1] <- bs` on a five-byte address register: the bytes from `len(bs)` on are kept (R24, R25). -/
def writeAddr (reg : Vector Byte 5) (bs : List Byte) : Vector Byte 5 :=
  #v[bs.getD 0 reg[0], bs.getD 1 reg[1], bs.getD 2 reg[2], bs.getD 3 reg[3], bs.getD 4 reg[4]]

/-- `REG[0..len-1]` of a five-byte address register (R24, R25). -/
def readAddr (reg : Vector Byte 5) (len : BitVec 3) : List Byte := reg.toList.take len.toNat

end Sys2Proof.Machine
end

