-- ==== Sys2Proof/Config.lean ====
section
/-! DEFINITION. The parameters of the block (rule R8): the fixed ones as constants, the OPEN ones as the structure
`Params`, and the two free values of the model. -/
namespace Sys2Proof

/-- The OPEN rows of R8, the values fixed when a block is built. Plain data: `Params.Legal` holds the constraints of
the rows. Where a constraint is broken the machine still runs; R173 itself speaks of a model with `XLEN < 22`. -/
structure Params where
  /-- `EMULATE`: true emulation, false passthrough (R5). -/
  emulate : Bool
  /-- `SCRAMBLE[0..34]`. -/
  scramble : Vector Byte 35
  /-- `XOR_TABLE[0..XLEN-1]`; `XLEN` is its length. -/
  xorTable : List Word
  /-- `PREAMBLE4[0..3]`. -/
  preamble4 : Vector Byte 4
  /-- `PRE_PAD`. -/
  prePad : Byte
  /-- `FLIP_SRC`, a channel index. -/
  flipSrc : Fin 6
  /-- `FLIP_THRESHOLD`. -/
  flipThreshold : Word
  /-- `FLIP_FIELD`, a packet channel field. -/
  flipField : Fin 4
  /-- `FLIP_BIT`, a bit of that field. -/
  flipBit : Fin 16
  /-- `MODE_SRC`, a channel index. -/
  modeSrc : Fin 6
  /-- `MODE_BP_LO`. -/
  modeBpLo : Word
  /-- `MODE_BP_HI`. -/
  modeBpHi : Word
  /-- `MODE_VAL[0..2]`. -/
  modeVal : Vector Byte 3
  /-- `REPLY_LEN`. -/
  replyLen : Nat
  /-- `ACK_OFF`. -/
  ackOff : Nat
  /-- `AID_OFF`. -/
  aidOff : Nat
  /-- `CFG_CRC_MASK`. -/
  cfgCrcMask : Byte
  /-- `CFG_CLEAR_MASK`. -/
  cfgClearMask : Byte
deriving DecidableEq, Repr

/-- The constraints of the OPEN rows of R8. -/
abbrev Params.Legal (p : Params) : Prop :=
  22 ≤ p.xorTable.length ∧
  (p.flipSrc = 4 ∨ p.flipSrc = 5) ∧
  12 ≤ p.flipBit.val ∧
  (p.modeSrc = 4 ∨ p.modeSrc = 5) ∧ p.modeSrc ≠ p.flipSrc ∧
  p.modeBpLo < p.modeBpHi ∧
  1 ≤ p.replyLen ∧ p.replyLen ≤ 19 ∧ p.ackOff < p.replyLen ∧ p.aidOff + 4 ≤ p.replyLen ∧
  p.cfgCrcMask ≠ 0 ∧ p.cfgCrcMask &&& ~~~p.cfgClearMask = 0

/-- Parameters together with their legality: what a block can be built with. The default only shows Lean that such
parameters exist, which `opaque` below asks for; nothing reads it. -/
structure Built where
  params : Params :=
    { emulate := false, scramble := Vector.replicate 35 0, xorTable := List.replicate 22 0
      preamble4 := Vector.replicate 4 0, prePad := 0, flipSrc := 4, flipThreshold := 0, flipField := 0, flipBit := 12
      modeSrc := 5, modeBpLo := 0, modeBpHi := 1, modeVal := Vector.replicate 3 0
      replyLen := 5, ackOff := 0, aidOff := 1, cfgCrcMask := 1, cfgClearMask := 1 }
  legal : params.Legal := by decide
deriving Inhabited

/-- FREE VALUE (log entry 1). The parameters the block under discussion was built with: any that meet R8's
constraints. No body: nothing can be proved of them beyond `Config.built.legal`. -/
opaque Config.built : Built

/-- FREE VALUE (log entry 2). The lengths of the bursts in which the block serves one port while both have a command
waiting: R61 leaves every choice open, R64 says only that each burst ends. The bound that R63 sets for CH_WRITE
is kept beside the bursts. -/
opaque Config.burst : Nat → Nat

/-- `L_MIN` (R8). -/
abbrev Config.lMin : BitVec 3 := 3
/-- `L_MAX` (R8). -/
abbrev Config.lMax : BitVec 3 := 5
/-- `MAX_PAYLOAD` (R8). -/
abbrev Config.maxPayload : Nat := 19
/-- `PACKET_LEN` (R8). -/
abbrev Config.packetLen : Nat := 19
/-- `CRC_POLY` (R8). -/
abbrev Config.crcPoly : Word := 0x1021
/-- `CRC_INIT` (R8). -/
abbrev Config.crcInit : Word := 0xB5D2
/-- `TYPE_BIND` (R8). -/
abbrev Config.typeBind : Byte := 0xAA
/-- `TYPE_DATA` (R8). -/
abbrev Config.typeData : Byte := 0x55
/-- `BIAS` (R8). -/
abbrev Config.bias : Word := 1000
/-- `ACK_VALUE` (R8). -/
abbrev Config.ackValue : Byte := 1
/-- `HOP_BASE[0..3]` (R8). -/
abbrev Config.hopBase : Vector Byte 4 := #v[0x03, 0x16, 0x2D, 0x40]

end Sys2Proof
end

