-- ==== Sys2Proof/Syntax.lean ====
section
/-! DEFINITION. The command messages and the commands of the command set `QCFB-1`: one constructor of `Instr`
per row of the opcode map (rule R74). -/
namespace Sys2Proof

/-- A command message: one opcode byte and a list of operand bytes, delivered whole by a port; its length is
part of the message (R70). An empty message is not a command and has no value of this type. -/
structure Message where
  opc : Byte
  ops : List Byte
deriving DecidableEq, Repr

/-- The type marker `t` of PACK: 0 data packet, 1 bind packet (R73). -/
inductive PacketType where
  | data
  | bind
deriving DecidableEq, Repr

/-- A channel index `c` of CH_WRITE and of the register array `CH`: 0 throttle, 1 aileron, 2 elevator, 3 rudder,
4 aux1, 5 aux2 (R30). The values 6 and 7 are no CH_WRITE encodings (R73, R75). -/
abbrev Channel := Fin 6

/-- The commands of `QCFB-1`. Every constructor carries the operand bytes of its message as they came: an operand
count that the command does not take is not a decoding matter but a fault its own rule raises (R77: the block finds
the row, "then runs the row's rule, which checks its operands"). -/
inductive Instr where
  /-- NOP, format `N` (R160). -/
  | nop (ops : List Byte)
  /-- CONFIGURE, format `B1` (R107). -/
  | configure (ops : List Byte)
  /-- SET_TX_ADDR, format `AL`: `len` is `OPC[2:0]`, any of 0..7 (R108). -/
  | setTxAddr (len : BitVec 3) (ops : List Byte)
  /-- SET_RX_ADDR, format `AL` (R109). -/
  | setRxAddr (len : BitVec 3) (ops : List Byte)
  /-- ENCODE, format `V`: the operands are the payload (R110). -/
  | encode (ops : List Byte)
  /-- DECODE, format `V`: the operands are the received body (R111). -/
  | decode (ops : List Byte)
  /-- SET_TXID, format `B4` (R140). -/
  | setTxid (ops : List Byte)
  /-- SET_AID, format `B4` (R141). -/
  | setAid (ops : List Byte)
  /-- HOP_GET, format `K`: `k` is `OPC[1:0]` (R131). -/
  | hopGet (k : BitVec 2) (ops : List Byte)
  /-- CH_WRITE, format `C` (R142). -/
  | chWrite (c : Channel) (ops : List Byte)
  /-- PACK, format `T` (R145). -/
  | pack (t : PacketType) (ops : List Byte)
  /-- UNPACK, format `F19` (R146). -/
  | unpack (ops : List Byte)
  /-- PARSE_REPLY, format `FR` (R147). -/
  | parseReply (ops : List Byte)
  /-- STATUS, format `N` (R161). -/
  | status (ops : List Byte)
  /-- RD_RXCRC, format `N` (R162). -/
  | rdRxcrc (ops : List Byte)
deriving DecidableEq, Repr

end Sys2Proof
end

