-- ==== Sys2Proof/Decode.lean ====
section
/-! DEFINITION. The opcode map (rule R74), the decoder (R77), the encoder (R72, R79), and the reading of an
opcode-table word as a message. -/
namespace Sys2Proof

/-- Why a message is no command. -/
inductive DecodeError where
  /-- The opcode byte selects no row of R74, or is 0x86 or 0x87 (R75): the block takes ILLEGAL_OPCODE. -/
  | illegalOpcode (opc : Byte)
deriving DecidableEq, Repr

/-- The rows of the opcode map, by mnemonic. -/
inductive Op where
  | nop | configure | setTxAddr | setRxAddr | encode | decode | setTxid | setAid | hopGet | chWrite
  | pack | unpack | parseReply | status | rdRxcrc
deriving DecidableEq, Repr

/-- A row of R74: an opcode byte selects it when `OPC & mask == match`. -/
structure OpRow where
  op : Op
  pat : Byte
  mask : Byte
deriving DecidableEq, Repr

/-- The opcode map of R74, in its order. -/
def opcodeMap : List OpRow :=
  [⟨.nop, 0x00, 0xFF⟩, ⟨.configure, 0x10, 0xFF⟩, ⟨.setTxAddr, 0x20, 0xF8⟩, ⟨.setRxAddr, 0x30, 0xF8⟩,
   ⟨.encode, 0x40, 0xFF⟩, ⟨.decode, 0x50, 0xFF⟩, ⟨.setTxid, 0x60, 0xFF⟩, ⟨.setAid, 0x61, 0xFF⟩,
   ⟨.hopGet, 0x70, 0xFC⟩, ⟨.chWrite, 0x80, 0xF8⟩, ⟨.pack, 0x90, 0xFE⟩, ⟨.unpack, 0xA0, 0xFF⟩,
   ⟨.parseReply, 0xA1, 0xFF⟩, ⟨.status, 0xF0, 0xFF⟩, ⟨.rdRxcrc, 0xF1, 0xFF⟩]

/-- `OPC & mask == match` (R74). -/
def OpRow.matches (r : OpRow) (opc : Byte) : Bool := opc &&& r.mask == r.pat

/-- The field `OPC[2:0]` of the formats `AL` and `C` (R72). -/
def lowField3 (opc : Byte) : BitVec 3 := opc.extractLsb' 0 3

/-- The field `OPC[1:0]` of the format `K` (R72). -/
def lowField2 (opc : Byte) : BitVec 2 := opc.extractLsb' 0 2

/-- The packet type of the bit `OPC[0]` of the format `T` (R73). -/
def packetTypeOf (opc : Byte) : PacketType := if opc.getLsbD 0 then .bind else .data

/-- The command of a row for a message. The CH_WRITE row also matches 0x86 and 0x87, which are illegal (R74, R75). -/
def buildInstr (op : Op) (m : Message) : Except DecodeError Instr :=
  match op with
  | .nop => .ok (.nop m.ops)
  | .configure => .ok (.configure m.ops)
  | .setTxAddr => .ok (.setTxAddr (lowField3 m.opc) m.ops)
  | .setRxAddr => .ok (.setRxAddr (lowField3 m.opc) m.ops)
  | .encode => .ok (.encode m.ops)
  | .decode => .ok (.decode m.ops)
  | .setTxid => .ok (.setTxid m.ops)
  | .setAid => .ok (.setAid m.ops)
  | .hopGet => .ok (.hopGet (lowField2 m.opc) m.ops)
  | .chWrite =>
    if h : (lowField3 m.opc).toNat < 6 then .ok (.chWrite ⟨(lowField3 m.opc).toNat, h⟩ m.ops)
    else .error (.illegalOpcode m.opc)
  | .pack => .ok (.pack (packetTypeOf m.opc) m.ops)
  | .unpack => .ok (.unpack m.ops)
  | .parseReply => .ok (.parseReply m.ops)
  | .status => .ok (.status m.ops)
  | .rdRxcrc => .ok (.rdRxcrc m.ops)

/-- The row an opcode byte selects: the first that matches (no two overlap, R74). -/
def selectRow (opc : Byte) : Option OpRow := opcodeMap.find? fun r => r.matches opc

/-- Decoding (R77): total on every message, the command of the row its opcode byte selects, or ILLEGAL_OPCODE. -/
def decode (m : Message) : Except DecodeError Instr :=
  match selectRow m.opc with
  | some r => buildInstr r.op m
  | none => .error (.illegalOpcode m.opc)

/-- The opcode byte of a command (R72, R79). -/
def Instr.opcode : Instr → Byte
  | .nop _ => 0x00
  | .configure _ => 0x10
  | .setTxAddr len _ => 0x20 ||| len.setWidth 8
  | .setRxAddr len _ => 0x30 ||| len.setWidth 8
  | .encode _ => 0x40
  | .decode _ => 0x50
  | .setTxid _ => 0x60
  | .setAid _ => 0x61
  | .hopGet k _ => 0x70 ||| k.setWidth 8
  | .chWrite c _ => 0x80 ||| BitVec.ofNat 8 c.val
  | .pack .data _ => 0x90
  | .pack .bind _ => 0x91
  | .unpack _ => 0xA0
  | .parseReply _ => 0xA1
  | .status _ => 0xF0
  | .rdRxcrc _ => 0xF1

/-- The operand bytes of a command. -/
def Instr.operands : Instr → List Byte
  | .nop ops => ops
  | .configure ops => ops
  | .setTxAddr _ ops => ops
  | .setRxAddr _ ops => ops
  | .encode ops => ops
  | .decode ops => ops
  | .setTxid ops => ops
  | .setAid ops => ops
  | .hopGet _ ops => ops
  | .chWrite _ ops => ops
  | .pack _ ops => ops
  | .unpack ops => ops
  | .parseReply ops => ops
  | .status ops => ops
  | .rdRxcrc ops => ops

/-- The message of a command (R79, column "bytes"). -/
def encode (i : Instr) : Message := ⟨i.opcode, i.operands⟩

/-- The message as a list of bytes, `1 + len(OPS)` of them (R71). -/
def Message.bytes (m : Message) : List Byte := m.opc :: m.ops

/-- A delivered byte string as a message; the empty one is not a command (R70). -/
def messageOf : List Byte → Option Message
  | [] => none
  | opc :: ops => some ⟨opc, ops⟩

/-- The operand count of an opcode byte's row (R74, column "operands"). ENCODE and DECODE take the count of the
message, here its least, 0. -/
def operandCount (replyLen : Nat) (opc : Byte) : Nat :=
  match selectRow opc with
  | none => 0
  | some r =>
    match r.op with
    | .nop | .encode | .decode | .hopGet | .pack | .status | .rdRxcrc => 0
    | .configure => 1
    | .chWrite => 2
    | .setTxid | .setAid => 4
    | .setTxAddr | .setRxAddr => (lowField3 opc).toNat
    | .unpack => Config.packetLen
    | .parseReply => replyLen

/-- The low `n` bytes of `w`, the least significant first. -/
def bytesOfNat : Nat → Nat → List Byte
  | 0, _ => []
  | n + 1, w => BitVec.ofNat 8 w :: bytesOfNat n (w / 256)

/-- The message of an opcode-table word: its bytes from the least significant on, and operand bytes of zeros up to
the count the opcode byte asks for. -/
def tableMessage (replyLen nbits w : Nat) : Message :=
  let opc := BitVec.ofNat 8 w
  let given := bytesOfNat (nbits / 8 - 1) (w / 256)
  ⟨opc, given ++ List.replicate (operandCount replyLen opc - given.length) 0⟩

/-- The command the decoder reads from an opcode-table word, on the block as built. -/
def decodeTableWord (nbits w : Nat) : Option Instr :=
  (decode (tableMessage Config.built.params.replyLen nbits w)).toOption

end Sys2Proof
end

