-- ==== Sys2Proof/Machine/State.lean ====
section
/-! DEFINITION. The state of the QC framing block (10_state.md), the ways a step can stop (there are none of the
spec's), and the state after reset (rule R191). -/
namespace Sys2Proof.Machine

/-- The two command ports (R20). -/
inductive Port where
  /-- The host port `H`. -/
  | host
  /-- The producer port `P`. -/
  | producer
deriving DecidableEq, Repr

/-- The events of the downstream stream (R38). -/
inductive Event where
  | wrAw (len : BitVec 3)
  | wrTxAddr (bs : List Byte)
  | wrRxAddr (bs : List Byte)
  | wrConfig (b : Byte)
  | wrPayload (bs : List Byte)
deriving DecidableEq, Repr

/-- The causes a command can raise (R170); NONE is no cause, and the codes 10..15 are reserved. -/
inductive Cause where
  | illegalOpcode
  | operandLength
  | addrLenRange
  | payloadLenRange
  | noTxAddr
  | noRxAddr
  | addrLenMismatch
  | tableIndex
  | noTxid
deriving DecidableEq, Repr

/-- What belongs to one port. -/
structure PortState where
  /-- The commands waiting at the port, the next first (R20, R64). -/
  waiting : List Message
  /-- The index of the next command in the port's input sequence (R22). -/
  seq : Nat
  /-- The response messages delivered on the port, the oldest first (R39). -/
  responses : List (List Byte)
deriving DecidableEq, Repr

/-- The state. The names of the spec are in the docstrings; a field marked MODEL is the model's own. -/
structure State where
  /-- The construction parameters (R5, R8, R44): no command writes them. MODEL: the spec takes them as arguments. -/
  params : Params
  /-- `ADDR_LEN` (R23). -/
  addrLen : BitVec 3
  /-- `TX_ADDR[0..4]` (R24). -/
  txAddr : Vector Byte 5
  /-- `TXA_LEN` (R24). -/
  txaLen : BitVec 3
  /-- `TXA_VALID` (R24). -/
  txaValid : Bool
  /-- `RX_ADDR[0..4]` (R25). -/
  rxAddr : Vector Byte 5
  /-- `RXA_LEN` (R25). -/
  rxaLen : BitVec 3
  /-- `RXA_VALID` (R25). -/
  rxaValid : Bool
  /-- `CRC_EN` (R26). -/
  crcEn : Bool
  /-- `TXID[0..3]` (R27). -/
  txid : Vector Byte 4
  /-- `TXID_VALID` (R27). -/
  txidValid : Bool
  /-- `AID[0..3]` (R28). -/
  aid : Vector Byte 4
  /-- `CH[0..5]` (R30). -/
  ch : Vector Word 6
  /-- `RXCRC` (R31). -/
  rxcrc : Word
  /-- `FAULT` (R32). -/
  fault : Bool
  /-- `CAUSE` (R32). -/
  cause : BitVec 4
  /-- `FOPC` (R45). -/
  fopc : Byte
  /-- The downstream stream, the oldest event first (R38). -/
  stream : List Event
  /-- The host port (R20, R22, R39). -/
  host : PortState
  /-- The producer port (R20, R22, R39). -/
  producer : PortState
  /-- MODEL: the port of the command being performed, on which its response goes (R39). -/
  port : Port
  /-- MODEL (R61, R64): the port whose burst is running while both ports have a command waiting. -/
  arbPort : Port
  /-- MODEL: how many contested commands that burst still holds. -/
  arbLeft : Nat
  /-- MODEL: the index of the next free value of `Config.burst`. -/
  arbIdx : Nat
  /-- MODEL (R63): the port, if any, whose first waiting command a command of the other port has passed since it came
  first in line. -/
  arbPassed : Option Port
  /-- The reset input (R190): the number of steps for which it stays asserted, 0 when it is not. -/
  resetHold : Nat
deriving DecidableEq, Repr

/-- Why the machine stops: never. The spec gives every message, in every state, an effect; a contract breach sets the
fault latch (R174), which is a next state. The type has no constructor, so no step can answer a fault. -/
inductive Fault where
deriving DecidableEq, Repr

/-- Why an instruction has no meaning. -/
inductive Refusal where
  /-- Raised by `exec` alone, for a command not modelled yet; no arm raises it now. Safe: the machine stops. -/
  | notModelled (mnemonic : String)
deriving DecidableEq, Repr

/-- The state after reset (R191), of a block built with any legal parameters, with no command waiting. The bytes of
`TX_ADDR`, `RX_ADDR` and `TXID` are unspecified and unread in the spec; 0 is DESIGN CHOICE (log entry 3). -/
def State.reset : State where
  params := Config.built.params
  addrLen := 0
  txAddr := #v[0, 0, 0, 0, 0]
  txaLen := 0
  txaValid := false
  rxAddr := #v[0, 0, 0, 0, 0]
  rxaLen := 0
  rxaValid := false
  crcEn := false
  txid := #v[0, 0, 0, 0]
  txidValid := false
  aid := #v[0xFF, 0xFF, 0xFF, 0xFF]
  ch := #v[0, 0, 0, 0, 0, 0]
  rxcrc := 0
  fault := false
  cause := 0
  fopc := 0
  stream := []
  host := ⟨[], 0, []⟩
  producer := ⟨[], 0, []⟩
  port := .host
  arbPort := .host
  arbLeft := Config.burst 0
  arbIdx := 1
  arbPassed := none
  resetHold := 0

end Sys2Proof.Machine
end

