-- ==== Sys2Proof/Machine/Ops.lean ====
section
/-! DEFINITION. The operations every command is made of: responding and emitting (rule R14), taking a fault (R174),
being refused (R175), the reset that is the only return from a fault (R176, R190), and the taking of a command from a
port (R22, R61, R64). -/
namespace Sys2Proof.Machine

/-- The other port. -/
def Port.other : Port → Port
  | .host => .producer
  | .producer => .host

/-- What belongs to a port. -/
def State.portState (s : State) : Port → PortState
  | .host => s.host
  | .producer => s.producer

/-- The state with what belongs to a port replaced. -/
def State.setPortState (s : State) (p : Port) (v : PortState) : State :=
  match p with
  | .host => { s with host := v }
  | .producer => { s with producer := v }

/-- `respond(bs)` (R14, R39): the response goes to the port that issued the command. -/
def State.respond (s : State) (bs : List Byte) : State :=
  s.setPortState s.port { s.portState s.port with responses := (s.portState s.port).responses ++ [bs] }

/-- `emit(E)` (R14, R38): the event is appended to the downstream stream. -/
def State.emit (s : State) (e : Event) : State := { s with stream := s.stream ++ [e] }

/-- The code of a cause (R170). -/
def Cause.code : Cause → BitVec 4
  | .illegalOpcode => 1
  | .operandLength => 2
  | .addrLenRange => 3
  | .payloadLenRange => 4
  | .noTxAddr => 5
  | .noRxAddr => 6
  | .addrLenMismatch => 7
  | .tableIndex => 8
  | .noTxid => 9

/-- Fault entry (R174), the taking of the block's one kind of exception: `FAULT`, `CAUSE` and `FOPC` are written and
the response is empty; nothing else changes. -/
def faultEntry (c : Cause) (opc : Byte) (s : State) : State :=
  ({ s with fault := true, cause := c.code, fopc := opc } : State).respond []

/-- A command refused in the faulted state (R175): an empty response and no other effect. -/
def refuse (s : State) : State := s.respond []

/-- The end of every command but STATUS, from the result of its checks and its effect: refused while the fault latch
is set (R175), else performed whole or, if a check failed, faulted (R14, R40). -/
def settle (opc : Byte) (s : State) (r : Except Cause State) : State :=
  if s.fault then refuse s
  else
    match r with
    | .ok t => t
    | .error c => faultEntry c opc s

/-- `settle` as the outcome of a meaning: always a next state. -/
def complete (opc : Byte) (s : State) (r : Except Cause State) : Host.Outcome State Fault Refusal :=
  .next (settle opc s r)

/-- A message whose opcode byte is illegal (R75, R77): no operand is looked at. -/
def illegalCommand (opc : Byte) (s : State) : Host.Outcome State Fault Refusal :=
  complete opc s (.error .illegalOpcode)

/-- Whether a message is a CH_WRITE, whatever its operands (R142). -/
def isChWrite (m : Message) : Bool :=
  match decode m with
  | .ok (.chWrite _ _) => true
  | _ => false

/-- The port, if any, whose first waiting command is a CH_WRITE that a command of the other port has already passed. It
has waited for the one command R63 allows, so it is next. -/
def State.owedChWrite (s : State) : Option Port :=
  s.arbPassed.filter fun p => (s.portState p).waiting.head?.any isChWrite

/-- The port whose turn it is while both ports have a command waiting, and the state with that turn counted. The choice
is open but fair (R61, R64): the ports take turns in bursts whose lengths are free values (DESIGN CHOICE, log entry 2). -/
def burstChoice (s : State) : Port × State :=
  if s.arbLeft = 0 then
    (s.arbPort.other,
      { s with arbPort := s.arbPort.other, arbLeft := Config.burst s.arbIdx, arbIdx := s.arbIdx + 1 })
  else (s.arbPort, { s with arbLeft := s.arbLeft - 1 })

/-- The choice between two ports that both have a command waiting: a CH_WRITE that must wait no longer (R63), else the
port whose turn it is. A CH_WRITE served out of turn leaves the turns as they were. -/
def contestedChoice (s : State) : Port × State :=
  match s.owedChWrite with
  | none => burstChoice s
  | some p => if (burstChoice s).1 = p then burstChoice s else (p, s)

/-- Which port is served next, and the state with that choice made; none when no command waits (R193). Where both
ports have a command waiting, the command served passes the other port's first one, which is noted. -/
def choosePort (s : State) : Option (Port × State) :=
  match s.host.waiting, s.producer.waiting with
  | [], [] => none
  | _ :: _, [] => some (.host, { s with arbPassed := none })
  | [], _ :: _ => some (.producer, { s with arbPassed := none })
  | _ :: _, _ :: _ =>
    some ((contestedChoice s).1, { (contestedChoice s).2 with arbPassed := some (contestedChoice s).1.other })

/-- The next command, taken from its port: the port's first waiting message, and the state in which that port is the
one being served and its sequence index has advanced by 1 (R22, R61). -/
def takeCommand (s : State) : Option (Message × State) :=
  match choosePort s with
  | none => none
  | some (p, s1) =>
    match (s1.portState p).waiting with
    | [] => none
    | m :: rest =>
      some (m, { s1.setPortState p { s1.portState p with waiting := rest, seq := (s1.portState p).seq + 1 } with
        port := p })

/-- The state with a message first in line at the host port, so that the next step takes it: the reset input is
deasserted, and where the producer has a command waiting the running burst is the host's and not empty, and no CH_WRITE
counts as passed. -/
def placeFirst (m : Message) (s : State) : State :=
  { s with
    host := { s.host with waiting := m :: s.host.waiting }
    arbPort := if s.producer.waiting.isEmpty then s.arbPort else .host
    arbLeft := if s.producer.waiting.isEmpty then s.arbLeft else s.arbLeft + 1
    arbPassed := if s.producer.waiting.isEmpty then s.arbPassed else none
    resetHold := 0 }

/-- Reset (R190, R191): every register at its reset value and both sequence indices at 0. What was emitted and
responded stays, and so do the parameters, the messages still waiting and the open choices (log entry 4). -/
def resetBlock (s : State) : State :=
  { State.reset with
    params := s.params
    stream := s.stream
    host := { s.host with seq := 0 }
    producer := { s.producer with seq := 0 }
    port := s.port
    arbPort := s.arbPort
    arbLeft := s.arbLeft
    arbIdx := s.arbIdx
    arbPassed := s.arbPassed
    resetHold := s.resetHold - 1 }

/-- A step with the reset input asserted (R190): the command being delivered, if there is one, is not performed and
its response is empty, and the block is reset. -/
def resetStep (s : State) : State :=
  match takeCommand s with
  | none => resetBlock s
  | some (_, s1) => resetBlock (s1.respond [])

end Sys2Proof.Machine
end

