-- ==== Sys2Proof/Machine/Codec.lean ====
section
/-! DEFINITION. The packet codec (42_packet_codec.md): the loading of what a packet carries (SET_TXID, SET_AID,
CH_WRITE), the building and taking apart of a packet (PACK, UNPACK), and the reading of a bind reply (PARSE_REPLY). -/
namespace Sys2Proof.Machine

/-- SET_TXID (R140). -/
def execSetTxid (ops : List Byte) (s : State) : Host.Outcome State Fault Refusal :=
  complete (Instr.setTxid ops).opcode s <|
    match ops with
    | [b0, b1, b2, b3] => .ok (({ s with txid := #v[b0, b1, b2, b3], txidValid := true } : State).respond [])
    | _ => .error .operandLength

/-- SET_AID (R141). -/
def execSetAid (ops : List Byte) (s : State) : Host.Outcome State Fault Refusal :=
  complete (Instr.setAid ops).opcode s <|
    match ops with
    | [b0, b1, b2, b3] => .ok (({ s with aid := #v[b0, b1, b2, b3] } : State).respond [])
    | _ => .error .operandLength

/-- CH_WRITE (R142). -/
def execChWrite (c : Channel) (ops : List Byte) (s : State) : Host.Outcome State Fault Refusal :=
  complete (Instr.chWrite c ops).opcode s <|
    match ops with
    | [lo, hi] => .ok (({ s with ch := s.ch.set c.val (le16 lo hi) c.isLt } : State).respond [])
    | _ => .error .operandLength

/-- The channel whose value a packet field carries: aileron, elevator, throttle, rudder (R144). -/
def fieldChannel : Fin 4 → Channel
  | 0 => 1
  | 1 => 2
  | 2 => 0
  | 3 => 3

/-- The flip-mode flag of a snapshot: the source channel strictly above the threshold (R144). -/
def flipFlag (p : Params) (ch : Vector Word 6) : Bool := p.flipThreshold < ch[p.flipSrc]

/-- The word with only `FLIP_BIT` set. -/
def flipMask (p : Params) : Word := (1 : Word) <<< p.flipBit.val

/-- Packet field `k`: the biased channel value, with the flag or-ed into field `FLIP_FIELD` (R144). -/
def packetField (p : Params) (ch : Vector Word 6) (k : Fin 4) : Word :=
  let biased := ch[fieldChannel k] + Config.bias
  if flipFlag p ch = true ∧ k = p.flipField then biased ||| flipMask p else biased

/-- The mode byte: the band of the source channel's value (R144). -/
def modeByte (p : Params) (ch : Vector Word 6) : Byte :=
  let m := ch[p.modeSrc]
  if m ≤ p.modeBpLo then p.modeVal[0] else if m ≤ p.modeBpHi then p.modeVal[1] else p.modeVal[2]

/-- The type marker (R144). -/
def typeMarker : PacketType → Byte
  | .data => Config.typeData
  | .bind => Config.typeBind

/-- `MARSHAL(t, TXID, AID, s)` (R144). -/
def marshal (p : Params) (t : PacketType) (txid aid : Vector Byte 4) (ch : Vector Word 6) : List Byte :=
  [typeMarker t] ++ txid.toList ++ aid.toList ++
    (leBytes (packetField p ch 0) ++ leBytes (packetField p ch 1) ++ leBytes (packetField p ch 2) ++
      leBytes (packetField p ch 3)) ++ [modeByte p ch, 0]

/-- PACK (R145): all six channels are read at once, the snapshot of R143. -/
def execPack (t : PacketType) (ops : List Byte) (s : State) : Host.Outcome State Fault Refusal :=
  complete (Instr.pack t ops).opcode s <|
    match ops with
    | [] =>
      if s.txidValid = false then .error .noTxid else .ok (s.respond (marshal s.params t s.txid s.aid s.ch))
    | _ => .error .operandLength

/-- Field `k` of a packet as carried, bytes `9+2k` and `10+2k` (R146). -/
def carriedField (pk : List Byte) (k : Fin 4) : Word := le16 (byteAt pk (9 + 2 * k.val)) (byteAt pk (10 + 2 * k.val))

/-- The centered value of field `k` of a packet: the flip bit cleared in field `FLIP_FIELD`, the bias taken off
(R146). -/
def centeredField (p : Params) (pk : List Byte) (k : Fin 4) : Word :=
  (if k = p.flipField then carriedField pk k &&& ~~~flipMask p else carriedField pk k) - Config.bias

/-- The flip flag of a packet, 0 or 1 (R146). -/
def carriedFlip (p : Params) (pk : List Byte) : Byte :=
  if (carriedField pk p.flipField).getLsbD p.flipBit.val then 1 else 0

/-- The response of UNPACK to a packet (R146). -/
def unmarshal (p : Params) (pk : List Byte) : List Byte :=
  bytesFrom pk 0 9 ++
    (leBytes (centeredField p pk 0) ++ leBytes (centeredField p pk 1) ++ leBytes (centeredField p pk 2) ++
      leBytes (centeredField p pk 3)) ++ [carriedFlip p pk, byteAt pk 17, byteAt pk 18]

/-- UNPACK (R146). -/
def execUnpack (ops : List Byte) (s : State) : Host.Outcome State Fault Refusal :=
  complete (Instr.unpack ops).opcode s <|
    if ops.length ≠ Config.packetLen then .error .operandLength else .ok (s.respond (unmarshal s.params ops))

/-- The response of PARSE_REPLY to a reply (R147). -/
def replyReport (p : Params) (rp : List Byte) : List Byte :=
  [if byteAt rp p.ackOff = Config.ackValue then 1 else 0] ++ bytesFrom rp p.aidOff 4

/-- PARSE_REPLY (R147). -/
def execParseReply (ops : List Byte) (s : State) : Host.Outcome State Fault Refusal :=
  complete (Instr.parseReply ops).opcode s <|
    if ops.length ≠ s.params.replyLen then .error .operandLength else .ok (s.respond (replyReport s.params ops))

end Sys2Proof.Machine
end

