-- ==== Sys2Proof/Machine/Flags.lean ====
section
/-! DEFINITION. The read-only byte views of the state that STATUS returns (rules R34 to R37). -/
namespace Sys2Proof.Machine

/-- `STAT` (R34): bit 7 `FAULT`, 6 `TXID_VALID`, 5 `RXA_VALID`, 4 `TXA_VALID`, 3 `CRC_EN`, bits 2:0 `ADDR_LEN`. -/
def statByte (s : State) : Byte :=
  BitVec.ofBool s.fault ++ BitVec.ofBool s.txidValid ++ BitVec.ofBool s.rxaValid ++ BitVec.ofBool s.txaValid ++
    BitVec.ofBool s.crcEn ++ s.addrLen

/-- `ERR` (R35): bits 3:0 `CAUSE`, bits 7:4 read 0. -/
def errByte (s : State) : Byte := s.cause.setWidth 8

/-- `CAPS` (R36): bit 0 `EMULATE`, bits 7:1 read 0. -/
def capsByte (s : State) : Byte := (BitVec.ofBool s.params.emulate).setWidth 8

/-- The four bytes STATUS responds (R161). -/
def statusBytes (s : State) : List Byte := [statByte s, errByte s, capsByte s, s.fopc]

end Sys2Proof.Machine
end

