-- ==== Sys2Proof/Machine/Control.lean ====
section
/-! DEFINITION. The control and status commands (43_control.md): NOP, STATUS and RD_RXCRC. -/
namespace Sys2Proof.Machine

/-- NOP (R160). -/
def execNop (ops : List Byte) (s : State) : Host.Outcome State Fault Refusal :=
  complete (Instr.nop ops).opcode s <|
    match ops with
    | [] => .ok (s.respond [])
    | _ => .error .operandLength

/-- STATUS (R161): the one command performed while the fault latch is set, and then with any operands (R175). -/
def execStatus (ops : List Byte) (s : State) : Host.Outcome State Fault Refusal :=
  .next <|
    if s.fault then s.respond (statusBytes s)
    else
      match ops with
      | [] => s.respond (statusBytes s)
      | _ => faultEntry .operandLength (Instr.status ops).opcode s

/-- RD_RXCRC (R162). -/
def execRdRxcrc (ops : List Byte) (s : State) : Host.Outcome State Fault Refusal :=
  complete (Instr.rdRxcrc ops).opcode s <|
    match ops with
    | [] => .ok (s.respond (beBytes s.rxcrc))
    | _ => .error .operandLength

end Sys2Proof.Machine
end

