-- ==== Sys2Proof/Machine/Framing.lean ====
section
/-! DEFINITION. Address framing emulation (40_framing.md): the bit reversal, scramble and CRC primitives, the frame,
and the commands CONFIGURE, SET_TX_ADDR, SET_RX_ADDR, ENCODE and DECODE. -/
namespace Sys2Proof.Machine

/-- `rev8(b)`, bit `i` of the result bit `7-i` of `b` (R100). -/
def rev8 (b : Byte) : Byte :=
  b.extractLsb' 0 1 ++ b.extractLsb' 1 1 ++ b.extractLsb' 2 1 ++ b.extractLsb' 3 1 ++
    b.extractLsb' 4 1 ++ b.extractLsb' 5 1 ++ b.extractLsb' 6 1 ++ b.extractLsb' 7 1

/-- One of the eight shifts of a byte in the CRC (R101). -/
def crcShift (c : Word) : Word := if c.getLsbD 15 then (c <<< 1) ^^^ Config.crcPoly else c <<< 1

/-- One byte of the CRC: xored in at the top, then eight shifts (R101). -/
def crcByte (c : Word) (b : Byte) : Word := Nat.repeat crcShift 8 (c ^^^ (b.setWidth 16 <<< 8))

/-- `crc16(bs)` (R101). -/
def crc16 (bs : List Byte) : Word := bs.foldl crcByte Config.crcInit

/-- `SCRAMBLE[i]` (R8); the rules use no index above 23 (R10). -/
def scrambleAt (p : Params) (i : Nat) : Byte := p.scramble.toList.getD i 0

/-- The bytes xored with the run of scramble bytes that begins at index `i`. -/
def scrambleRun (p : Params) : Nat → List Byte → List Byte
  | _, [] => []
  | i, b :: bs => (b ^^^ scrambleAt p i) :: scrambleRun p (i + 1) bs

/-- `ADDRSEQ(A, L)` with `L = len(A)`: entry `j` is `A[L-1-j] ^ SCRAMBLE[j]` (R102). -/
def addrSeq (p : Params) (a : List Byte) : List Byte := scrambleRun p 0 a.reverse

/-- `MATCH(A, L)` with `L = len(A)`: entry `i` is `SCRAMBLE[L-1-i] ^ A[i]`, the bytes of `ADDRSEQ` in index order
(R102). -/
def matchAddr (p : Params) (a : List Byte) : List Byte := (addrSeq p a).reverse

/-- `SCR(P, L)` (R103). -/
def scramblePayload (p : Params) (len : Nat) (bs : List Byte) : List Byte := scrambleRun p len (bs.map rev8)

/-- `DESCR(R, L)` (R103). -/
def descramblePayload (p : Params) (len : Nat) (bs : List Byte) : List Byte := (scrambleRun p len bs).map rev8

/-- `HWPRE(L)` (R104). -/
def hwPreamble (p : Params) (len : Nat) : List Byte :=
  if len < 4 then p.preamble4.toList.drop 1 ++ [p.prePad, p.prePad] else p.preamble4.toList ++ [p.prePad]

/-- The index `(L-3) + n` of the CRC xor table (R106). -/
def xorIndex (len n : Nat) : Nat := (len - 3) + n

/-- `XOR_TABLE[i]` (R8); R173 checks the index before it is used. -/
def xorAt (p : Params) (i : Nat) : Word := p.xorTable.getD i 0

/-- The CRC of an address part and a body as they are on the air (R106, R111). -/
def airCrc (p : Params) (a : List Byte) (len : Nat) (body : List Byte) : Word :=
  crc16 (addrSeq p a ++ body) ^^^ xorAt p (xorIndex len body.length)

/-- `FCRC(A, L, P)` (R106). -/
def frameCrc (p : Params) (a : List Byte) (len : Nat) (payload : List Byte) : Word :=
  airCrc p a len (scramblePayload p len payload)

/-- The dropped preamble byte at the head of a frame when `L < 4` (R105). -/
def droppedPreamble (p : Params) (len : Nat) : List Byte := if len < 4 then [p.preamble4[0]] else []

/-- `FRAME(A, L, P, ce)` (R105). -/
def frame (p : Params) (a : List Byte) (len : Nat) (payload : List Byte) (ce : Bool) : List Byte :=
  droppedPreamble p len ++ addrSeq p a ++ scramblePayload p len payload ++
    (if ce then beBytes (frameCrc p a len payload) else [])

/-- The config byte handed to the driver: in emulation with the chip's CRC bits cleared (R107). -/
def forwardedConfig (p : Params) (cfg : Byte) : Byte := if p.emulate then cfg &&& ~~~p.cfgClearMask else cfg

/-- The bytes SET_TX_ADDR writes to the TX address register (R108). -/
def txRegisterBytes (p : Params) (a : List Byte) (len : Nat) : List Byte := if p.emulate then hwPreamble p len else a

/-- The bytes SET_RX_ADDR writes to the RX address register (R109). -/
def rxRegisterBytes (p : Params) (a : List Byte) : List Byte := if p.emulate then matchAddr p a else a

/-- The checks on `L` and on the operand count that SET_TX_ADDR and SET_RX_ADDR share (R108, R109, R171). -/
def checkAddr (len : BitVec 3) (ops : List Byte) (t : State) : Except Cause State :=
  if len < Config.lMin ∨ Config.lMax < len then .error .addrLenRange
  else if ops.length ≠ len.toNat then .error .operandLength
  else .ok t

/-- The checks on an address and on the table index that ENCODE and DECODE share in emulation (R110, R111, R171):
`valid` and `len` are the address's own, `missing` is the cause when it was never set, `n` the operand count. -/
def checkFraming (s : State) (valid : Bool) (len : BitVec 3) (missing : Cause) (n : Nat) (t : State) :
    Except Cause State :=
  if valid = false then .error missing
  else if len ≠ s.addrLen then .error .addrLenMismatch
  else if s.crcEn = true ∧ s.params.xorTable.length ≤ xorIndex s.addrLen.toNat n then .error .tableIndex
  else .ok t

/-- A payload handed to the driver, its length responded (R110). -/
def sendPayload (s : State) (f : List Byte) : State :=
  (s.emit (.wrPayload f)).respond [BitVec.ofNat 8 f.length]

/-- CONFIGURE (R107). -/
def execConfigure (ops : List Byte) (s : State) : Host.Outcome State Fault Refusal :=
  complete (Instr.configure ops).opcode s <|
    match ops with
    | [cfg] =>
      .ok ((({ s with crcEn := cfg &&& s.params.cfgCrcMask != 0 } : State).emit
        (.wrConfig (forwardedConfig s.params cfg))).respond [])
    | _ => .error .operandLength

/-- SET_TX_ADDR (R108). -/
def execSetTxAddr (len : BitVec 3) (ops : List Byte) (s : State) : Host.Outcome State Fault Refusal :=
  complete (Instr.setTxAddr len ops).opcode s <| checkAddr len ops <|
    ((({ s with txAddr := writeAddr s.txAddr ops, txaLen := len, txaValid := true, addrLen := len } : State).emit
      (.wrAw len)).emit (.wrTxAddr (txRegisterBytes s.params ops len.toNat))).respond []

/-- SET_RX_ADDR (R109). -/
def execSetRxAddr (len : BitVec 3) (ops : List Byte) (s : State) : Host.Outcome State Fault Refusal :=
  complete (Instr.setRxAddr len ops).opcode s <| checkAddr len ops <|
    ((({ s with rxAddr := writeAddr s.rxAddr ops, rxaLen := len, rxaValid := true, addrLen := len } : State).emit
      (.wrAw len)).emit (.wrRxAddr (rxRegisterBytes s.params ops))).respond []

/-- ENCODE (R110). -/
def execEncode (ops : List Byte) (s : State) : Host.Outcome State Fault Refusal :=
  complete (Instr.encode ops).opcode s <|
    if Config.maxPayload < ops.length then .error .payloadLenRange
    else if s.params.emulate then
      checkFraming s s.txaValid s.txaLen .noTxAddr ops.length <|
        sendPayload s (frame s.params (readAddr s.txAddr s.addrLen) s.addrLen.toNat ops s.crcEn)
    else .ok (sendPayload s ops)

/-- `RXCRC` after a DECODE of the body `ops` in emulation: the CRC of the RX address and the received bytes, written
only while `CRC_EN = 1` and compared with nothing (R111). -/
def receivedCrc (s : State) (ops : List Byte) : Word :=
  if s.crcEn then airCrc s.params (readAddr s.rxAddr s.addrLen) s.addrLen.toNat ops else s.rxcrc

/-- DECODE (R111). -/
def execDecode (ops : List Byte) (s : State) : Host.Outcome State Fault Refusal :=
  complete (Instr.decode ops).opcode s <|
    if Config.maxPayload < ops.length then .error .payloadLenRange
    else if s.params.emulate then
      checkFraming s s.rxaValid s.rxaLen .noRxAddr ops.length <|
        ({ s with rxcrc := receivedCrc s ops } : State).respond (descramblePayload s.params s.addrLen.toNat ops)
    else .ok (s.respond ops)

end Sys2Proof.Machine
end

