-- ==== Sys2Proof/Machine/Hop.lean ====
section
/-! DEFINITION. The frequency-hop channel plan (41_hop_plan.md) and the command HOP_GET. -/
namespace Sys2Proof.Machine

/-- `hop(id0, id1)` (R130). -/
def hopPlan (id0 id1 : Byte) : Vector Byte 4 :=
  #v[(id0 &&& (0x0F : Byte)) + Config.hopBase[0], (id0 >>> 4) + Config.hopBase[1],
     (id1 &&& (0x0F : Byte)) + Config.hopBase[2], (id1 >>> 4) + Config.hopBase[3]]

/-- HOP_GET (R131). -/
def execHopGet (k : BitVec 2) (ops : List Byte) (s : State) : Host.Outcome State Fault Refusal :=
  complete (Instr.hopGet k ops).opcode s <|
    match ops with
    | [] =>
      if s.txidValid = false then .error .noTxid
      else .ok (s.respond [(hopPlan s.txid[0] s.txid[1])[k.toNat]'k.isLt])
    | _ => .error .operandLength

end Sys2Proof.Machine
end

