-- ==== Sys2Proof/Machine/Dispatch.lean ====
section
/-! DEFINITION. The dispatch: one arm per constructor of `Instr`, in the order of the opcode map (rule R74). -/
namespace Sys2Proof.Machine

def exec (i : Instr) (s : State) : Host.Outcome State Fault Refusal :=
  match i with
  | .nop ops => Sys2Proof.Machine.execNop ops s
  | .configure ops => Sys2Proof.Machine.execConfigure ops s
  | .setTxAddr len ops => Sys2Proof.Machine.execSetTxAddr len ops s
  | .setRxAddr len ops => Sys2Proof.Machine.execSetRxAddr len ops s
  | .encode ops => Sys2Proof.Machine.execEncode ops s
  | .decode ops => Sys2Proof.Machine.execDecode ops s
  | .setTxid ops => Sys2Proof.Machine.execSetTxid ops s
  | .setAid ops => Sys2Proof.Machine.execSetAid ops s
  | .hopGet k ops => Sys2Proof.Machine.execHopGet k ops s
  | .chWrite c ops => Sys2Proof.Machine.execChWrite c ops s
  | .pack t ops => Sys2Proof.Machine.execPack t ops s
  | .unpack ops => Sys2Proof.Machine.execUnpack ops s
  | .parseReply ops => Sys2Proof.Machine.execParseReply ops s
  | .status ops => Sys2Proof.Machine.execStatus ops s
  | .rdRxcrc ops => Sys2Proof.Machine.execRdRxcrc ops s

end Sys2Proof.Machine
end

