-- ==== Sys2Proof/Machine/Step.lean ====
section
/-! DEFINITION. One step of the block: a reset step while the reset input is asserted, else one command taken and
performed whole (rule R40), else an idle step; and the placing of a command where the next step takes it. -/
namespace Sys2Proof.Machine

/-- The command of a message: decoded and run, or ILLEGAL_OPCODE (R77). -/
def runMessage (m : Message) (s : State) : Host.Outcome State Fault Refusal :=
  match decode m with
  | .ok i => exec i s
  | .error (.illegalOpcode opc) => illegalCommand opc s

/-- One step. -/
def step (s : State) : Host.Outcome State Fault Refusal :=
  if s.resetHold = 0 then
    match takeCommand s with
    | none => .next s
    | some (m, s1) => runMessage m s1
  else .next (resetStep s)

/-- The state with the message of an opcode-table word first in line at the host port, the reset input deasserted,
and the next contested choice, if there is one, the host's. -/
def State.withFetchWord (s : State) (nbits w : Nat) : State :=
  placeFirst (tableMessage s.params.replyLen nbits w) s

end Sys2Proof.Machine
end

