-- ==== Sys2Proof/WellFormed.lean ====
section
/-! DEFINITION. Which commands an assembler writes (rules R71, R73 and R79): the operand count the command takes, an
address length in range, a payload that fits. The block does not need it: it faults on every other command. -/
namespace Sys2Proof

/-- The address length of SET_TX_ADDR and SET_RX_ADDR is one of 3..5 (R73). -/
def legalAddrLen (len : BitVec 3) : Bool := Config.lMin ≤ len && len ≤ Config.lMax

/-- The command has the operands its row of R74 gives it, in a block whose `REPLY_LEN` is `replyLen`. -/
def Instr.wellFormed (replyLen : Nat) : Instr → Bool
  | .nop ops => ops.length == 0
  | .configure ops => ops.length == 1
  | .setTxAddr len ops => legalAddrLen len && ops.length == len.toNat
  | .setRxAddr len ops => legalAddrLen len && ops.length == len.toNat
  | .encode ops => ops.length ≤ Config.maxPayload
  | .decode ops => ops.length ≤ Config.maxPayload
  | .setTxid ops => ops.length == 4
  | .setAid ops => ops.length == 4
  | .hopGet _ ops => ops.length == 0
  | .chWrite _ ops => ops.length == 2
  | .pack _ ops => ops.length == 0
  | .unpack ops => ops.length == Config.packetLen
  | .parseReply ops => ops.length == replyLen
  | .status ops => ops.length == 0
  | .rdRxcrc ops => ops.length == 0

end Sys2Proof
end

