-- ==== Sys2Proof/Machine/Assembler.lean ====
section
/-! DEFINITION. The assembler syntax (rule R79) and the pseudo-instructions (R80): one line of text to the messages it
stands for. No part of a step uses it: it says which messages a requester's program text means. -/
namespace Sys2Proof.Machine

/-- An operand as written: a number, or a name. -/
inductive AsmOperand where
  | num (n : Nat)
  | name (cs : List Char)
deriving DecidableEq, Repr

/-- The pieces of a text between occurrences of a separator. -/
def splitOnChar (sep : Char) : List Char → List (List Char)
  | [] => [[]]
  | c :: cs =>
    if c = sep then [] :: splitOnChar sep cs
    else
      match splitOnChar sep cs with
      | [] => [[c]]
      | piece :: pieces => (c :: piece) :: pieces

/-- A space or a tab. -/
def isBlank (c : Char) : Bool := c == ' ' || c == '\t'

/-- A text without the blanks at its two ends. -/
def trimBlanks (cs : List Char) : List Char := ((cs.dropWhile isBlank).reverse.dropWhile isBlank).reverse

/-- The value of a digit in a base up to 16. -/
def digitValue (base : Nat) (c : Char) : Option Nat :=
  let v :=
    if '0' ≤ c ∧ c ≤ '9' then c.toNat - 48
    else if 'a' ≤ c ∧ c ≤ 'f' then c.toNat - 87
    else if 'A' ≤ c ∧ c ≤ 'F' then c.toNat - 55
    else 16
  if v < base then some v else none

/-- The number a list of digits stands for, read on from `acc`. -/
def readDigits (base : Nat) : Nat → List Char → Option Nat
  | acc, [] => some acc
  | acc, c :: cs =>
    match digitValue base c with
    | some d => readDigits base (acc * base + d) cs
    | none => none

/-- An operand: decimal, `0x` hexadecimal, or else a name; none when nothing is written. -/
def readOperand (cs : List Char) : Option AsmOperand :=
  match cs with
  | [] => none
  | '0' :: 'x' :: d :: ds => (readDigits 16 0 (d :: ds)).map .num
  | c :: rest =>
    if (digitValue 10 c).isSome then (readDigits 10 0 (c :: rest)).map .num else some (.name (c :: rest))

/-- The operands of a line: none written, or all of them readable. -/
def readOperands (cs : List Char) : Option (List AsmOperand) :=
  if trimBlanks cs = [] then some [] else (splitOnChar ',' cs).mapM fun piece => readOperand (trimBlanks piece)

/-- An operand that is a byte. -/
def asmByte : AsmOperand → Option Byte
  | .num n => if n < 256 then some (BitVec.ofNat 8 n) else none
  | .name _ => none

/-- A channel index, by number or by name (R79). -/
def asmChannel : AsmOperand → Option Channel
  | .num n => if h : n < 6 then some ⟨n, h⟩ else none
  | .name cs =>
    match String.ofList cs with
    | "thr" => some 0
    | "ail" => some 1
    | "ele" => some 2
    | "rud" => some 3
    | "aux1" => some 4
    | "aux2" => some 5
    | _ => none

/-- The operand of PACK: `data` or 0, `bind` or 1 (R79). -/
def asmPacketType : AsmOperand → Option PacketType
  | .num 0 => some .data
  | .num 1 => some .bind
  | .num _ => none
  | .name cs =>
    match String.ofList cs with
    | "data" => some .data
    | "bind" => some .bind
    | _ => none

/-- `L, a0, ..., a(L-1)`: refused when `L` is no address length or differs from the count of the bytes (R79). -/
def asmAddr (args : List AsmOperand) : Option (BitVec 3 × List Byte) :=
  match args with
  | .num n :: rest =>
    if 3 ≤ n ∧ n ≤ 5 ∧ rest.length = n then (rest.mapM asmByte).map fun bs => (BitVec.ofNat 3 n, bs) else none
  | _ => none

/-- The operand bytes of a command that takes exactly `n` of them. -/
def asmBytes (n : Nat) (args : List AsmOperand) : Option (List Byte) :=
  if args.length = n then args.mapM asmByte else none

/-- The commands of a mnemonic or pseudo-instruction with its operands (R79, R80); none when refused. -/
def asmCommands (replyLen : Nat) (mnemonic : List Char) (args : List AsmOperand) : Option (List Instr) :=
  match String.ofList mnemonic with
  | "NOP" => (asmBytes 0 args).map fun bs => [.nop bs]
  | "CONFIGURE" => (asmBytes 1 args).map fun bs => [.configure bs]
  | "SET_TX_ADDR" => (asmAddr args).map fun a => [.setTxAddr a.1 a.2]
  | "SET_RX_ADDR" => (asmAddr args).map fun a => [.setRxAddr a.1 a.2]
  | "ENCODE" => (args.mapM asmByte).map fun bs => [.encode bs]
  | "DECODE" => (args.mapM asmByte).map fun bs => [.decode bs]
  | "SET_TXID" => (asmBytes 4 args).map fun bs => [.setTxid bs]
  | "SET_AID" => (asmBytes 4 args).map fun bs => [.setAid bs]
  | "HOP_GET" =>
    match args with
    | [.num k] => if k < 4 then some [.hopGet (BitVec.ofNat 2 k) []] else none
    | _ => none
  | "CH_WRITE" =>
    match args with
    | [c, .num v] =>
      if v < 65536 then (asmChannel c).map fun c => [.chWrite c [BitVec.ofNat 8 v, BitVec.ofNat 8 (v / 256)]] else none
    | _ => none
  | "PACK" =>
    match args with
    | [t] => (asmPacketType t).map fun t => [.pack t []]
    | _ => none
  | "UNPACK" => (asmBytes Config.packetLen args).map fun bs => [.unpack bs]
  | "PARSE_REPLY" => (asmBytes replyLen args).map fun bs => [.parseReply bs]
  | "STATUS" => (asmBytes 0 args).map fun bs => [.status bs]
  | "RD_RXCRC" => (asmBytes 0 args).map fun bs => [.rdRxcrc bs]
  | "PACK_DATA" => (asmBytes 0 args).map fun _ => [.pack .data []]
  | "PACK_BIND" => (asmBytes 0 args).map fun _ => [.pack .bind []]
  | "SET_ADDR" => (asmAddr args).map fun a => [.setTxAddr a.1 a.2, .setRxAddr a.1 a.2]
  | "HOP_ALL" => (asmBytes 0 args).map fun _ => [.hopGet 0 [], .hopGet 1 [], .hopGet 2 [], .hopGet 3 []]
  | _ => none

/-- One line of assembler text: the messages it stands for, none of them for a blank or comment line, or refused. -/
def assembleLine (replyLen : Nat) (line : List Char) : Option (List Message) :=
  let text := trimBlanks (line.takeWhile (· != ';'))
  if text = [] then some []
  else
    let mnemonic := text.takeWhile (!isBlank ·)
    match readOperands (text.drop mnemonic.length) with
    | none => none
    | some args => (asmCommands replyLen mnemonic args).map (·.map encode)

end Sys2Proof.Machine
end

