-- ==== Sys2Proof/Safety.lean ====
section
/-! DEFINITION. What a sound state of the block is, and what two states share, in the terms the statements use. -/
namespace Sys2Proof

open Machine

/-- An address register's length and valid bit agree: an address that was set has a length in 3..5, and one that was
not has length 0 (R24, R25). -/
def Safety.AddrSound (valid : Bool) (len : BitVec 3) : Prop :=
  (valid = false ∧ len = 0) ∨ (valid = true ∧ 3 ≤ len ∧ len ≤ 5)

/-- `ADDR_LEN` is 0 until an address is set, and then the length of one of the two addresses (R23, R201). -/
def Safety.AddrLenSound (s : State) : Prop :=
  (s.addrLen = 0 ∧ s.txaValid = false ∧ s.rxaValid = false) ∨
  (s.txaValid = true ∧ s.addrLen = s.txaLen) ∨ (s.rxaValid = true ∧ s.addrLen = s.rxaLen)

/-- The fault latch is clear with nothing recorded, or holds one of the causes 1..9 (R32, R45, R170). -/
def Safety.LatchSound (s : State) : Prop :=
  (s.fault = false ∧ s.cause = 0 ∧ s.fopc = 0) ∨ (s.fault = true ∧ 1 ≤ s.cause ∧ s.cause ≤ 9)

/-- A downstream event has the payload R38 gives its kind; in emulation a forwarded config byte has no CRC-enable
bit (R107). -/
def Safety.EventSound (p : Params) : Event → Prop
  | .wrAw len => 3 ≤ len ∧ len ≤ 5
  | .wrTxAddr bs => if p.emulate then bs.length = 5 else 3 ≤ bs.length ∧ bs.length ≤ 5
  | .wrRxAddr bs => 3 ≤ bs.length ∧ bs.length ≤ 5
  | .wrConfig b => p.emulate = true → b &&& p.cfgCrcMask = 0
  | .wrPayload bs => bs.length ≤ 26

/-- The invariant of the machine. -/
def Safety.Sound (s : State) : Prop :=
  s.params.Legal ∧ Safety.AddrSound s.txaValid s.txaLen ∧ Safety.AddrSound s.rxaValid s.rxaLen ∧
  Safety.AddrLenSound s ∧ Safety.LatchSound s ∧ (s.params.emulate = false → s.rxcrc = 0) ∧
  ∀ e ∈ s.stream, Safety.EventSound s.params e

/-- Two states agree on every register of the block and on the parameters: on everything but the stream, the ports,
the arbitration and the reset input. -/
def Safety.SameRegisters (s t : State) : Prop :=
  t.params = s.params ∧ t.addrLen = s.addrLen ∧ t.txAddr = s.txAddr ∧ t.txaLen = s.txaLen ∧ t.txaValid = s.txaValid ∧
  t.rxAddr = s.rxAddr ∧ t.rxaLen = s.rxaLen ∧ t.rxaValid = s.rxaValid ∧ t.crcEn = s.crcEn ∧ t.txid = s.txid ∧
  t.txidValid = s.txidValid ∧ t.aid = s.aid ∧ t.ch = s.ch ∧ t.rxcrc = s.rxcrc ∧ t.fault = s.fault ∧
  t.cause = s.cause ∧ t.fopc = s.fopc

/-- The state after a fault of code `code` raised by a command with opcode byte `opc` (R174): the three latch registers
are written and an empty response is given. -/
def Safety.afterFault (s : State) (code : BitVec 4) (opc : Byte) : State :=
  ({ s with fault := true, cause := code, fopc := opc } : State).respond []

/-- Two states differ at most in address and identity bytes that R42 says are never read: those of an address or
identity that was not set, and those beyond the length of an address that was. -/
def Safety.SameButUnread (s t : State) : Prop :=
  t = { s with txAddr := t.txAddr, rxAddr := t.rxAddr, txid := t.txid } ∧
  (s.txaValid = true → t.txAddr.toList.take s.txaLen.toNat = s.txAddr.toList.take s.txaLen.toNat) ∧
  (s.rxaValid = true → t.rxAddr.toList.take s.rxaLen.toNat = s.rxAddr.toList.take s.rxaLen.toNat) ∧
  (s.txidValid = true → t.txid = s.txid)

/-- A text that writes a number in R79's ways: in decimal, or in hexadecimal after `0x`, where leading zeros may stand
and the letters may be capitals, as in the spec's own `0x07` and `0x3C`. -/
def Safety.NumberText (text : List Char) (n : Nat) : Prop :=
  text = Nat.toDigits 10 n ∨
  (∃ z, text = '0' :: 'x' :: (List.replicate z '0' ++ Nat.toDigits 16 n)) ∨
  ∃ z, text = '0' :: 'x' :: (List.replicate z '0' ++ (Nat.toDigits 16 n).map Char.toUpper)

/-- Texts that write bytes, one each. -/
def Safety.BytesText (texts : List (List Char)) (bs : List Byte) : Prop :=
  List.Forall₂ (fun text b => Safety.NumberText text b.toNat) texts bs

/-- The name of a channel (R79). -/
def Safety.channelName (c : Channel) : List Char :=
  (#v["thr", "ail", "ele", "rud", "aux1", "aux2"][c]).toList

/-- A line of R79's form: the mnemonic, a space before the first operand, a comma and a space before each other. -/
def Safety.lineText (mnemonic : String) : List (List Char) → List Char
  | [] => mnemonic.toList
  | operand :: operands =>
    mnemonic.toList ++ ' ' :: (operand ++ (operands.map fun text => ',' :: ' ' :: text).flatten)

end Sys2Proof
end

