-- ==== Sys2Proof/Certificates/Slice0/Obligations.lean ====
section
/-! DEFINITION. The statements for the provers. Each docstring names the rule it formalises. -/

open Sys2Proof Sys2Proof.Machine

/-! ### Encoding -/

/-- Decoding the message of a command gives the command back, whatever its operands (30_encoding.md R72, R74, R79). -/
def Obligations.DecodeOfEncodeIsTheCommand : Prop :=
  ∀ i : Instr, decode (encode i) = .ok i

/-- A message that decodes is the message of the command it decodes to: no bit of it is dropped, and no two messages
mean the same command (R72, R74, R77). -/
def Obligations.DecodedCommandEncodesBack : Prop :=
  ∀ (m : Message) (i : Instr), decode m = .ok i → encode i = m

/-- The opcode map of R74, row by row: an opcode byte that meets a row's mask and match decodes to that row's command,
with the fields of R73; 0x86 and 0x87 do not. -/
def Obligations.DecodeFollowsTheOpcodeMap : Prop :=
  ∀ (o : Byte) (ops : List Byte),
    (o &&& 0xFF = 0x00 → decode ⟨o, ops⟩ = .ok (.nop ops)) ∧
    (o &&& 0xFF = 0x10 → decode ⟨o, ops⟩ = .ok (.configure ops)) ∧
    (o &&& 0xF8 = 0x20 → decode ⟨o, ops⟩ = .ok (.setTxAddr (o.extractLsb' 0 3) ops)) ∧
    (o &&& 0xF8 = 0x30 → decode ⟨o, ops⟩ = .ok (.setRxAddr (o.extractLsb' 0 3) ops)) ∧
    (o &&& 0xFF = 0x40 → decode ⟨o, ops⟩ = .ok (.encode ops)) ∧
    (o &&& 0xFF = 0x50 → decode ⟨o, ops⟩ = .ok (.decode ops)) ∧
    (o &&& 0xFF = 0x60 → decode ⟨o, ops⟩ = .ok (.setTxid ops)) ∧
    (o &&& 0xFF = 0x61 → decode ⟨o, ops⟩ = .ok (.setAid ops)) ∧
    (o &&& 0xFC = 0x70 → decode ⟨o, ops⟩ = .ok (.hopGet (o.extractLsb' 0 2) ops)) ∧
    (∀ h : (o.extractLsb' 0 3).toNat < 6, o &&& 0xF8 = 0x80 →
      decode ⟨o, ops⟩ = .ok (.chWrite ⟨(o.extractLsb' 0 3).toNat, h⟩ ops)) ∧
    (o &&& 0xFE = 0x90 → decode ⟨o, ops⟩ = .ok (.pack (if o.getLsbD 0 then .bind else .data) ops)) ∧
    (o &&& 0xFF = 0xA0 → decode ⟨o, ops⟩ = .ok (.unpack ops)) ∧
    (o &&& 0xFF = 0xA1 → decode ⟨o, ops⟩ = .ok (.parseReply ops)) ∧
    (o &&& 0xFF = 0xF0 → decode ⟨o, ops⟩ = .ok (.status ops)) ∧
    (o &&& 0xFF = 0xF1 → decode ⟨o, ops⟩ = .ok (.rdRxcrc ops))

/-- The illegal bytes are exactly those of the list that 30_encoding.md infers from its opcode map (its sentence "The
illegal bytes are: 0x01..0x0F, ...", marked as derived there): those that select no row of the map, and 0x86 and 0x87.
A command with such a byte faults with ILLEGAL_OPCODE whatever its operands. -/
def Obligations.IllegalBytesAreExactlyTheListed : Prop :=
  ∀ (o : Byte) (ops : List Byte) (s : State), s.fault = false →
    let listed :=
      (0x01 ≤ o ∧ o ≤ 0x0F) ∨ (0x11 ≤ o ∧ o ≤ 0x1F) ∨ (0x28 ≤ o ∧ o ≤ 0x2F) ∨ (0x38 ≤ o ∧ o ≤ 0x3F) ∨
      (0x41 ≤ o ∧ o ≤ 0x4F) ∨ (0x51 ≤ o ∧ o ≤ 0x5F) ∨ (0x62 ≤ o ∧ o ≤ 0x6F) ∨ (0x74 ≤ o ∧ o ≤ 0x7F) ∨
      (0x86 ≤ o ∧ o ≤ 0x8F) ∨ (0x92 ≤ o ∧ o ≤ 0x9F) ∨ (0xA2 ≤ o ∧ o ≤ 0xEF) ∨ (0xF2 ≤ o ∧ o ≤ 0xFF)
    (((∀ r ∈ opcodeMap, o &&& r.mask ≠ r.pat) ∨ o = 0x86 ∨ o = 0x87) ↔ listed) ∧
    ((∃ i, decode ⟨o, ops⟩ = .ok i) ↔ ¬ listed) ∧
    (listed → runMessage ⟨o, ops⟩ s = .next (Safety.afterFault s 1 o))

/-- Words of R79's table, one or two of every family, decode to their commands. -/
def Obligations.SampleMessagesDecode : Prop :=
  decode ⟨0x00, []⟩ = .ok (.nop []) ∧
  decode ⟨0x10, [0x0E]⟩ = .ok (.configure [0x0E]) ∧
  decode ⟨0x23, [0xA1, 0xA2, 0xA3]⟩ = .ok (.setTxAddr 3 [0xA1, 0xA2, 0xA3]) ∧
  decode ⟨0x35, [0x11, 0x22, 0x33, 0x44, 0x55]⟩ = .ok (.setRxAddr 5 [0x11, 0x22, 0x33, 0x44, 0x55]) ∧
  decode ⟨0x72, []⟩ = .ok (.hopGet 2 []) ∧
  decode ⟨0x81, [0xF4, 0x01]⟩ = .ok (.chWrite 1 [0xF4, 0x01]) ∧
  decode ⟨0x91, []⟩ = .ok (.pack .bind []) ∧
  decode ⟨0x86, [0xF4, 0x01]⟩ = .error (.illegalOpcode 0x86)

/-- The operand checks and the encoding agree (R71, R73, R170): with the latch clear, a command that is not well formed
faults with OPERAND_LENGTH, ADDR_LEN_RANGE or PAYLOAD_LEN_RANGE, and one that is well formed faults, if at all, with a
later cause. -/
def Obligations.OperandFaultsAreIllFormedness : Prop :=
  ∀ (i : Instr) (s : State), s.fault = false →
    ∃ t, exec i s = .next t ∧
      (i.wellFormed s.params.replyLen = false → t.fault = true ∧ (t.cause = 2 ∨ t.cause = 3 ∨ t.cause = 4)) ∧
      (i.wellFormed s.params.replyLen = true → t.fault = true → 5 ≤ t.cause)

/-- Every message of a line that the model's assembler accepts decodes, and to a well-formed command but for the payload
bound of ENCODE and DECODE, which the assembler leaves to the block. That it is well formed rests on refusals that are
the model's choice (log entry 7: wrong operand counts, an address length outside 3..5), not on R79, which states two
refusals only. Which messages a line stands for is `AssemblerLinesStandForTheirMessages`. -/
def Obligations.AssembledMessagesDecode : Prop :=
  ∀ (replyLen : Nat) (line : List Char) (ms : List Message), assembleLine replyLen line = some ms →
    ∀ m ∈ ms, ∃ i, decode m = .ok i ∧
      (i.wellFormed replyLen = true ∨ (∃ ops, i = .encode ops) ∨ (∃ ops, i = .decode ops))

/-! ### The step -/

/-- A step runs the message it takes, on the state left by the taking (R77): every message, legal or not, through
`runMessage`; the command it decodes to; and where its opcode byte is illegal, the fault entry of ILLEGAL_OPCODE (R174),
or in the faulted state the refusal (R175). -/
def Obligations.StepRunsTheDecodedCommand : Prop :=
  ∀ (s s1 : State) (m : Message), s.resetHold = 0 → takeCommand s = some (m, s1) →
    step s = runMessage m s1 ∧
    (∀ i, decode m = .ok i → step s = exec i s1) ∧
    (∀ e, decode m = .error e →
      e = .illegalOpcode m.opc ∧
      (s.fault = false → step s = .next (Safety.afterFault s1 1 m.opc)) ∧
      (s.fault = true → step s = .next (s1.respond [])))

/-- What taking a command does (R22, R61): the first message waiting at one port is taken, that port's sequence index
advances by 1 and it becomes the port being served, and the other port, the registers, the stream and the reset input
are as before; none is taken only where none waits. -/
def Obligations.TakenCommandIsFirstOfItsPort : Prop :=
  ∀ s : State,
    (takeCommand s = none ↔ s.host.waiting = [] ∧ s.producer.waiting = []) ∧
    ∀ (m : Message) (s1 : State), takeCommand s = some (m, s1) →
      (s.portState s1.port).waiting = m :: (s1.portState s1.port).waiting ∧
      (s1.portState s1.port).seq = (s.portState s1.port).seq + 1 ∧
      (s1.portState s1.port).responses = (s.portState s1.port).responses ∧
      s1.portState s1.port.other = s.portState s1.port.other ∧
      Safety.SameRegisters s s1 ∧ s1.stream = s.stream ∧ s1.resetHold = s.resetHold

/-- A word placed for the next step is the one it takes, from the host port (the model's own placing, log entry 5). -/
def Obligations.PlacedWordIsTakenNext : Prop :=
  ∀ (s : State) (nbits w : Nat),
    (s.withFetchWord nbits w).resetHold = 0 ∧
    ∃ s1, takeCommand (s.withFetchWord nbits w) = some (tableMessage s.params.replyLen nbits w, s1) ∧ s1.port = .host

/-- With no command waiting and the reset input deasserted, a step changes nothing (70_reset_and_hazards.md, section
1: "the block is idle"; that an idle step is a step is log entry 5). -/
def Obligations.IdleStepChangesNothing : Prop :=
  ∀ s : State, s.resetHold = 0 → s.host.waiting = [] → s.producer.waiting = [] → step s = .next s

/-- The machine never stops (a fault of the block is a next state), and no step writes the construction parameters
(10_state.md, section 6: "No command writes them"). -/
def Obligations.EveryStepGoesOnWithTheSameParameters : Prop :=
  ∀ s : State, ∃ t, step s = .next t ∧ t.params = s.params

/-- The reset state holds the values of the table "Reset state, gathered from 10_state.md" of 70_reset_and_hazards.md,
section 1, which the spec marks as derived, and R22's sequence index of each port, which "starts at 0 at reset". The
address and identity bytes it leaves unspecified are not stated (log entry 3). -/
def Obligations.ResetStateHoldsTheResetValues : Prop :=
  let s := State.reset
  s.addrLen = 0 ∧ s.txaLen = 0 ∧ s.txaValid = false ∧ s.rxaLen = 0 ∧ s.rxaValid = false ∧ s.crcEn = false ∧
  s.txidValid = false ∧ s.aid = #v[0xFF, 0xFF, 0xFF, 0xFF] ∧ s.ch = #v[0, 0, 0, 0, 0, 0] ∧ s.rxcrc = 0x0000 ∧
  s.fault = false ∧ s.cause = 0 ∧ s.fopc = 0x00 ∧ statByte s = 0x00 ∧ errByte s = 0x00 ∧
  capsByte s = (if s.params.emulate then 0x01 else 0x00) ∧ s.stream = [] ∧ s.host.seq = 0 ∧ s.producer.seq = 0

/-- A step with the reset input asserted (R190, R191, R192): from every state, faulted or not, every register is at its
reset value and both sequence indices at 0; the stream is as before and the parameters too. A command that waited is
taken from its port, not performed, and answered by an empty response (that it is one command a step is log entry 4). -/
def Obligations.AssertedResetRestoresTheBlock : Prop :=
  ∀ s : State, s.resetHold ≠ 0 → ∃ t, step s = .next t ∧
    t.addrLen = 0 ∧ t.txaLen = 0 ∧ t.txaValid = false ∧ t.rxaLen = 0 ∧ t.rxaValid = false ∧ t.crcEn = false ∧
    t.txidValid = false ∧ t.aid = #v[0xFF, 0xFF, 0xFF, 0xFF] ∧ t.ch = #v[0, 0, 0, 0, 0, 0] ∧ t.rxcrc = 0x0000 ∧
    t.fault = false ∧ t.cause = 0 ∧ t.fopc = 0x00 ∧ t.host.seq = 0 ∧ t.producer.seq = 0 ∧
    t.stream = s.stream ∧ t.params = s.params ∧ t.resetHold + 1 = s.resetHold ∧
    (takeCommand s = none → t.host.responses = s.host.responses ∧ t.producer.responses = s.producer.responses) ∧
    (∀ m s1, takeCommand s = some (m, s1) →
      (t.portState s1.port).waiting = (s1.portState s1.port).waiting ∧
      (t.portState s1.port).responses = (s.portState s1.port).responses ++ [[]] ∧
      (t.portState s1.port.other).waiting = (s.portState s1.port.other).waiting ∧
      (t.portState s1.port.other).responses = (s.portState s1.port.other).responses)

/-- The invariant holds after reset. -/
def Obligations.ResetIsSound : Prop :=
  Safety.Sound State.reset

/-- HEADLINE. Every step keeps the invariant (R8, R23, R24, R25, R32, R38, R107, R170): the parameters stay legal, each
address has a legal length exactly while it is valid, `ADDR_LEN` is 0 or the length of a set address, the latch holds
a cause 1..9 exactly while `FAULT = 1`, `RXCRC` is 0 in passthrough, and every downstream event has the payload of its
kind, with no CRC-enable bit forwarded in emulation. -/
def Obligations.EveryStepKeepsSoundness : Prop :=
  ∀ s t : State, Safety.Sound s → step s = .next t → Safety.Sound t

/-- The stream is append-only (R38): a step appends at most two events, and none while the latch is set (R175) or the
reset input asserted (R192). -/
def Obligations.StreamOnlyGrows : Prop :=
  ∀ s t : State, step s = .next t →
    ∃ es, t.stream = s.stream ++ es ∧ es.length ≤ 2 ∧ (s.fault = true ∨ s.resetHold ≠ 0 → es = [])

/-- The only way out of the faulted state is reset (R176): without it a step from a faulted state changes no register
and emits nothing, so the first fault is kept; with it the latch is clear. -/
def Obligations.OnlyResetLeavesTheFaultedState : Prop :=
  ∀ s t : State, s.fault = true → step s = .next t →
    (s.resetHold = 0 → Safety.SameRegisters s t ∧ t.stream = s.stream) ∧ (s.resetHold ≠ 0 → t.fault = false)

/-- Each command gets exactly one response, on the port that issued it and before its port's next command is taken
(R39): the step that takes the command delivers it. -/
def Obligations.OneResponseForEachCommand : Prop :=
  ∀ (s s1 t : State) (m : Message), s.resetHold = 0 → takeCommand s = some (m, s1) → step s = .next t →
    ∃ r, (t.portState s1.port).responses = (s.portState s1.port).responses ++ [r] ∧
      (t.portState s1.port).waiting = (s1.portState s1.port).waiting ∧
      (t.portState s1.port).seq = (s1.portState s1.port).seq ∧
      t.portState s1.port.other = s.portState s1.port.other

/-- Fault entry is precise (R174): a step that sets the latch leaves the state after the taking of its command with only
`FAULT`, `CAUSE` and `FOPC` changed, one of the causes 1..9 and the command's opcode byte recorded, and an empty
response; the command counts as taken. -/
def Obligations.FaultEntryIsPrecise : Prop :=
  ∀ (s s1 t : State) (m : Message), s.resetHold = 0 → s.fault = false → takeCommand s = some (m, s1) →
    step s = .next t → t.fault = true →
    ∃ code : BitVec 4, 1 ≤ code ∧ code ≤ 9 ∧ t = Safety.afterFault s1 code m.opc ∧
      (t.portState s1.port).seq = (s.portState s1.port).seq + 1

/-- The faulted state (R175): every command but STATUS is refused, with an illegal opcode or wrong operands too, and
STATUS is performed, with any operands. -/
def Obligations.LatchRefusesAllButStatus : Prop :=
  ∀ (m : Message) (s : State), s.fault = true →
    (m.opc ≠ 0xF0 → runMessage m s = .next (s.respond [])) ∧
    (m.opc = 0xF0 → runMessage m s = .next (s.respond (statusBytes s)))

/-- The frame of every command, column by column of the access matrix of 10_state.md, section 5 ("Which commands read
(r) and write (w) which state", which the spec marks as derived): a register changes only by the commands the matrix
lists for it, the stream only by those that emit, and nothing of the ports but the responses. -/
def Obligations.RegistersChangeOnlyByTheirCommands : Prop :=
  ∀ (i : Instr) (s t : State), exec i s = .next t →
    (t.addrLen ≠ s.addrLen → (∃ l o, i = .setTxAddr l o) ∨ (∃ l o, i = .setRxAddr l o)) ∧
    (t.txAddr ≠ s.txAddr ∨ t.txaLen ≠ s.txaLen ∨ t.txaValid ≠ s.txaValid → ∃ l o, i = .setTxAddr l o) ∧
    (t.rxAddr ≠ s.rxAddr ∨ t.rxaLen ≠ s.rxaLen ∨ t.rxaValid ≠ s.rxaValid → ∃ l o, i = .setRxAddr l o) ∧
    (t.crcEn ≠ s.crcEn → ∃ o, i = .configure o) ∧
    (t.txid ≠ s.txid ∨ t.txidValid ≠ s.txidValid → ∃ o, i = .setTxid o) ∧
    (t.aid ≠ s.aid → ∃ o, i = .setAid o) ∧
    (t.ch ≠ s.ch → ∃ c o, i = .chWrite c o) ∧
    (t.rxcrc ≠ s.rxcrc → ∃ o, i = .decode o) ∧
    (t.stream ≠ s.stream →
      (∃ o, i = .configure o) ∨ (∃ l o, i = .setTxAddr l o) ∨ (∃ l o, i = .setRxAddr l o) ∨ (∃ o, i = .encode o)) ∧
    (t.fault ≠ s.fault ∨ t.cause ≠ s.cause ∨ t.fopc ≠ s.fopc → s.fault = false ∧ t.fault = true) ∧
    t.params = s.params ∧ t.port = s.port ∧ t.arbPort = s.arbPort ∧ t.arbLeft = s.arbLeft ∧ t.arbIdx = s.arbIdx ∧
    t.arbPassed = s.arbPassed ∧ t.resetHold = s.resetHold ∧
    ∀ p, (t.portState p).waiting = (s.portState p).waiting ∧ (t.portState p).seq = (s.portState p).seq

/-- "STATUS, RD_RXCRC, HOP_GET, PACK, UNPACK, PARSE_REPLY and NOP write no state (a fault aside)" (20_memory.md,
section 3, which the spec marks as derived): they only respond, and so does every refused command. -/
def Obligations.ReadingCommandsWriteNoState : Prop :=
  ∀ (s t : State) (i : Instr) (ops : List Byte) (k : BitVec 2) (ty : PacketType),
    i ∈ [.status ops, .rdRxcrc ops, .hopGet k ops, .pack ty ops, .unpack ops, .parseReply ops, .nop ops] →
    exec i s = .next t → t.fault = s.fault → ∃ r, t = s.respond r

/-- Service is fair (20_memory.md, section 4: "A command waiting on either port is eventually taken"): after
a bounded number of steps, whatever the free lengths of the bursts and whatever the commands taken before it do. The
bound is the model's choice (log entry 2). -/
def Obligations.WaitingCommandIsEventuallyTaken : Prop :=
  ∀ (s : State) (p : Port), s.resetHold = 0 → (s.portState p).waiting ≠ [] →
    ∃ k t, k ≤ s.arbLeft + Config.burst s.arbIdx + 2 ∧ Host.Core.run core k s = .next t ∧
      (t.portState p).seq = (s.portState p).seq + 1

/-! ### The framing primitives -/

/-- R100: bit `i` of `rev8(b)` is bit `7-i` of `b`, and `rev8` is its own inverse; R100's examples. -/
def Obligations.BitReversalMirrorsBits : Prop :=
  (∀ b : Byte, (∀ i : Fin 8, (rev8 b).getLsbD i.val = b.getLsbD (7 - i.val)) ∧ rev8 (rev8 b) = b) ∧
  rev8 0x01 = 0x80 ∧ rev8 0x0F = 0xF0 ∧ rev8 0x55 = 0xAA ∧ rev8 0xA5 = 0xA5 ∧ rev8 0x12 = 0x48

/-- The pseudocode of `crc16` (40_framing.md, section 1), the spec's own reading of "MSB-first" (log entry 8): the CRC
of the empty list is 0xB5D2, and one more byte is xored in at the top and shifted out in eight steps; the rule's
examples. -/
def Obligations.CrcFollowsItsRecurrence : Prop :=
  let shift : Word → Word := fun c => if c.getLsbD 15 then (c <<< 1) ^^^ 0x1021 else c <<< 1
  crc16 [] = 0xB5D2 ∧
  (∀ (bs : List Byte) (b : Byte), crc16 (bs ++ [b]) =
    shift (shift (shift (shift (shift (shift (shift (shift (crc16 bs ^^^ (b.setWidth 16 <<< 8)))))))))) ∧
  crc16 [0x00] = 0x257E ∧ crc16 [0x01] = 0x355F ∧ crc16 [0xFF] = 0x3B8E ∧
  crc16 [0x31, 0x32, 0x33, 0x34, 0x35, 0x36, 0x37, 0x38, 0x39] = 0xB4FC

/-- "a single flipped input bit changes the CRC" (40_framing.md, section 4, which rests it on general
knowledge), and more: two frames of the same lengths whose bytes under the CRC differ in exactly one byte, by one bit
or by several, have different CRCs. -/
def Obligations.FrameCrcDetectsOneChangedByte : Prop :=
  ∀ (p : Params) (a a' payload payload' before after : List Byte) (x y : Byte),
    a.length = a'.length → payload.length = payload'.length →
    addrSeq p a ++ scramblePayload p a.length payload = before ++ x :: after →
    addrSeq p a' ++ scramblePayload p a'.length payload' = before ++ y :: after →
    x ≠ y → frameCrc p a a.length payload ≠ frameCrc p a' a'.length payload'

/-- R102: entry `i` of the matched address is `SCRAMBLE[L-1-i] ^ A[i]`, and entry `j` of its frame order is
`A[L-1-j] ^ SCRAMBLE[j]`, for L in 3..5. -/
def Obligations.MatchedAddressAndItsFrameOrder : Prop :=
  ∀ (p : Params) (len : Nat) (hl : 3 ≤ len ∧ len ≤ 5) (a : Vector Byte len),
    (matchAddr p a.toList).length = len ∧ (addrSeq p a.toList).length = len ∧
    ∀ i (hi : i < len),
      (matchAddr p a.toList)[i]? = some (p.scramble[len - 1 - i] ^^^ a[i]) ∧
      (addrSeq p a.toList)[i]? = some (a[len - 1 - i] ^^^ p.scramble[i]) ∧
      (addrSeq p a.toList)[i]? = (matchAddr p a.toList)[len - 1 - i]?

/-- Entry `i` of the transformed payload is `rev8(P[i]) ^ SCRAMBLE[L+i]`, entry `i` of the inverse transform is
`rev8(R[i] ^ SCRAMBLE[L+i])` (R103), and, the spec's own inference "`DESCR(SCR(P, L), L) = P` for every P and L", the
inverse undoes the transform. -/
def Obligations.PayloadTransformHasItsInverse : Prop :=
  ∀ (p : Params) (len : Nat) (bs : List Byte),
    (∀ i (hb : i < bs.length) (hs : len + i < 35),
      (scramblePayload p len bs)[i]? = some (rev8 bs[i] ^^^ p.scramble[len + i]) ∧
      (descramblePayload p len bs)[i]? = some (rev8 (bs[i] ^^^ p.scramble[len + i]))) ∧
    (scramblePayload p len bs).length = bs.length ∧ (descramblePayload p len bs).length = bs.length ∧
    descramblePayload p len (scramblePayload p len bs) = bs

/-- The hardware preamble for each address length (40_framing.md, section 1). -/
def Obligations.HardwarePreambleForEachLength : Prop :=
  ∀ p : Params,
    hwPreamble p 5 = [p.preamble4[0], p.preamble4[1], p.preamble4[2], p.preamble4[3], p.prePad] ∧
    hwPreamble p 4 = [p.preamble4[0], p.preamble4[1], p.preamble4[2], p.preamble4[3], p.prePad] ∧
    hwPreamble p 3 = [p.preamble4[1], p.preamble4[2], p.preamble4[3], p.prePad, p.prePad]

/-- A frame is the dropped preamble byte when L = 3, the address part, the body and, with the CRC on, the CRC high
byte first; the CRC covers address part and body and not the dropped byte, xored with entry `(L-3)+n` of the table
(R105, R106); and, the spec's own inference ("at least 4 ... and at most 26"), a frame has 4 to 26 bytes. -/
def Obligations.FrameLayoutAndLength : Prop :=
  ∀ (p : Params) (a payload : List Byte) (ce : Bool),
    3 ≤ a.length → a.length ≤ 5 → payload.length ≤ 19 → 22 ≤ p.xorTable.length →
    ∃ (c x : Word), p.xorTable[(a.length - 3) + payload.length]? = some x ∧
      frameCrc p a a.length payload = c ∧
      c = crc16 (addrSeq p a ++ scramblePayload p a.length payload) ^^^ x ∧
      frame p a a.length payload ce =
        (if a.length = 3 then [p.preamble4[0]] else []) ++ addrSeq p a ++ scramblePayload p a.length payload ++
          (if ce = true then [c.extractLsb' 8 8, c.extractLsb' 0 8] else []) ∧
      (frame p a a.length payload ce).length =
        (if a.length < 4 then 1 else 0) + a.length + payload.length + (if ce = true then 2 else 0) ∧
      4 ≤ (frame p a a.length payload ce).length ∧ (frame p a a.length payload ce).length ≤ 26

/-- The four entries of the hop plan (R130), with the spec's own inferences: their ranges, and "the four entries of
one plan are always distinct"; the rule's example. -/
def Obligations.HopPlanEntriesAndRanges : Prop :=
  (∀ id0 id1 : Byte,
    let h := hopPlan id0 id1
    h[0] = (id0 &&& (0x0F : Byte)) + (0x03 : Byte) ∧ h[1] = (id0 >>> 4) + (0x16 : Byte) ∧
    h[2] = (id1 &&& (0x0F : Byte)) + (0x2D : Byte) ∧ h[3] = (id1 >>> 4) + (0x40 : Byte) ∧
    (0x03 : Byte) ≤ h[0] ∧ h[0] ≤ (0x12 : Byte) ∧ (0x16 : Byte) ≤ h[1] ∧ h[1] ≤ (0x25 : Byte) ∧
    (0x2D : Byte) ≤ h[2] ∧ h[2] ≤ (0x3C : Byte) ∧ (0x40 : Byte) ≤ h[3] ∧ h[3] ≤ (0x4F : Byte) ∧
    h[0].toNat = id0.toNat % 16 + 3 ∧ h[1].toNat = id0.toNat / 16 + 22 ∧
    h[2].toNat = id1.toNat % 16 + 45 ∧ h[3].toNat = id1.toNat / 16 + 64 ∧
    h.toList.Nodup) ∧
  hopPlan 0x3C 0x07 = #v[0x0F, 0x19, 0x34, 0x40]

/-! ### The commands -/

/-- R160. NOP. -/
def Obligations.NopOnlyResponds : Prop :=
  ∀ (s : State) (ops : List Byte), s.fault = false →
    decode ⟨0x00, ops⟩ = .ok (.nop ops) ∧
    exec (.nop []) s = .next (s.respond []) ∧
    (ops ≠ [] → exec (.nop ops) s = .next (Safety.afterFault s 2 0x00))

/-- R107. CONFIGURE: `CRC_EN` from the mask, the config byte forwarded with the clear mask off in emulation and
unchanged in passthrough. -/
def Obligations.ConfigureCapturesCrcEnable : Prop :=
  ∀ (s : State) (cfg : Byte) (ops : List Byte), s.fault = false →
    decode ⟨0x10, ops⟩ = .ok (.configure ops) ∧
    exec (.configure [cfg]) s = .next (({ s with
      crcEn := decide (cfg &&& s.params.cfgCrcMask ≠ 0)
      stream := s.stream ++
        [.wrConfig (if s.params.emulate then cfg &&& ~~~s.params.cfgClearMask else cfg)] } : State).respond []) ∧
    (ops.length ≠ 1 → exec (.configure ops) s = .next (Safety.afterFault s 2 0x10))

/-- R108, with R104. SET_TX_ADDR: the address stored raw with its length and valid bit, `ADDR_LEN` written, the width
event and then the address event emitted, with the 5-byte hardware preamble in emulation and the raw address in
passthrough; the bytes beyond L are kept. -/
def Obligations.SetTxAddrStoresTheAddress : Prop :=
  ∀ (s : State) (len : BitVec 3) (ops : List Byte) (a0 a1 a2 a3 a4 : Byte), s.fault = false →
    decode ⟨0x20 ||| len.setWidth 8, ops⟩ = .ok (.setTxAddr len ops) ∧
    exec (.setTxAddr 3 [a0, a1, a2]) s = .next (({ s with
      txAddr := #v[a0, a1, a2, s.txAddr[3], s.txAddr[4]], txaLen := 3, txaValid := true, addrLen := 3
      stream := s.stream ++ [.wrAw 3, .wrTxAddr (
        if s.params.emulate then
          [s.params.preamble4[1], s.params.preamble4[2], s.params.preamble4[3], s.params.prePad, s.params.prePad]
        else [a0, a1, a2])] } : State).respond []) ∧
    exec (.setTxAddr 4 [a0, a1, a2, a3]) s = .next (({ s with
      txAddr := #v[a0, a1, a2, a3, s.txAddr[4]], txaLen := 4, txaValid := true, addrLen := 4
      stream := s.stream ++ [.wrAw 4, .wrTxAddr (
        if s.params.emulate then s.params.preamble4.toList ++ [s.params.prePad]
        else [a0, a1, a2, a3])] } : State).respond []) ∧
    exec (.setTxAddr 5 [a0, a1, a2, a3, a4]) s = .next (({ s with
      txAddr := #v[a0, a1, a2, a3, a4], txaLen := 5, txaValid := true, addrLen := 5
      stream := s.stream ++ [.wrAw 5, .wrTxAddr (
        if s.params.emulate then s.params.preamble4.toList ++ [s.params.prePad]
        else [a0, a1, a2, a3, a4])] } : State).respond []) ∧
    (len < 3 ∨ 5 < len → exec (.setTxAddr len ops) s = .next (Safety.afterFault s 3 (0x20 ||| len.setWidth 8))) ∧
    (3 ≤ len → len ≤ 5 → ops.length ≠ len.toNat →
      exec (.setTxAddr len ops) s = .next (Safety.afterFault s 2 (0x20 ||| len.setWidth 8)))

/-- R109. SET_RX_ADDR: as SET_TX_ADDR for the receive address, with the matched address in emulation. -/
def Obligations.SetRxAddrStoresTheAddress : Prop :=
  ∀ (s : State) (len : BitVec 3) (ops : List Byte) (a0 a1 a2 a3 a4 : Byte), s.fault = false →
    let sc := s.params.scramble
    decode ⟨0x30 ||| len.setWidth 8, ops⟩ = .ok (.setRxAddr len ops) ∧
    exec (.setRxAddr 3 [a0, a1, a2]) s = .next (({ s with
      rxAddr := #v[a0, a1, a2, s.rxAddr[3], s.rxAddr[4]], rxaLen := 3, rxaValid := true, addrLen := 3
      stream := s.stream ++ [.wrAw 3, .wrRxAddr (
        if s.params.emulate then [sc[2] ^^^ a0, sc[1] ^^^ a1, sc[0] ^^^ a2] else [a0, a1, a2])] } : State).respond []) ∧
    exec (.setRxAddr 4 [a0, a1, a2, a3]) s = .next (({ s with
      rxAddr := #v[a0, a1, a2, a3, s.rxAddr[4]], rxaLen := 4, rxaValid := true, addrLen := 4
      stream := s.stream ++ [.wrAw 4, .wrRxAddr (
        if s.params.emulate then [sc[3] ^^^ a0, sc[2] ^^^ a1, sc[1] ^^^ a2, sc[0] ^^^ a3]
        else [a0, a1, a2, a3])] } : State).respond []) ∧
    exec (.setRxAddr 5 [a0, a1, a2, a3, a4]) s = .next (({ s with
      rxAddr := #v[a0, a1, a2, a3, a4], rxaLen := 5, rxaValid := true, addrLen := 5
      stream := s.stream ++ [.wrAw 5, .wrRxAddr (
        if s.params.emulate then [sc[4] ^^^ a0, sc[3] ^^^ a1, sc[2] ^^^ a2, sc[1] ^^^ a3, sc[0] ^^^ a4]
        else [a0, a1, a2, a3, a4])] } : State).respond []) ∧
    (len < 3 ∨ 5 < len → exec (.setRxAddr len ops) s = .next (Safety.afterFault s 3 (0x30 ||| len.setWidth 8))) ∧
    (3 ≤ len → len ≤ 5 → ops.length ≠ len.toNat →
      exec (.setRxAddr len ops) s = .next (Safety.afterFault s 2 (0x30 ||| len.setWidth 8)))

/-- R110. ENCODE: in passthrough the payload goes out as it is; in emulation the frame of the TX address, once every
check has passed, each failing check with its own cause and in R171's order. The emulation clauses that frame a payload
assume a legal address length, as every sound state with a valid address has. -/
def Obligations.EncodeFramesThePayload : Prop :=
  ∀ (s : State) (ops : List Byte), s.fault = false →
    let len := s.addrLen.toNat
    let a := s.txAddr.toList.take len
    let ready := s.params.emulate = true ∧ s.txaValid = true ∧ s.txaLen = s.addrLen ∧ 3 ≤ s.addrLen ∧ s.addrLen ≤ 5
    decode ⟨0x40, ops⟩ = .ok (.encode ops) ∧
    (19 < ops.length → exec (.encode ops) s = .next (Safety.afterFault s 4 0x40)) ∧
    (ops.length ≤ 19 → s.params.emulate = false → exec (.encode ops) s =
      .next (({ s with stream := s.stream ++ [.wrPayload ops] } : State).respond [BitVec.ofNat 8 ops.length])) ∧
    (ops.length ≤ 19 → s.params.emulate = true → s.txaValid = false →
      exec (.encode ops) s = .next (Safety.afterFault s 5 0x40)) ∧
    (ops.length ≤ 19 → s.params.emulate = true → s.txaValid = true → s.txaLen ≠ s.addrLen →
      exec (.encode ops) s = .next (Safety.afterFault s 7 0x40)) ∧
    (ops.length ≤ 19 → ready → s.crcEn = true → s.params.xorTable.length ≤ (len - 3) + ops.length →
      exec (.encode ops) s = .next (Safety.afterFault s 8 0x40)) ∧
    (ops.length ≤ 19 → ready → s.crcEn = false →
      exec (.encode ops) s = .next (
        ({ s with stream := s.stream ++ [.wrPayload (
          (if len = 3 then [s.params.preamble4[0]] else []) ++ addrSeq s.params a ++
            scramblePayload s.params len ops)] } : State).respond
          [BitVec.ofNat 8 ((if len = 3 then 1 else 0) + len + ops.length)])) ∧
    (∀ x, ops.length ≤ 19 → ready → s.crcEn = true → s.params.xorTable[(len - 3) + ops.length]? = some x →
      let c := crc16 (addrSeq s.params a ++ scramblePayload s.params len ops) ^^^ x
      exec (.encode ops) s = .next (
        ({ s with stream := s.stream ++ [.wrPayload (
          (if len = 3 then [s.params.preamble4[0]] else []) ++ addrSeq s.params a ++
            scramblePayload s.params len ops ++ [c.extractLsb' 8 8, c.extractLsb' 0 8])] } : State).respond
          [BitVec.ofNat 8 ((if len = 3 then 1 else 0) + len + ops.length + 2)]))

/-- R111. DECODE: in passthrough the operands come back; in emulation the descrambled payload, with the CRC of the
receive side written to `RXCRC` while `CRC_EN = 1` and compared with nothing. -/
def Obligations.DecodeRecoversThePayload : Prop :=
  ∀ (s : State) (ops : List Byte), s.fault = false →
    let len := s.addrLen.toNat
    let a := s.rxAddr.toList.take len
    let ready := s.params.emulate = true ∧ s.rxaValid = true ∧ s.rxaLen = s.addrLen ∧ 3 ≤ s.addrLen ∧ s.addrLen ≤ 5
    decode ⟨0x50, ops⟩ = .ok (.decode ops) ∧
    (19 < ops.length → exec (.decode ops) s = .next (Safety.afterFault s 4 0x50)) ∧
    (ops.length ≤ 19 → s.params.emulate = false → exec (.decode ops) s = .next (s.respond ops)) ∧
    (ops.length ≤ 19 → s.params.emulate = true → s.rxaValid = false →
      exec (.decode ops) s = .next (Safety.afterFault s 6 0x50)) ∧
    (ops.length ≤ 19 → s.params.emulate = true → s.rxaValid = true → s.rxaLen ≠ s.addrLen →
      exec (.decode ops) s = .next (Safety.afterFault s 7 0x50)) ∧
    (ops.length ≤ 19 → ready → s.crcEn = true → s.params.xorTable.length ≤ (len - 3) + ops.length →
      exec (.decode ops) s = .next (Safety.afterFault s 8 0x50)) ∧
    (ops.length ≤ 19 → ready → s.crcEn = false →
      exec (.decode ops) s = .next (s.respond (descramblePayload s.params len ops))) ∧
    (∀ x, ops.length ≤ 19 → ready → s.crcEn = true → s.params.xorTable[(len - 3) + ops.length]? = some x →
      exec (.decode ops) s = .next (
        ({ s with rxcrc := crc16 (addrSeq s.params a ++ ops) ^^^ x } : State).respond
          (descramblePayload s.params len ops)))

/-- R140. SET_TXID. -/
def Obligations.SetTxidLoadsTheIdentity : Prop :=
  ∀ (s : State) (b0 b1 b2 b3 : Byte) (ops : List Byte), s.fault = false →
    decode ⟨0x60, ops⟩ = .ok (.setTxid ops) ∧
    exec (.setTxid [b0, b1, b2, b3]) s =
      .next (({ s with txid := #v[b0, b1, b2, b3], txidValid := true } : State).respond []) ∧
    (ops.length ≠ 4 → exec (.setTxid ops) s = .next (Safety.afterFault s 2 0x60))

/-- R141. SET_AID. -/
def Obligations.SetAidLoadsTheIdentity : Prop :=
  ∀ (s : State) (b0 b1 b2 b3 : Byte) (ops : List Byte), s.fault = false →
    decode ⟨0x61, ops⟩ = .ok (.setAid ops) ∧
    exec (.setAid [b0, b1, b2, b3]) s = .next (({ s with aid := #v[b0, b1, b2, b3] } : State).respond []) ∧
    (ops.length ≠ 4 → exec (.setAid ops) s = .next (Safety.afterFault s 2 0x61))

/-- R131. HOP_GET: entry `k` of the plan of the first two identity bytes. -/
def Obligations.HopGetReadsThePlan : Prop :=
  ∀ (s : State) (k : BitVec 2) (ops : List Byte), s.fault = false →
    decode ⟨0x70 ||| k.setWidth 8, ops⟩ = .ok (.hopGet k ops) ∧
    (s.txidValid = true → exec (.hopGet k []) s = .next (s.respond [
      if k = 0 then (s.txid[0] &&& (0x0F : Byte)) + (0x03 : Byte)
      else if k = 1 then (s.txid[0] >>> 4) + (0x16 : Byte)
      else if k = 2 then (s.txid[1] &&& (0x0F : Byte)) + (0x2D : Byte)
      else (s.txid[1] >>> 4) + (0x40 : Byte)])) ∧
    (ops ≠ [] → exec (.hopGet k ops) s = .next (Safety.afterFault s 2 (0x70 ||| k.setWidth 8))) ∧
    (s.txidValid = false → exec (.hopGet k []) s = .next (Safety.afterFault s 9 (0x70 ||| k.setWidth 8)))

/-- R142. CH_WRITE: the value, low byte first, into channel `c` and no other. -/
def Obligations.ChWriteStoresOneChannel : Prop :=
  ∀ (s : State) (c : Channel) (lo hi : Byte) (ops : List Byte), s.fault = false →
    decode ⟨0x80 ||| BitVec.ofNat 8 c.val, ops⟩ = .ok (.chWrite c ops) ∧
    (∃ ch : Vector Word 6, exec (.chWrite c [lo, hi]) s = .next (({ s with ch := ch } : State).respond []) ∧
      ch[c] = hi ++ lo ∧ ∀ d : Channel, d ≠ c → ch[d] = s.ch[d]) ∧
    (ops.length ≠ 2 →
      exec (.chWrite c ops) s = .next (Safety.afterFault s 2 (0x80 ||| BitVec.ofNat 8 c.val)))

/-- R144. The 19 bytes of a packet. -/
def Obligations.PacketLayout : Prop :=
  ∀ (p : Params) (ty : PacketType) (txid aid : Vector Byte 4) (ch : Vector Word 6),
    let flag : Word := if ch[p.flipSrc] > p.flipThreshold then (1 : Word) <<< p.flipBit.val else 0
    let f : Fin 4 → Word → Word := fun k v => if k = p.flipField then (v + 1000) ||| flag else v + 1000
    let f0 := f 0 ch[1]
    let f1 := f 1 ch[2]
    let f2 := f 2 ch[0]
    let f3 := f 3 ch[3]
    let m := ch[p.modeSrc]
    marshal p ty txid aid ch =
      [if ty = .bind then (0xAA : Byte) else 0x55, txid[0], txid[1], txid[2], txid[3], aid[0], aid[1], aid[2], aid[3],
       f0.extractLsb' 0 8, f0.extractLsb' 8 8, f1.extractLsb' 0 8, f1.extractLsb' 8 8,
       f2.extractLsb' 0 8, f2.extractLsb' 8 8, f3.extractLsb' 0 8, f3.extractLsb' 8 8,
       if m ≤ p.modeBpLo then p.modeVal[0] else if m ≤ p.modeBpHi then p.modeVal[1] else p.modeVal[2],
       0x00]

/-- R145. PACK: the packet of the registers, the six channels read at once. -/
def Obligations.PackRespondsThePacket : Prop :=
  ∀ (s : State) (ty : PacketType) (ops : List Byte), s.fault = false →
    let opc : Byte := if ty = .bind then 0x91 else 0x90
    decode ⟨opc, ops⟩ = .ok (.pack ty ops) ∧
    (s.txidValid = true → exec (.pack ty []) s = .next (s.respond (marshal s.params ty s.txid s.aid s.ch))) ∧
    (ops ≠ [] → exec (.pack ty ops) s = .next (Safety.afterFault s 2 opc)) ∧
    (s.txidValid = false → exec (.pack ty []) s = .next (Safety.afterFault s 9 opc))

/-- R146. UNPACK: the 20 bytes of its response to a 19-byte packet. -/
def Obligations.UnpackTakesThePacketApart : Prop :=
  ∀ (s : State) (pk : Vector Byte 19) (ops : List Byte), s.fault = false →
    let bit : Word := (1 : Word) <<< s.params.flipBit.val
    let w : Fin 4 → Word := fun k =>
      if k = 0 then pk[10] ++ pk[9] else if k = 1 then pk[12] ++ pk[11] else if k = 2 then pk[14] ++ pk[13]
      else pk[16] ++ pk[15]
    let v : Fin 4 → Word := fun k => (if k = s.params.flipField then w k &&& ~~~bit else w k) - 1000
    decode ⟨0xA0, ops⟩ = .ok (.unpack ops) ∧
    exec (.unpack pk.toList) s = .next (s.respond
      [pk[0], pk[1], pk[2], pk[3], pk[4], pk[5], pk[6], pk[7], pk[8],
       (v 0).extractLsb' 0 8, (v 0).extractLsb' 8 8, (v 1).extractLsb' 0 8, (v 1).extractLsb' 8 8,
       (v 2).extractLsb' 0 8, (v 2).extractLsb' 8 8, (v 3).extractLsb' 0 8, (v 3).extractLsb' 8 8,
       if (w s.params.flipField).getLsbD s.params.flipBit.val then 1 else 0, pk[17], pk[18]]) ∧
    (ops.length ≠ 19 → exec (.unpack ops) s = .next (Safety.afterFault s 2 0xA0))

/-- R147. PARSE_REPLY, in a block with legal offsets: 1 exactly for an acknowledgment byte of 1, and the four identity
bytes either way. -/
def Obligations.ParseReplyReportsTheReply : Prop :=
  ∀ (s : State) (ops : List Byte), s.fault = false → s.params.ackOff < s.params.replyLen →
    s.params.aidOff + 4 ≤ s.params.replyLen →
    decode ⟨0xA1, ops⟩ = .ok (.parseReply ops) ∧
    (∀ a b0 b1 b2 b3, ops.length = s.params.replyLen → ops[s.params.ackOff]? = some a →
      ops[s.params.aidOff]? = some b0 → ops[s.params.aidOff + 1]? = some b1 → ops[s.params.aidOff + 2]? = some b2 →
      ops[s.params.aidOff + 3]? = some b3 →
      exec (.parseReply ops) s = .next (s.respond [if a = 1 then 1 else 0, b0, b1, b2, b3])) ∧
    (ops.length ≠ s.params.replyLen → exec (.parseReply ops) s = .next (Safety.afterFault s 2 0xA1))

/-- R161. STATUS: the four bytes `STAT`, `ERR`, `CAPS` and `FOPC`, bit by bit; with operands it faults only while the
latch is clear. -/
def Obligations.StatusReadsTheViews : Prop :=
  ∀ (s : State) (ops : List Byte),
    decode ⟨0xF0, ops⟩ = .ok (.status ops) ∧
    (ops = [] ∨ s.fault = true → ∃ stat err : Byte,
      exec (.status ops) s = .next (s.respond [stat, err, if s.params.emulate then 0x01 else 0x00, s.fopc]) ∧
      stat.extractLsb' 0 3 = s.addrLen ∧ stat.getLsbD 3 = s.crcEn ∧ stat.getLsbD 4 = s.txaValid ∧
      stat.getLsbD 5 = s.rxaValid ∧ stat.getLsbD 6 = s.txidValid ∧ stat.getLsbD 7 = s.fault ∧
      err.extractLsb' 0 4 = s.cause ∧ err.extractLsb' 4 4 = 0) ∧
    (ops ≠ [] → s.fault = false → exec (.status ops) s = .next (Safety.afterFault s 2 0xF0))

/-- R162. RD_RXCRC: high byte first. -/
def Obligations.RdRxcrcReadsTheReceivedCrc : Prop :=
  ∀ (s : State) (ops : List Byte), s.fault = false →
    decode ⟨0xF1, ops⟩ = .ok (.rdRxcrc ops) ∧
    exec (.rdRxcrc []) s = .next (s.respond [s.rxcrc.extractLsb' 8 8, s.rxcrc.extractLsb' 0 8]) ∧
    (ops ≠ [] → exec (.rdRxcrc ops) s = .next (Safety.afterFault s 2 0xF1))

/-! ### Properties of the whole block -/

/-- Passthrough (40_framing.md, section 4, which the spec marks as derived: "DECODE's response to the payload ENCODE
emitted is the payload"): the addresses, the config byte and the payload go out as they are, and DECODE of what ENCODE
emitted responds the payload. -/
def Obligations.PassthroughForwardsUnchanged : Prop :=
  ∀ s : State, s.fault = false → s.params.emulate = false →
    (∀ (len : BitVec 3) (a : List Byte), 3 ≤ len → len ≤ 5 → a.length = len.toNat →
      (∃ t, exec (.setTxAddr len a) s = .next t ∧ t.stream = s.stream ++ [.wrAw len, .wrTxAddr a]) ∧
      (∃ t, exec (.setRxAddr len a) s = .next t ∧ t.stream = s.stream ++ [.wrAw len, .wrRxAddr a])) ∧
    (∀ cfg, ∃ t, exec (.configure [cfg]) s = .next t ∧ t.stream = s.stream ++ [.wrConfig cfg]) ∧
    (∀ payload, payload.length ≤ 19 → ∃ t, exec (.encode payload) s = .next t ∧
      t.stream = s.stream ++ [.wrPayload payload] ∧ exec (.decode payload) t = .next (t.respond payload))

/-- The emulation round trip of 40_framing.md, section 4, which the spec marks as derived ("In emulation
with the same L set for both addresses, DECODE applied to the body of a frame ENCODE emitted ... responds the original
payload, for every L in 3..5 and n in 0..19"); and where the two addresses are equal and the CRC is on, the `RXCRC` it
writes is the frame's last two bytes, high byte first. -/
def Obligations.EmulationRoundTrip : Prop :=
  ∀ (s : State) (payload : List Byte), s.fault = false → s.params.emulate = true → s.txaValid = true →
    s.rxaValid = true → s.txaLen = s.addrLen → s.rxaLen = s.addrLen → 3 ≤ s.addrLen → s.addrLen ≤ 5 →
    payload.length ≤ 19 → 22 ≤ s.params.xorTable.length →
    ∃ t f u, exec (.encode payload) s = .next t ∧ t.stream = s.stream ++ [.wrPayload f] ∧
      let o := (if s.addrLen.toNat < 4 then 1 else 0) + s.addrLen.toNat
      exec (.decode ((f.drop o).take payload.length)) t = .next u ∧
      u = ({ t with rxcrc := u.rxcrc } : State).respond payload ∧
      (s.crcEn = true → s.rxAddr.toList.take s.addrLen.toNat = s.txAddr.toList.take s.addrLen.toNat →
        f.drop (o + payload.length) = [u.rxcrc.extractLsb' 8 8, u.rxcrc.extractLsb' 0 8])

/-- "UNPACK inverts PACK exactly when the biased flip field had `FLIP_BIT` clear before the flag was
applied" (42_packet_codec.md, section 2, which the spec marks as derived): the type and the identities come back
always, the four centered values exactly then, and then the flip flag too. -/
def Obligations.UnpackInvertsPackExactlyWhenTheBitWasClear : Prop :=
  ∀ (p : Params) (ty : PacketType) (txid aid : Vector Byte 4) (ch : Vector Word 6),
    let channels : List Byte :=
      [ch[1].extractLsb' 0 8, ch[1].extractLsb' 8 8, ch[2].extractLsb' 0 8, ch[2].extractLsb' 8 8,
       ch[0].extractLsb' 0 8, ch[0].extractLsb' 8 8, ch[3].extractLsb' 0 8, ch[3].extractLsb' 8 8]
    let source : Word :=
      if p.flipField = 0 then ch[1] else if p.flipField = 1 then ch[2] else if p.flipField = 2 then ch[0] else ch[3]
    let r := unmarshal p (marshal p ty txid aid ch)
    r.length = 20 ∧ r.take 9 = (if ty = .bind then (0xAA : Byte) else 0x55) :: (txid.toList ++ aid.toList) ∧
    ((r.drop 9).take 8 = channels ↔ (source + 1000).getLsbD p.flipBit.val = false) ∧
    ((source + 1000).getLsbD p.flipBit.val = false →
      r[17]? = some (if ch[p.flipSrc] > p.flipThreshold then 1 else 0)) ∧
    r[18]? = (marshal p ty txid aid ch)[17]? ∧ r[19]? = some 0x00

/-- Raising the flip source above its threshold "changes exactly one bit of the packet, bit `FLIP_BIT - 8` of byte `10
+ 2*FLIP_FIELD`, or nothing if that bit was already set" (42_packet_codec.md, section 3, which the spec marks as
derived). -/
def Obligations.FlipFlagSetsOneBitOfThePacket : Prop :=
  ∀ (p : Params) (ty : PacketType) (txid aid : Vector Byte 4) (ch : Vector Word 6) (low high : Word), p.Legal →
    low ≤ p.flipThreshold → p.flipThreshold < high →
    let before := marshal p ty txid aid (ch.set p.flipSrc.val low p.flipSrc.isLt)
    let after := marshal p ty txid aid (ch.set p.flipSrc.val high p.flipSrc.isLt)
    before.length = 19 ∧ after.length = 19 ∧
    (∀ i, i < 19 → i ≠ 10 + 2 * p.flipField.val → after[i]? = before[i]?) ∧
    after[10 + 2 * p.flipField.val]? =
      before[10 + 2 * p.flipField.val]?.map fun b => b ||| ((1 : Byte) <<< (p.flipBit.val - 8))

/-- "A packet is exactly `PACKET_LEN` = 19 bytes ... so ENCODE always accepts the output of PACK" (42_packet_codec.md,
section 3, which the spec marks as derived): ENCODE never faults with PAYLOAD_LEN_RANGE on it. -/
def Obligations.PackedPacketFitsAFrame : Prop :=
  ∀ (s t : State) (p : Params) (ty : PacketType) (txid aid : Vector Byte 4) (ch : Vector Word 6),
    (marshal p ty txid aid ch).length = 19 ∧
    (s.fault = false → exec (.encode (marshal p ty txid aid ch)) s = .next t → t.fault = true → t.cause ≠ 4)

/-- "with `XLEN >= 22` every index `(L-3)+n` with L in 3..5 and n in 0..19 is below `XLEN`" (60_exceptions.md, section
1, which the spec marks as derived): in a sound state no command raises TABLE_INDEX. -/
def Obligations.FullTableNeverFaults : Prop :=
  ∀ (i : Instr) (s t : State), Safety.Sound s → s.fault = false → exec i s = .next t → t.cause ≠ 8

/-- "After `SET_TX_ADDR L1` and `SET_RX_ADDR L2` with L1 != L2, `ADDR_LEN = L2`; ENCODE then faults with
ADDR_LEN_MISMATCH, and so would DECODE after a later `SET_TX_ADDR L1`" (70_reset_and_hazards.md, section 3, which the
spec marks as derived). -/
def Obligations.DifferentAddressLengthsMismatch : Prop :=
  ∀ (s : State) (l1 l2 : BitVec 3) (a1 a2 payload : List Byte), s.fault = false → s.params.emulate = true →
    3 ≤ l1 → l1 ≤ 5 → 3 ≤ l2 → l2 ≤ 5 → l1 ≠ l2 → a1.length = l1.toNat → a2.length = l2.toNat → payload.length ≤ 19 →
    ∃ s1 s2 s3, exec (.setTxAddr l1 a1) s = .next s1 ∧ exec (.setRxAddr l2 a2) s1 = .next s2 ∧
      s2.fault = false ∧ s2.addrLen = l2 ∧ exec (.encode payload) s2 = .next (Safety.afterFault s2 7 0x40) ∧
      exec (.setTxAddr l1 a1) s2 = .next s3 ∧ s3.fault = false ∧ s3.addrLen = l1 ∧
      exec (.decode payload) s3 = .next (Safety.afterFault s3 7 0x50)

/-- HEADLINE. The receive CRC is unverified (10_state.md, section 2: "compared with nothing"; 70_reset_and_hazards.md,
section 3): no command but RD_RXCRC depends on `RXCRC`. With any other value in it, every other command leaves the
same state but for `RXCRC` itself, with the same response and events. -/
def Obligations.ReceivedCrcInfluencesNothing : Prop :=
  ∀ (i : Instr) (s t : State) (w : Word), (∀ ops, i ≠ .rdRxcrc ops) → exec i s = .next t →
    ∃ w', exec i { s with rxcrc := w } = .next { t with rxcrc := w' }

/-- HEADLINE. "Unwritten state is never read as a value" (10_state.md, section 5). Two states that differ only in
address bytes beyond a set address's length, in the bytes of an address not set, or in the identity while it is not
set, step to states that differ in no more: the same responses, events and registers. So no statement rests on the
reset bytes of log entry 3. -/
def Obligations.UnwrittenBytesAreNeverObserved : Prop :=
  ∀ s s' t : State, Safety.SameButUnread s s' → step s = .next t →
    ∃ t', step s' = .next t' ∧ Safety.SameButUnread t t'

/-! ### The assembler -/

/-- The messages that a line of the assembler stands for, row by row of the tables of R79 and R80, with numbers in
decimal or `0x` hexadecimal and channels by number or by name; the two refusals R79 states; and that `;` starts a
comment. Two clauses are the model's choice (log entry 7): PACK's operand may be written as the number 0 or 1 in place of
`data` or `bind`, and an ENCODE or DECODE line of more than 19 bytes is assembled. The further refusals of log entry 7
are not stated. -/
def Obligations.AssemblerLinesStandForTheirMessages : Prop :=
  ∀ (replyLen : Nat) (ts : List (List Char)) (bs : List Byte) (t u : List Char), Safety.BytesText ts bs →
    let asm : String → List (List Char) → Option (List Message) :=
      fun mnemonic operands => assembleLine replyLen (Safety.lineText mnemonic operands)
    asm "NOP" [] = some [⟨0x00, []⟩] ∧ asm "STATUS" [] = some [⟨0xF0, []⟩] ∧ asm "RD_RXCRC" [] = some [⟨0xF1, []⟩] ∧
    (bs.length = 1 → asm "CONFIGURE" ts = some [⟨0x10, bs⟩]) ∧
    (∀ len : BitVec 3, 3 ≤ len → len ≤ 5 → bs.length = len.toNat → Safety.NumberText t len.toNat →
      asm "SET_TX_ADDR" (t :: ts) = some [⟨0x20 + len.setWidth 8, bs⟩] ∧
      asm "SET_RX_ADDR" (t :: ts) = some [⟨0x30 + len.setWidth 8, bs⟩] ∧
      asm "SET_ADDR" (t :: ts) = some [⟨0x20 + len.setWidth 8, bs⟩, ⟨0x30 + len.setWidth 8, bs⟩]) ∧
    (∀ n : Nat, n ≠ bs.length → Safety.NumberText t n →
      asm "SET_TX_ADDR" (t :: ts) = none ∧ asm "SET_RX_ADDR" (t :: ts) = none) ∧
    asm "ENCODE" ts = some [⟨0x40, bs⟩] ∧ asm "DECODE" ts = some [⟨0x50, bs⟩] ∧
    (bs.length = 4 → asm "SET_TXID" ts = some [⟨0x60, bs⟩] ∧ asm "SET_AID" ts = some [⟨0x61, bs⟩]) ∧
    (∀ k : BitVec 2, Safety.NumberText t k.toNat → asm "HOP_GET" [t] = some [⟨0x70 + k.setWidth 8, []⟩]) ∧
    asm "HOP_ALL" [] = some [⟨0x70, []⟩, ⟨0x71, []⟩, ⟨0x72, []⟩, ⟨0x73, []⟩] ∧
    (∀ (c : Channel) (v : Word), Safety.NumberText t c.val ∨ t = Safety.channelName c → Safety.NumberText u v.toNat →
      asm "CH_WRITE" [t, u] = some [⟨0x80 + BitVec.ofNat 8 c.val, [v.extractLsb' 0 8, v.extractLsb' 8 8]⟩]) ∧
    (∀ c v : Nat, 5 < c → Safety.NumberText t c → Safety.NumberText u v → asm "CH_WRITE" [t, u] = none) ∧
    (Safety.NumberText t 0 ∨ t = "data".toList → asm "PACK" [t] = some [⟨0x90, []⟩]) ∧
    (Safety.NumberText t 1 ∨ t = "bind".toList → asm "PACK" [t] = some [⟨0x91, []⟩]) ∧
    asm "PACK_DATA" [] = some [⟨0x90, []⟩] ∧ asm "PACK_BIND" [] = some [⟨0x91, []⟩] ∧
    (bs.length = 19 → asm "UNPACK" ts = some [⟨0xA0, bs⟩]) ∧
    (bs.length = replyLen → asm "PARSE_REPLY" ts = some [⟨0xA1, bs⟩]) ∧
    (∀ line comment : List Char, ';' ∉ line → assembleLine replyLen (line ++ ';' :: comment) = assembleLine replyLen line)

/-! ### The exclusion window -/

/-- "A CH_WRITE waits for at most the one command the block is performing when it arrives" (20_memory.md, section 4, which
the spec marks as derived): a CH_WRITE that is first in line at either port, with any operands and whatever waits at the
other port, is taken in the next step or in the one after. That it arrives when it comes first in line is the model's
reading (log entry 2). -/
def Obligations.ChWriteWaitsForAtMostOneCommand : Prop :=
  ∀ (s : State) (p : Port) (m : Message) (rest : List Message) (c : Channel) (ops : List Byte), s.resetHold = 0 →
    (s.portState p).waiting = m :: rest → decode m = .ok (.chWrite c ops) →
    ∃ k t, (k = 1 ∨ k = 2) ∧ Host.Core.run core k s = .next t ∧ t.port = p ∧
      (t.portState p).seq = (s.portState p).seq + 1 ∧ (t.portState p).waiting = rest
end

