-- ==== Sys2Proof/Laws/Assembler.lean ====
section
/-! SUPPORT. What the assembler reads in a line, said once: a number's text is read as the number, and a line of R79's
form is its mnemonic with its operands read one by one. -/
namespace Sys2Proof.Machine

/-! ### Numbers -/

theorem readDigits_append (base acc : Nat) (xs ys : List Char) :
    readDigits base acc (xs ++ ys) = (readDigits base acc xs).bind fun a => readDigits base a ys := by
  induction xs generalizing acc with
  | nil => rfl
  | cons c cs ih =>
    simp only [List.cons_append, readDigits]
    cases digitValue base c with
    | none => rfl
    | some d => exact ih _

theorem digitValue_digitChar {base d : Nat} (hb : base ≤ 16) (hd : d < base) :
    digitValue base (Nat.digitChar d) = some d ∧ digitValue base (Nat.digitChar d).toUpper = some d := by
  have h : d < 16 := by omega
  simp only [digitValue]
  interval_cases d <;> simp (decide := true) [Nat.digitChar, Char.toUpper] <;> omega

/-- A number's digits are read as the number, whatever the case of its letters. -/
theorem readDigits_toDigits {base : Nat} (f : Char → Char) (h1 : 1 < base)
    (hf : ∀ d < base, digitValue base (f (Nat.digitChar d)) = some d) (n : Nat) :
    readDigits base 0 ((Nat.toDigits base n).map f) = some n := by
  induction n using Nat.strongRecOn with
  | _ n ih =>
    by_cases hn : n < base
    · simp [Nat.toDigits_of_lt_base hn, readDigits, hf n hn]
    · have hq : n / base < n := Nat.div_lt_self (by omega) h1
      rw [Nat.toDigits_of_base_le h1 (by omega), List.map_append, readDigits_append, ih _ hq]
      simp [readDigits, hf _ (Nat.mod_lt n (by omega)), Nat.div_add_mod' n base]

theorem readDigits_leading_zeros (z : Nat) (cs : List Char) :
    readDigits 16 0 (List.replicate z '0' ++ cs) = readDigits 16 0 cs := by
  induction z with
  | zero => rfl
  | succ z ih => simpa [List.replicate_succ, readDigits, digitValue] using ih

theorem digitValue_zero {base : Nat} (hb : 0 < base) : digitValue base '0' = some 0 := by
  simp [digitValue, hb]

/-- A text whose first character is a decimal digit and whose second is no `x` is read as a decimal number. -/
theorem readOperand_decimal {c : Char} {cs : List Char} (hc : (digitValue 10 c).isSome) (hx : 'x' ∉ cs) :
    readOperand (c :: cs) = (readDigits 10 0 (c :: cs)).map .num := by
  unfold readOperand
  split
  · contradiction
  · simp_all
  · simp_all [Option.isSome_iff_ne_none]

theorem readOperand_hexadecimal {cs : List Char} (h : cs ≠ []) :
    readOperand ('0' :: 'x' :: cs) = (readDigits 16 0 cs).map .num := by
  cases cs with
  | nil => contradiction
  | cons c cs => rfl

/-- The text of a number is read as that number. -/
theorem readOperand_numberText {text : List Char} {n : Nat} (h : Safety.NumberText text n) :
    readOperand text = some (.num n) := by
  rcases h with rfl | ⟨z, rfl⟩ | ⟨z, rfl⟩
  · have hr := readDigits_toDigits (base := 10) id (by omega) (fun d hd => (digitValue_digitChar (by omega) hd).1) n
    rw [List.map_id] at hr
    have hx : 'x' ∉ Nat.toDigits 10 n := fun hm => absurd (Nat.isDigit_of_mem_toDigits (by omega) (by omega) hm) (by decide)
    cases hd : Nat.toDigits 10 n with
    | nil => exact absurd hd Nat.toDigits_ne_nil
    | cons c cs =>
      rw [hd] at hr hx
      rw [readOperand_decimal ?_ (fun hm => hx (List.mem_cons_of_mem _ hm)), hr]
      · rfl
      · simp only [readDigits] at hr
        cases hc : digitValue 10 c with
        | none => simp [hc] at hr
        | some d => rfl
  · have hr := readDigits_toDigits (base := 16) id (by omega) (fun d hd => (digitValue_digitChar (by omega) hd).1) n
    rw [List.map_id] at hr
    rw [readOperand_hexadecimal (by simp), readDigits_leading_zeros, hr]
    rfl
  · have hr := readDigits_toDigits (base := 16) Char.toUpper (by omega)
      (fun d hd => (digitValue_digitChar (by omega) hd).2) n
    rw [readOperand_hexadecimal (by simp), readDigits_leading_zeros, hr]
    rfl

/-! ### Lines -/

/-- A text is one word: not empty, with no comma, semicolon or blank. -/
def IsWord (text : List Char) : Prop := text ≠ [] ∧ ∀ c ∈ text, c ≠ ',' ∧ c ≠ ';' ∧ isBlank c = false

theorem isWord_of_digits {base : Nat} (f : Char → Char) (h1 : 1 < base)
    (hf : ∀ d < base, f (Nat.digitChar d) ≠ ',' ∧ f (Nat.digitChar d) ≠ ';' ∧ isBlank (f (Nat.digitChar d)) = false)
    (n : Nat) : IsWord ((Nat.toDigits base n).map f) := by
  refine ⟨by simp, ?_⟩
  induction n using Nat.strongRecOn with
  | _ n ih =>
    by_cases hn : n < base
    · simpa [Nat.toDigits_of_lt_base hn] using hf n hn
    · have hq : n / base < n := Nat.div_lt_self (by omega) h1
      intro c hc
      rw [Nat.toDigits_of_base_le h1 (by omega), List.map_append, List.mem_append] at hc
      rcases hc with hc | hc
      · exact ih _ hq c hc
      · simp only [List.map_cons, List.map_nil, List.mem_singleton] at hc
        exact hc ▸ hf _ (Nat.mod_lt n (by omega))

theorem digitChar_is_plain (d : Nat) (h : d < 16) :
    (Nat.digitChar d ≠ ',' ∧ Nat.digitChar d ≠ ';' ∧ isBlank (Nat.digitChar d) = false) ∧
    ((Nat.digitChar d).toUpper ≠ ',' ∧ (Nat.digitChar d).toUpper ≠ ';' ∧
      isBlank (Nat.digitChar d).toUpper = false) := by
  interval_cases d <;> decide

theorem isWord_numberText {text : List Char} {n : Nat} (h : Safety.NumberText text n) : IsWord text := by
  have hex : ∀ (z : Nat) (cs : List Char), IsWord cs → IsWord ('0' :: 'x' :: (List.replicate z '0' ++ cs)) := by
    rintro z cs ⟨-, hc⟩
    refine ⟨by simp, fun c hm => ?_⟩
    simp only [List.mem_cons, List.mem_append, List.mem_replicate] at hm
    rcases hm with rfl | rfl | ⟨-, rfl⟩ | hm
    · decide
    · decide
    · decide
    · exact hc c hm
  rcases h with rfl | ⟨z, rfl⟩ | ⟨z, rfl⟩
  · simpa using isWord_of_digits (base := 10) id (by omega) (fun d hd => (digitChar_is_plain d (by omega)).1) n
  · exact hex z _ (by simpa using isWord_of_digits (base := 16) id (by omega) (fun d hd => (digitChar_is_plain d hd).1) n)
  · exact hex z _ (isWord_of_digits Char.toUpper (by omega) (fun d hd => (digitChar_is_plain d hd).2) n)

theorem splitOnChar_of_not_mem {sep : Char} {cs : List Char} (h : sep ∉ cs) : splitOnChar sep cs = [cs] := by
  induction cs with
  | nil => rfl
  | cons c cs ih =>
    simp only [List.mem_cons, not_or] at h
    simp [splitOnChar, Ne.symm h.1, ih h.2]

theorem splitOnChar_append {sep : Char} {cs : List Char} (h : sep ∉ cs) (rest : List Char) :
    splitOnChar sep (cs ++ sep :: rest) = cs :: splitOnChar sep rest := by
  induction cs with
  | nil => simp [splitOnChar]
  | cons c cs ih =>
    simp only [List.mem_cons, not_or] at h
    simp [splitOnChar, Ne.symm h.1, ih h.2]

theorem dropWhile_isBlank {cs : List Char} (h : ∀ c ∈ cs, isBlank c = false) : cs.dropWhile isBlank = cs := by
  cases cs with
  | nil => rfl
  | cons c cs => simp [h c (by simp)]

/-- A text that begins and ends with no blank keeps both ends, whatever blanks stand before it. -/
theorem trimBlanks_of_ends {c d : Char} {cs ds : List Char} (hs : c :: cs = ds ++ [d]) (hc : isBlank c = false)
    (hd : isBlank d = false) : trimBlanks (c :: cs) = c :: cs ∧ trimBlanks (' ' :: c :: cs) = c :: cs := by
  have h1 : (c :: cs).dropWhile isBlank = c :: cs := by simp [hc]
  have h2 : ((c :: cs).reverse.dropWhile isBlank).reverse = c :: cs := by
    rw [hs]; simp [hd]
  refine ⟨by rw [trimBlanks, h1, h2], ?_⟩
  rw [trimBlanks, List.dropWhile_cons_of_pos (by decide), h1, h2]

theorem trimBlanks_word {text : List Char} (h : IsWord text) :
    trimBlanks text = text ∧ trimBlanks (' ' :: text) = text := by
  obtain ⟨hne, hc⟩ := h
  cases text with
  | nil => contradiction
  | cons c cs =>
    obtain ⟨ds, d, hs⟩ := List.eq_nil_or_concat (c :: cs) |>.resolve_left hne
    exact trimBlanks_of_ends (by simpa using hs) (hc c (by simp)).2.2 (hc d (by rw [hs]; simp)).2.2

/-- The operands of a line after its mnemonic's blank. -/
def operandText (o : List Char) (os : List (List Char)) : List Char := o ++ (os.map fun t => ',' :: ' ' :: t).flatten

theorem splitOnChar_operandText (o : List Char) (os : List (List Char)) (ho : ',' ∉ o) (h : ∀ t ∈ os, ',' ∉ t) :
    splitOnChar ',' (operandText o os) = o :: os.map (' ' :: ·) := by
  induction os generalizing o with
  | nil => simpa [operandText] using splitOnChar_of_not_mem ho
  | cons t os ih =>
    have ht : ',' ∉ ' ' :: t := by simpa using h t (by simp)
    have := ih (' ' :: t) ht (fun t hm => h t (by simp [hm]))
    simp only [operandText, List.map_cons, List.flatten_cons, List.cons_append] at this ⊢
    rw [splitOnChar_append ho, this]

/-- The operands of a line hold no semicolon and end with no blank. -/
theorem operandText_ends {o : List Char} {os : List (List Char)} (ho : IsWord o) (h : ∀ t ∈ os, IsWord t) :
    ';' ∉ operandText o os ∧ ∃ ds d, operandText o os = ds ++ [d] ∧ isBlank d = false := by
  induction os generalizing o with
  | nil =>
    simp only [operandText, List.map_nil, List.flatten_nil, List.append_nil]
    refine ⟨fun hm => (ho.2 _ hm).2.1 rfl, ?_⟩
    obtain ⟨ds, d, hs⟩ := List.eq_nil_or_concat o |>.resolve_left ho.1
    exact ⟨ds, d, by simpa using hs, (ho.2 d (by rw [hs]; simp)).2.2⟩
  | cons t os ih =>
    obtain ⟨h1, ds, d, h2, h3⟩ := ih (h t (by simp)) (fun t hm => h t (by simp [hm]))
    have he : operandText o (t :: os) = o ++ ',' :: ' ' :: operandText t os := by simp [operandText]
    rw [he]
    refine ⟨?_, o ++ ',' :: ' ' :: ds, d, by simp [h2], h3⟩
    simp only [List.mem_append, List.mem_cons, not_or]
    exact ⟨fun hm => (ho.2 _ hm).2.1 rfl, by decide, by decide, h1⟩

theorem takeWhile_append_of_all {α : Type} {p : α → Bool} {xs ys : List α} (h : ∀ x ∈ xs, p x = true) :
    (xs ++ ys).takeWhile p = xs ++ ys.takeWhile p := by
  induction xs with
  | nil => rfl
  | cons x xs ih => simp [h x (by simp), ih (fun y hy => h y (by simp [hy]))]

theorem mapM_readOperand (os : List (List Char)) (h : ∀ t ∈ os, IsWord t) :
    ((os.map (' ' :: ·)).mapM fun piece => readOperand (trimBlanks piece)) = os.mapM readOperand := by
  induction os with
  | nil => rfl
  | cons t os ih =>
    simp only [List.map_cons, List.mapM_cons, (trimBlanks_word (h t (by simp))).2, ih (fun t hm => h t (by simp [hm]))]

/-- A line of R79's form, of words, is its mnemonic with its operands read one by one. -/
theorem assembleLine_lineText (replyLen : Nat) (mnemonic : String) (operands : List (List Char))
    (hm : IsWord mnemonic.toList) (ho : ∀ t ∈ operands, IsWord t) :
    assembleLine replyLen (Safety.lineText mnemonic operands) =
      match operands.mapM readOperand with
      | none => none
      | some args => (asmCommands replyLen mnemonic.toList args).map (·.map encode) := by
  have hp : ∀ c ∈ mnemonic.toList, (c != ';') = true := fun c hc => by simpa using (hm.2 c hc).2.1
  have hb : ∀ c ∈ mnemonic.toList, (!isBlank c) = true := fun c hc => by simpa using (hm.2 c hc).2.2
  cases operands with
  | nil =>
    have h1 : mnemonic.toList.takeWhile (· != ';') = mnemonic.toList := by
      simpa using takeWhile_append_of_all (ys := []) hp
    have h2 : mnemonic.toList.takeWhile (!isBlank ·) = mnemonic.toList := by
      simpa using takeWhile_append_of_all (ys := []) hb
    simp only [assembleLine, Safety.lineText, h1, (trimBlanks_word hm).1, h2, if_neg hm.1, List.drop_length]
    rfl
  | cons o os =>
    have hw : ∀ t ∈ os, IsWord t := fun t ht => ho t (by simp [ht])
    have hcomma : ∀ {t}, IsWord t → ',' ∉ t := fun h hm => (h.2 _ hm).1 rfl
    have how := ho o (by simp)
    obtain ⟨hsemi, ds, d, hds, hd⟩ := operandText_ends how hw
    have hline : Safety.lineText mnemonic (o :: os) = mnemonic.toList ++ ' ' :: operandText o os := rfl
    have h1 : (mnemonic.toList ++ ' ' :: operandText o os).takeWhile (· != ';') =
        mnemonic.toList ++ ' ' :: operandText o os := by
      have : ∀ c ∈ mnemonic.toList ++ ' ' :: operandText o os, (c != ';') = true := by
        intro c hc
        simp only [List.mem_append, List.mem_cons] at hc
        rcases hc with hc | rfl | hc
        · exact hp c hc
        · decide
        · have : c ≠ ';' := fun e => hsemi (e ▸ hc)
          simpa using this
      simpa using takeWhile_append_of_all (ys := []) this
    have h2 : trimBlanks (mnemonic.toList ++ ' ' :: operandText o os) =
        mnemonic.toList ++ ' ' :: operandText o os := by
      cases hc : mnemonic.toList with
      | nil => exact absurd hc hm.1
      | cons c cs =>
        exact (trimBlanks_of_ends (ds := c :: cs ++ ' ' :: ds) (d := d) (by simp [hds])
          (hm.2 c (by simp [hc])).2.2 hd).1
    have h3 : (mnemonic.toList ++ ' ' :: operandText o os).takeWhile (!isBlank ·) = mnemonic.toList := by
      rw [takeWhile_append_of_all hb, List.takeWhile_cons_of_neg (by decide), List.append_nil]
    have h4 : trimBlanks (' ' :: operandText o os) ≠ [] := by
      cases ho' : o with
      | nil => exact absurd ho' how.1
      | cons c cs =>
        rw [show operandText (c :: cs) os = c :: operandText cs os from rfl]
        rw [(trimBlanks_of_ends (ds := ds) (d := d) (by rw [← hds, ho']; rfl) (how.2 c (by simp [ho'])).2.2 hd).2]
        simp
    have h5 : splitOnChar ',' (' ' :: operandText o os) = (o :: os).map (' ' :: ·) := by
      have := splitOnChar_operandText (' ' :: o) os (by simpa using hcomma how) (fun t ht => hcomma (hw t ht))
      simpa [operandText] using this
    rw [hline]
    simp only [assembleLine, h1, h2, h3, List.drop_left, readOperands, if_neg h4, h5, mapM_readOperand _ ho]
    exact if_neg (by simp)

/-- A comment is no part of a line. -/
theorem assembleLine_comment (replyLen : Nat) {line : List Char} (h : ';' ∉ line) (comment : List Char) :
    assembleLine replyLen (line ++ ';' :: comment) = assembleLine replyLen line := by
  have hp : ∀ c ∈ line, (c != ';') = true := fun c hc => by
    have : c ≠ ';' := fun e => h (e ▸ hc)
    simpa using this
  have h1 := takeWhile_append_of_all (p := (· != ';')) (ys := ';' :: comment) hp
  have h2 := takeWhile_append_of_all (p := (· != ';')) (ys := []) hp
  simp only [List.append_nil] at h2
  simp [assembleLine, h1, h2]

end Sys2Proof.Machine
end

