-- ==== Sys2Proof/Laws/Bytes.lean ====
section
/-! SUPPORT. The small laws of the byte-list operations: lengths, entries, and what is read back after a write. -/
namespace Sys2Proof.Machine

@[simp] theorem leBytes_length (w : Word) : (leBytes w).length = 2 := rfl

@[simp] theorem beBytes_length (w : Word) : (beBytes w).length = 2 := rfl

/-- The two bytes of a word put together again are the word. -/
@[simp] theorem le16_lo8_hi8 (w : Word) : le16 (lo8 w) (hi8 w) = w := by
  apply BitVec.eq_of_getLsbD_eq
  intro i hi
  simp only [le16, lo8, hi8, BitVec.getLsbD_or, BitVec.getLsbD_setWidth, BitVec.getLsbD_shiftLeft,
    BitVec.getLsbD_extractLsb']
  by_cases h : i < 8
  · simp [h, hi]
  · have h8 : i - 8 < 8 := by omega
    have : 8 + (i - 8) = i := by omega
    simp [h, hi, h8, this, (by omega : i - 8 < 16)]

/-- The low byte of an assembled word. -/
@[simp] theorem lo8_le16 (lo hi : Byte) : lo8 (le16 lo hi) = lo := by
  apply BitVec.eq_of_getLsbD_eq
  intro i h
  simp only [le16, lo8, BitVec.getLsbD_or, BitVec.getLsbD_setWidth, BitVec.getLsbD_shiftLeft,
    BitVec.getLsbD_extractLsb']
  simp [h, (by omega : i < 16)]

/-- The high byte of an assembled word. -/
@[simp] theorem hi8_le16 (lo hi : Byte) : hi8 (le16 lo hi) = hi := by
  apply BitVec.eq_of_getLsbD_eq
  intro i h
  simp only [le16, hi8, BitVec.getLsbD_or, BitVec.getLsbD_setWidth, BitVec.getLsbD_shiftLeft,
    BitVec.getLsbD_extractLsb']
  simp [h, (by omega : 8 + i < 16), (by omega : i < 16)]

@[simp] theorem scrambleRun_length (p : Params) (i : Nat) (bs : List Byte) : (scrambleRun p i bs).length = bs.length := by
  induction bs generalizing i with
  | nil => rfl
  | cons b bs ih => simp [scrambleRun, ih]

/-- Entry `j` of a scrambled run is the byte xored with the scramble byte `j` places on. -/
theorem scrambleRun_getElem? (p : Params) (i j : Nat) (bs : List Byte) :
    (scrambleRun p i bs)[j]? = bs[j]?.map (· ^^^ scrambleAt p (i + j)) := by
  induction bs generalizing i j with
  | nil => simp [scrambleRun]
  | cons b bs ih =>
    cases j with
    | zero => simp [scrambleRun]
    | succ j => simp [scrambleRun, ih, Nat.add_assoc, Nat.add_comm 1 j]

/-- Scrambling twice from the same index gives the bytes back. -/
theorem scrambleRun_scrambleRun (p : Params) (i : Nat) (bs : List Byte) :
    scrambleRun p i (scrambleRun p i bs) = bs := by
  induction bs generalizing i with
  | nil => rfl
  | cons b bs ih => simp [scrambleRun, ih]

@[simp] theorem addrSeq_length (p : Params) (a : List Byte) : (addrSeq p a).length = a.length := by
  simp [addrSeq]

@[simp] theorem matchAddr_length (p : Params) (a : List Byte) : (matchAddr p a).length = a.length := by
  simp [matchAddr]

@[simp] theorem scramblePayload_length (p : Params) (len : Nat) (bs : List Byte) :
    (scramblePayload p len bs).length = bs.length := by
  simp [scramblePayload]

@[simp] theorem descramblePayload_length (p : Params) (len : Nat) (bs : List Byte) :
    (descramblePayload p len bs).length = bs.length := by
  simp [descramblePayload]

theorem readAddr_length (reg : Vector Byte 5) (len : BitVec 3) : (readAddr reg len).length = min len.toNat 5 := by
  simp [readAddr]

/-- An address read back is the address written. -/
theorem readAddr_writeAddr (reg : Vector Byte 5) (len : BitVec 3) (bs : List Byte) (h : bs.length = len.toNat)
    (h5 : len ≤ 5) : readAddr (writeAddr reg bs) len = bs := by
  have hl : len.toNat ≤ 5 := by bv_omega
  simp only [readAddr, writeAddr, Vector.toList_mk]
  rw [← h]
  rcases bs with _ | ⟨b0, _ | ⟨b1, _ | ⟨b2, _ | ⟨b3, _ | ⟨b4, _ | ⟨b5, bs⟩⟩⟩⟩⟩⟩ <;>
    first
    | rfl
    | (simp only [List.length_cons] at h; omega)

theorem crc16_append (bs : List Byte) (b : Byte) : crc16 (bs ++ [b]) = crcByte (crc16 bs) b := by
  simp [crc16]

end Sys2Proof.Machine
end

