-- ==== Sys2Proof/Laws/State.lean ====
section
/-! SUPPORT. What each shared update of the state does to each field, and what belongs to a port. -/
namespace Sys2Proof.Machine

@[simp] theorem State.setPortState_params (s : State) (p : Port) (v : PortState) : (s.setPortState p v).params = s.params := by
  cases p <;> rfl

@[simp] theorem State.setPortState_addrLen (s : State) (p : Port) (v : PortState) : (s.setPortState p v).addrLen = s.addrLen := by
  cases p <;> rfl

@[simp] theorem State.setPortState_txAddr (s : State) (p : Port) (v : PortState) : (s.setPortState p v).txAddr = s.txAddr := by
  cases p <;> rfl

@[simp] theorem State.setPortState_txaLen (s : State) (p : Port) (v : PortState) : (s.setPortState p v).txaLen = s.txaLen := by
  cases p <;> rfl

@[simp] theorem State.setPortState_txaValid (s : State) (p : Port) (v : PortState) : (s.setPortState p v).txaValid = s.txaValid := by
  cases p <;> rfl

@[simp] theorem State.setPortState_rxAddr (s : State) (p : Port) (v : PortState) : (s.setPortState p v).rxAddr = s.rxAddr := by
  cases p <;> rfl

@[simp] theorem State.setPortState_rxaLen (s : State) (p : Port) (v : PortState) : (s.setPortState p v).rxaLen = s.rxaLen := by
  cases p <;> rfl

@[simp] theorem State.setPortState_rxaValid (s : State) (p : Port) (v : PortState) : (s.setPortState p v).rxaValid = s.rxaValid := by
  cases p <;> rfl

@[simp] theorem State.setPortState_crcEn (s : State) (p : Port) (v : PortState) : (s.setPortState p v).crcEn = s.crcEn := by
  cases p <;> rfl

@[simp] theorem State.setPortState_txid (s : State) (p : Port) (v : PortState) : (s.setPortState p v).txid = s.txid := by
  cases p <;> rfl

@[simp] theorem State.setPortState_txidValid (s : State) (p : Port) (v : PortState) : (s.setPortState p v).txidValid = s.txidValid := by
  cases p <;> rfl

@[simp] theorem State.setPortState_aid (s : State) (p : Port) (v : PortState) : (s.setPortState p v).aid = s.aid := by
  cases p <;> rfl

@[simp] theorem State.setPortState_ch (s : State) (p : Port) (v : PortState) : (s.setPortState p v).ch = s.ch := by
  cases p <;> rfl

@[simp] theorem State.setPortState_rxcrc (s : State) (p : Port) (v : PortState) : (s.setPortState p v).rxcrc = s.rxcrc := by
  cases p <;> rfl

@[simp] theorem State.setPortState_fault (s : State) (p : Port) (v : PortState) : (s.setPortState p v).fault = s.fault := by
  cases p <;> rfl

@[simp] theorem State.setPortState_cause (s : State) (p : Port) (v : PortState) : (s.setPortState p v).cause = s.cause := by
  cases p <;> rfl

@[simp] theorem State.setPortState_fopc (s : State) (p : Port) (v : PortState) : (s.setPortState p v).fopc = s.fopc := by
  cases p <;> rfl

@[simp] theorem State.setPortState_stream (s : State) (p : Port) (v : PortState) : (s.setPortState p v).stream = s.stream := by
  cases p <;> rfl

@[simp] theorem State.setPortState_port (s : State) (p : Port) (v : PortState) : (s.setPortState p v).port = s.port := by
  cases p <;> rfl

@[simp] theorem State.setPortState_arbPort (s : State) (p : Port) (v : PortState) : (s.setPortState p v).arbPort = s.arbPort := by
  cases p <;> rfl

@[simp] theorem State.setPortState_arbLeft (s : State) (p : Port) (v : PortState) : (s.setPortState p v).arbLeft = s.arbLeft := by
  cases p <;> rfl

@[simp] theorem State.setPortState_arbIdx (s : State) (p : Port) (v : PortState) : (s.setPortState p v).arbIdx = s.arbIdx := by
  cases p <;> rfl
@[simp] theorem State.setPortState_arbPassed (s : State) (p : Port) (v : PortState) : (s.setPortState p v).arbPassed = s.arbPassed := by
  cases p <;> rfl

@[simp] theorem State.setPortState_resetHold (s : State) (p : Port) (v : PortState) : (s.setPortState p v).resetHold = s.resetHold := by
  cases p <;> rfl

@[simp] theorem State.setPortState_portState_same (s : State) (p : Port) (v : PortState) :
    (s.setPortState p v).portState p = v := by
  cases p <;> rfl

@[simp] theorem State.setPortState_portState_other (s : State) (p : Port) (v : PortState) :
    (s.setPortState p v).portState p.other = s.portState p.other := by
  cases p <;> rfl

@[simp] theorem Port.other_other (p : Port) : p.other.other = p := by
  cases p <;> rfl

@[simp] theorem State.respond_params (s : State) (bs : List Byte) : (s.respond bs).params = s.params :=
  s.setPortState_params _ _

@[simp] theorem State.respond_addrLen (s : State) (bs : List Byte) : (s.respond bs).addrLen = s.addrLen :=
  s.setPortState_addrLen _ _

@[simp] theorem State.respond_txAddr (s : State) (bs : List Byte) : (s.respond bs).txAddr = s.txAddr :=
  s.setPortState_txAddr _ _

@[simp] theorem State.respond_txaLen (s : State) (bs : List Byte) : (s.respond bs).txaLen = s.txaLen :=
  s.setPortState_txaLen _ _

@[simp] theorem State.respond_txaValid (s : State) (bs : List Byte) : (s.respond bs).txaValid = s.txaValid :=
  s.setPortState_txaValid _ _

@[simp] theorem State.respond_rxAddr (s : State) (bs : List Byte) : (s.respond bs).rxAddr = s.rxAddr :=
  s.setPortState_rxAddr _ _

@[simp] theorem State.respond_rxaLen (s : State) (bs : List Byte) : (s.respond bs).rxaLen = s.rxaLen :=
  s.setPortState_rxaLen _ _

@[simp] theorem State.respond_rxaValid (s : State) (bs : List Byte) : (s.respond bs).rxaValid = s.rxaValid :=
  s.setPortState_rxaValid _ _

@[simp] theorem State.respond_crcEn (s : State) (bs : List Byte) : (s.respond bs).crcEn = s.crcEn :=
  s.setPortState_crcEn _ _

@[simp] theorem State.respond_txid (s : State) (bs : List Byte) : (s.respond bs).txid = s.txid :=
  s.setPortState_txid _ _

@[simp] theorem State.respond_txidValid (s : State) (bs : List Byte) : (s.respond bs).txidValid = s.txidValid :=
  s.setPortState_txidValid _ _

@[simp] theorem State.respond_aid (s : State) (bs : List Byte) : (s.respond bs).aid = s.aid :=
  s.setPortState_aid _ _

@[simp] theorem State.respond_ch (s : State) (bs : List Byte) : (s.respond bs).ch = s.ch :=
  s.setPortState_ch _ _

@[simp] theorem State.respond_rxcrc (s : State) (bs : List Byte) : (s.respond bs).rxcrc = s.rxcrc :=
  s.setPortState_rxcrc _ _

@[simp] theorem State.respond_fault (s : State) (bs : List Byte) : (s.respond bs).fault = s.fault :=
  s.setPortState_fault _ _

@[simp] theorem State.respond_cause (s : State) (bs : List Byte) : (s.respond bs).cause = s.cause :=
  s.setPortState_cause _ _

@[simp] theorem State.respond_fopc (s : State) (bs : List Byte) : (s.respond bs).fopc = s.fopc :=
  s.setPortState_fopc _ _

@[simp] theorem State.respond_stream (s : State) (bs : List Byte) : (s.respond bs).stream = s.stream :=
  s.setPortState_stream _ _

@[simp] theorem State.respond_port (s : State) (bs : List Byte) : (s.respond bs).port = s.port :=
  s.setPortState_port _ _

@[simp] theorem State.respond_arbPort (s : State) (bs : List Byte) : (s.respond bs).arbPort = s.arbPort :=
  s.setPortState_arbPort _ _

@[simp] theorem State.respond_arbLeft (s : State) (bs : List Byte) : (s.respond bs).arbLeft = s.arbLeft :=
  s.setPortState_arbLeft _ _

@[simp] theorem State.respond_arbIdx (s : State) (bs : List Byte) : (s.respond bs).arbIdx = s.arbIdx :=
  s.setPortState_arbIdx _ _
@[simp] theorem State.respond_arbPassed (s : State) (bs : List Byte) : (s.respond bs).arbPassed = s.arbPassed :=
  s.setPortState_arbPassed _ _

@[simp] theorem State.respond_resetHold (s : State) (bs : List Byte) : (s.respond bs).resetHold = s.resetHold :=
  s.setPortState_resetHold _ _

/-- A response is appended to those of the port being served. -/
theorem State.respond_portState_port (s : State) (bs : List Byte) :
    (s.respond bs).portState s.port =
      { s.portState s.port with responses := (s.portState s.port).responses ++ [bs] } :=
  s.setPortState_portState_same _ _

/-- A response leaves the other port as it was. -/
theorem State.respond_portState_other (s : State) (bs : List Byte) :
    (s.respond bs).portState s.port.other = s.portState s.port.other :=
  s.setPortState_portState_other _ _

/-- A response leaves the waiting messages of every port as they were. -/
@[simp] theorem State.respond_waiting (s : State) (bs : List Byte) (p : Port) :
    ((s.respond bs).portState p).waiting = (s.portState p).waiting := by
  rcases h : s.port with _ | _ <;> cases p <;> simp [State.respond, State.setPortState, State.portState, h]

/-- A response leaves the sequence index of every port as it was. -/
@[simp] theorem State.respond_seq (s : State) (bs : List Byte) (p : Port) :
    ((s.respond bs).portState p).seq = (s.portState p).seq := by
  rcases h : s.port with _ | _ <;> cases p <;> simp [State.respond, State.setPortState, State.portState, h]

@[simp] theorem State.emit_stream (s : State) (e : Event) : (s.emit e).stream = s.stream ++ [e] := rfl

@[simp] theorem State.emit_params (s : State) (e : Event) : (s.emit e).params = s.params := rfl

@[simp] theorem State.emit_addrLen (s : State) (e : Event) : (s.emit e).addrLen = s.addrLen := rfl

@[simp] theorem State.emit_txAddr (s : State) (e : Event) : (s.emit e).txAddr = s.txAddr := rfl

@[simp] theorem State.emit_txaLen (s : State) (e : Event) : (s.emit e).txaLen = s.txaLen := rfl

@[simp] theorem State.emit_txaValid (s : State) (e : Event) : (s.emit e).txaValid = s.txaValid := rfl

@[simp] theorem State.emit_rxAddr (s : State) (e : Event) : (s.emit e).rxAddr = s.rxAddr := rfl

@[simp] theorem State.emit_rxaLen (s : State) (e : Event) : (s.emit e).rxaLen = s.rxaLen := rfl

@[simp] theorem State.emit_rxaValid (s : State) (e : Event) : (s.emit e).rxaValid = s.rxaValid := rfl

@[simp] theorem State.emit_crcEn (s : State) (e : Event) : (s.emit e).crcEn = s.crcEn := rfl

@[simp] theorem State.emit_txid (s : State) (e : Event) : (s.emit e).txid = s.txid := rfl

@[simp] theorem State.emit_txidValid (s : State) (e : Event) : (s.emit e).txidValid = s.txidValid := rfl

@[simp] theorem State.emit_aid (s : State) (e : Event) : (s.emit e).aid = s.aid := rfl

@[simp] theorem State.emit_ch (s : State) (e : Event) : (s.emit e).ch = s.ch := rfl

@[simp] theorem State.emit_rxcrc (s : State) (e : Event) : (s.emit e).rxcrc = s.rxcrc := rfl

@[simp] theorem State.emit_fault (s : State) (e : Event) : (s.emit e).fault = s.fault := rfl

@[simp] theorem State.emit_cause (s : State) (e : Event) : (s.emit e).cause = s.cause := rfl

@[simp] theorem State.emit_fopc (s : State) (e : Event) : (s.emit e).fopc = s.fopc := rfl

@[simp] theorem State.emit_host (s : State) (e : Event) : (s.emit e).host = s.host := rfl

@[simp] theorem State.emit_producer (s : State) (e : Event) : (s.emit e).producer = s.producer := rfl

@[simp] theorem State.emit_port (s : State) (e : Event) : (s.emit e).port = s.port := rfl

@[simp] theorem State.emit_arbPort (s : State) (e : Event) : (s.emit e).arbPort = s.arbPort := rfl

@[simp] theorem State.emit_arbLeft (s : State) (e : Event) : (s.emit e).arbLeft = s.arbLeft := rfl

@[simp] theorem State.emit_arbIdx (s : State) (e : Event) : (s.emit e).arbIdx = s.arbIdx := rfl
@[simp] theorem State.emit_arbPassed (s : State) (e : Event) : (s.emit e).arbPassed = s.arbPassed := rfl

@[simp] theorem State.emit_resetHold (s : State) (e : Event) : (s.emit e).resetHold = s.resetHold := rfl

@[simp] theorem State.emit_portState (s : State) (e : Event) (p : Port) : (s.emit e).portState p = s.portState p := by
  cases p <;> rfl

end Sys2Proof.Machine
end

