-- ==== Sys2Proof/Laws/Ops.lean ====
section
/-! SUPPORT. What each shared operation can do, said once: the end of a command, the fault entry, the taking of a
command, the reset, and the step. -/
namespace Sys2Proof.Machine

/-! ### The end of a command -/

theorem settle_of_latched {opc : Byte} {s : State} {r : Except Cause State} (h : s.fault = true) :
    settle opc s r = s.respond [] := by
  simp [settle, refuse, h]

theorem settle_ok {opc : Byte} {s t : State} (h : s.fault = false) : settle opc s (.ok t) = t := by
  simp [settle, h]

theorem settle_error {opc : Byte} {s : State} {c : Cause} (h : s.fault = false) :
    settle opc s (.error c) = faultEntry c opc s := by
  simp [settle, h]

/-- A command ends refused, performed or faulted. -/
theorem settle_cases (opc : Byte) (s : State) (r : Except Cause State) :
    (s.fault = true ∧ settle opc s r = s.respond []) ∨
    (s.fault = false ∧ ∃ t, r = .ok t ∧ settle opc s r = t) ∨
    (s.fault = false ∧ ∃ c, r = .error c ∧ settle opc s r = faultEntry c opc s) := by
  cases h : s.fault
  · cases r with
    | ok t => exact .inr (.inl ⟨rfl, t, rfl, settle_ok h⟩)
    | error c => exact .inr (.inr ⟨rfl, c, rfl, settle_error h⟩)
  · exact .inl ⟨rfl, settle_of_latched h⟩

theorem complete_eq_next {opc : Byte} {s t : State} {r : Except Cause State} :
    complete opc s r = .next t ↔ settle opc s r = t := by
  simp [complete]

/-- Every command but STATUS ends in `complete`, with its own opcode byte. -/
theorem exec_is_complete (i : Instr) (s : State) (h : ∀ ops, i ≠ .status ops) :
    ∃ r, exec i s = complete i.opcode s r := by
  cases i <;> first | exact absurd rfl (h _) | exact ⟨_, rfl⟩

/-- The codes of the causes are 1 to 9. -/
theorem Cause.code_range (c : Cause) : 1 ≤ c.code ∧ c.code ≤ 9 := by
  cases c <;> decide

/-- Different causes have different codes. -/
theorem Cause.code_injective {c d : Cause} (h : c.code = d.code) : c = d := by
  cases c <;> cases d <;> first | rfl | exact absurd h (by decide)

/-! ### The fields of a fault entry -/

@[simp] theorem faultEntry_fault (c : Cause) (opc : Byte) (s : State) : (faultEntry c opc s).fault = true := by
  simp [faultEntry]

@[simp] theorem faultEntry_cause (c : Cause) (opc : Byte) (s : State) : (faultEntry c opc s).cause = c.code := by
  simp [faultEntry]

@[simp] theorem faultEntry_fopc (c : Cause) (opc : Byte) (s : State) : (faultEntry c opc s).fopc = opc := by
  simp [faultEntry]

@[simp] theorem faultEntry_stream (c : Cause) (opc : Byte) (s : State) : (faultEntry c opc s).stream = s.stream := by
  simp [faultEntry]

@[simp] theorem faultEntry_params (c : Cause) (opc : Byte) (s : State) : (faultEntry c opc s).params = s.params := by
  simp [faultEntry]

/-! ### The checks shared by the framing commands -/

/-- The checks on an address length pass with the state they are given, and only on a length in 3..5 and that many
operand bytes. -/
theorem checkAddr_ok {len : BitVec 3} {ops : List Byte} {t u : State} (h : checkAddr len ops t = .ok u) :
    u = t ∧ 3 ≤ len ∧ len ≤ 5 ∧ ops.length = len.toNat := by
  unfold checkAddr at h
  split at h
  · cases h
  · split at h
    · cases h
    · rename_i h1 h2
      simp only [Config.lMin, Config.lMax, not_or] at h1
      exact ⟨by simpa using h.symm, by bv_omega, by bv_omega, by omega⟩

/-- The checks on an address length raise ADDR_LEN_RANGE or OPERAND_LENGTH. -/
theorem checkAddr_error {len : BitVec 3} {ops : List Byte} {t : State} {c : Cause} (h : checkAddr len ops t = .error c) :
    c = .addrLenRange ∨ c = .operandLength := by
  unfold checkAddr at h
  split at h
  · simp_all
  · split at h <;> simp_all

/-- The framing checks pass with the state they are given, and only on a valid address of the length `ADDR_LEN` whose
table index, where the CRC is on, is below `XLEN`. -/
theorem checkFraming_ok {s t u : State} {valid : Bool} {len : BitVec 3} {missing : Cause} {n : Nat}
    (h : checkFraming s valid len missing n t = .ok u) :
    u = t ∧ valid = true ∧ len = s.addrLen ∧
      (s.crcEn = true → xorIndex s.addrLen.toNat n < s.params.xorTable.length) := by
  unfold checkFraming at h
  split at h
  · cases h
  · split at h
    · cases h
    · split at h
      · cases h
      · simp_all

/-- The framing checks raise the cause of a missing address, ADDR_LEN_MISMATCH or TABLE_INDEX. -/
theorem checkFraming_error {s t : State} {valid : Bool} {len : BitVec 3} {missing c : Cause} {n : Nat}
    (h : checkFraming s valid len missing n t = .error c) :
    c = missing ∨ c = .addrLenMismatch ∨
      (c = .tableIndex ∧ s.crcEn = true ∧ s.params.xorTable.length ≤ xorIndex s.addrLen.toNat n) := by
  unfold checkFraming at h
  split at h
  · simp_all
  · split at h
    · simp_all
    · split at h <;> simp_all

/-! ### The taking of a command -/

theorem choosePort_none {s : State} : choosePort s = none ↔ s.host.waiting = [] ∧ s.producer.waiting = [] := by
  unfold choosePort
  split <;> simp_all

theorem portState_waiting_of_both {s : State} (hh : s.host.waiting ≠ []) (hp : s.producer.waiting ≠ []) (p : Port) :
    (s.portState p).waiting ≠ [] := by
  cases p <;> assumption

/-- A turn changes only the arbitration's own fields. -/
theorem burstChoice_frame (s : State) :
    ∃ ap al ai, (burstChoice s).2 = { s with arbPort := ap, arbLeft := al, arbIdx := ai } := by
  unfold burstChoice
  split <;> exact ⟨_, _, _, rfl⟩

/-- A contested choice is the turn, or a CH_WRITE served out of turn with the turns as they were. -/
theorem contestedChoice_cases (s : State) :
    contestedChoice s = burstChoice s ∨
      ∃ p, s.owedChWrite = some p ∧ (burstChoice s).1 ≠ p ∧ contestedChoice s = (p, s) := by
  unfold contestedChoice
  split
  · exact .inl rfl
  · split
    · exact .inl rfl
    · rename_i p hp hne
      exact .inr ⟨p, hp, hne, rfl⟩

/-- A CH_WRITE that has been passed is the contested choice (R63). -/
theorem contestedChoice_of_owed {s : State} {p : Port} (h : s.owedChWrite = some p) : (contestedChoice s).1 = p := by
  unfold contestedChoice
  rw [h]
  simp only
  split <;> simp_all

/-- The port chosen has a command waiting, and only the arbitration's own fields change. -/
theorem choosePort_some {s s1 : State} {p : Port} (h : choosePort s = some (p, s1)) :
    (s.portState p).waiting ≠ [] ∧
      ∃ ap al ai ao, s1 = { s with arbPort := ap, arbLeft := al, arbIdx := ai, arbPassed := ao } := by
  unfold choosePort at h
  split at h
  · cases h
  · simp only [Option.some.injEq, Prod.mk.injEq] at h
    obtain ⟨rfl, rfl⟩ := h
    exact ⟨by simp_all [State.portState], s.arbPort, s.arbLeft, s.arbIdx, none, rfl⟩
  · simp only [Option.some.injEq, Prod.mk.injEq] at h
    obtain ⟨rfl, rfl⟩ := h
    exact ⟨by simp_all [State.portState], s.arbPort, s.arbLeft, s.arbIdx, none, rfl⟩
  · rename_i hh hp
    simp only [Option.some.injEq, Prod.mk.injEq] at h
    obtain ⟨rfl, rfl⟩ := h
    refine ⟨portState_waiting_of_both (by simp [hh]) (by simp [hp]) _, ?_⟩
    rcases contestedChoice_cases s with e | ⟨p, -, -, e⟩
    · obtain ⟨ap, al, ai, hb⟩ := burstChoice_frame s
      exact ⟨ap, al, ai, _, by rw [e, hb]⟩
    · exact ⟨s.arbPort, s.arbLeft, s.arbIdx, _, by rw [e]⟩

/-- No command is taken only where none waits. -/
theorem takeCommand_none {s : State} : takeCommand s = none ↔ s.host.waiting = [] ∧ s.producer.waiting = [] := by
  rw [← choosePort_none]
  unfold takeCommand
  split
  · simp_all
  · rename_i p s1 h
    obtain ⟨hw, ap, al, ai, ao, rfl⟩ := choosePort_some h
    have : (State.portState { s with arbPort := ap, arbLeft := al, arbIdx := ai, arbPassed := ao } p).waiting ≠ [] := by
      cases p <;> exact hw
    split <;> simp_all

/-- The taken command is the first waiting at some port; the state is as before but for that port's messages and
sequence index, the port being served and the arbitration. -/
theorem takeCommand_some {s s1 : State} {m : Message} (h : takeCommand s = some (m, s1)) :
    ∃ p rest ap al ai ao,
      choosePort s = some (p, { s with arbPort := ap, arbLeft := al, arbIdx := ai, arbPassed := ao }) ∧
      (s.portState p).waiting = m :: rest ∧
      s1 = { s.setPortState p { s.portState p with waiting := rest, seq := (s.portState p).seq + 1 } with
        port := p, arbPort := ap, arbLeft := al, arbIdx := ai, arbPassed := ao } := by
  unfold takeCommand at h
  split at h
  · cases h
  · rename_i p s2 hc
    obtain ⟨-, ap, al, ai, ao, rfl⟩ := choosePort_some hc
    split at h
    · cases h
    · rename_i m' rest hw
      simp only [Option.some.injEq, Prod.mk.injEq] at h
      obtain ⟨rfl, rfl⟩ := h
      refine ⟨p, rest, ap, al, ai, ao, hc, ?_, ?_⟩
      · cases p <;> exact hw
      · cases p <;> rfl

/-! ### The step -/

/-- A message is run as the command it decodes to, or takes ILLEGAL_OPCODE. -/
theorem runMessage_cases (m : Message) (s : State) :
    (∃ i, decode m = .ok i ∧ runMessage m s = exec i s) ∨
    (∃ opc, decode m = .error (.illegalOpcode opc) ∧ runMessage m s = complete opc s (.error .illegalOpcode)) := by
  unfold runMessage
  cases h : decode m with
  | ok i => exact .inl ⟨i, rfl, rfl⟩
  | error e => cases e; exact .inr ⟨_, rfl, rfl⟩

/-- A step is a reset step, an idle step, or the running of one taken message. -/
theorem step_cases {s t : State} (h : step s = .next t) :
    (s.resetHold ≠ 0 ∧ t = resetStep s) ∨
    (s.resetHold = 0 ∧ takeCommand s = none ∧ t = s) ∨
    (s.resetHold = 0 ∧ ∃ m s1, takeCommand s = some (m, s1) ∧ runMessage m s1 = .next t) := by
  unfold step at h
  split at h
  · rename_i h0
    split at h
    · rename_i hn
      exact .inr (.inl ⟨h0, hn, by simpa using h.symm⟩)
    · rename_i m s1 hm
      exact .inr (.inr ⟨h0, m, s1, hm, h⟩)
  · rename_i h0
    exact .inl ⟨h0, by simpa using h.symm⟩

/-- A reset step resets the state before it, or that state with the command being delivered answered by an empty
response. -/
theorem resetStep_cases (s : State) :
    (takeCommand s = none ∧ resetStep s = resetBlock s) ∨
    (∃ m s1, takeCommand s = some (m, s1) ∧ resetStep s = resetBlock (s1.respond [])) := by
  unfold resetStep
  cases h : takeCommand s with
  | none => exact .inl ⟨rfl, rfl⟩
  | some v => exact .inr ⟨v.1, v.2, rfl, rfl⟩

end Sys2Proof.Machine
end

