-- ==== Sys2Proof/Laws/PerInstr.lean ====
section
/-! SUPPORT. A family of per-command facts about the encoding: no command is written with an opcode byte of rule R75's
list. -/
namespace Sys2Proof

/-- The illegal opcode bytes as R75 lists them: ranges, both ends included. -/
def illegalRanges : List (Byte × Byte) :=
  [(0x01, 0x0F), (0x11, 0x1F), (0x28, 0x2F), (0x38, 0x3F), (0x41, 0x4F), (0x51, 0x5F), (0x62, 0x6F), (0x74, 0x7F),
   (0x86, 0x8F), (0x92, 0x9F), (0xA2, 0xEF), (0xF2, 0xFF)]

/-- The opcode byte stands in R75's list. -/
def illegalOpcodeByte (opc : Byte) : Bool := illegalRanges.any fun r => r.1 ≤ opc && opc ≤ r.2

namespace Laws.LegalOpcode

/-- The command's opcode byte is none of R75's list. -/
def Statement (i : Instr) : Prop := illegalOpcodeByte i.opcode = false

theorem nop (ops : List Byte) : Statement (.nop ops) := by
  show illegalOpcodeByte 0x00 = false; decide

theorem configure (ops : List Byte) : Statement (.configure ops) := by
  show illegalOpcodeByte 0x10 = false; decide

theorem setTxAddr (len : BitVec 3) (ops : List Byte) : Statement (.setTxAddr len ops) := by
  show illegalOpcodeByte (0x20 ||| len.setWidth 8) = false; revert len; decide

theorem setRxAddr (len : BitVec 3) (ops : List Byte) : Statement (.setRxAddr len ops) := by
  show illegalOpcodeByte (0x30 ||| len.setWidth 8) = false; revert len; decide

theorem encode (ops : List Byte) : Statement (.encode ops) := by
  show illegalOpcodeByte 0x40 = false; decide

theorem decode (ops : List Byte) : Statement (.decode ops) := by
  show illegalOpcodeByte 0x50 = false; decide

theorem setTxid (ops : List Byte) : Statement (.setTxid ops) := by
  show illegalOpcodeByte 0x60 = false; decide

theorem setAid (ops : List Byte) : Statement (.setAid ops) := by
  show illegalOpcodeByte 0x61 = false; decide

theorem hopGet (k : BitVec 2) (ops : List Byte) : Statement (.hopGet k ops) := by
  show illegalOpcodeByte (0x70 ||| k.setWidth 8) = false; revert k; decide

theorem chWrite (c : Channel) (ops : List Byte) : Statement (.chWrite c ops) := by
  show illegalOpcodeByte (0x80 ||| BitVec.ofNat 8 c.val) = false; revert c; decide

theorem pack (t : PacketType) (ops : List Byte) : Statement (.pack t ops) := by
  cases t
  · show illegalOpcodeByte 0x90 = false; decide
  · show illegalOpcodeByte 0x91 = false; decide

theorem unpack (ops : List Byte) : Statement (.unpack ops) := by
  show illegalOpcodeByte 0xA0 = false; decide

theorem parseReply (ops : List Byte) : Statement (.parseReply ops) := by
  show illegalOpcodeByte 0xA1 = false; decide

theorem status (ops : List Byte) : Statement (.status ops) := by
  show illegalOpcodeByte 0xF0 = false; decide

theorem rdRxcrc (ops : List Byte) : Statement (.rdRxcrc ops) := by
  show illegalOpcodeByte 0xF1 = false; decide

end Laws.LegalOpcode

end Sys2Proof
end

