-- ==== Sys2Proof/Tests/Slice0.lean ====
section
/-! SUPPORT. The tests: vectors of spec/95_test_vectors.md with the candidate values of 93_implementation_defined.md,
Part 3, words written out from R72 to R74, the refusals of `Instr.wellFormed`, and for every statement that has
hypotheses a state and operands that meet them. -/
namespace Sys2Proof.Tests

open Sys2Proof.Machine

/-! ### Parameters and states -/

/-- The candidate tables and the example parameters of 95_test_vectors.md ("cand"). -/
def cand : Params where
  emulate := true
  scramble := #v[0xE3, 0xB1, 0x4B, 0xEA, 0x85, 0xBC, 0xE5, 0x66, 0x0D, 0xAE, 0x8C, 0x88, 0x12, 0x69, 0xEE, 0x1F, 0xC7,
    0x62, 0x97, 0xD5, 0x0B, 0x79, 0xCA, 0xCC, 0x1B, 0x5D, 0x19, 0x10, 0x24, 0xD3, 0xDC, 0x3F, 0x8E, 0xC5, 0x2F]
  xorTable := [0x0000, 0x3448, 0x9BA7, 0x8BBB, 0x85E1, 0x3E8C, 0x451E, 0x18E6, 0x6B24, 0xE7AB, 0x3828, 0x814B, 0xD461,
    0xF494, 0x2503, 0x691D, 0xFE8B, 0x9BA7, 0x8B17, 0x2920, 0x8B5F, 0x61B1, 0xD391, 0x7401, 0x2138, 0x129F, 0xB3A0,
    0x2988]
  preamble4 := #v[0x55, 0x0F, 0x71, 0x0C]
  prePad := 0x00
  flipSrc := 4
  flipThreshold := 500
  flipField := 3
  flipBit := 12
  modeSrc := 5
  modeBpLo := 333
  modeBpHi := 666
  modeVal := #v[0, 1, 2]
  replyLen := 19
  ackOff := 9
  aidOff := 5
  cfgCrcMask := 0x08
  cfgClearMask := 0x0C

/-- The reset state of an emulating block with those parameters. -/
def st : State := { State.reset with params := cand, arbLeft := 0 }

/-- The reset state in passthrough. -/
def pass : State := { st with params := { cand with emulate := false } }

/-- The reset state of a block whose xor table has `n` entries. -/
def short (n : Nat) : State := { st with params := { cand with xorTable := cand.xorTable.take n } }

/-- With a TX address of length 3, A1 A2 A3, and the CRC on or off. -/
def tx3 (crc : Bool) : State :=
  { st with txAddr := #v[0xA1, 0xA2, 0xA3, 0, 0], txaLen := 3, txaValid := true, addrLen := 3, crcEn := crc }

/-- With both addresses A1 A2 A3. -/
def both3 (crc : Bool) : State :=
  { tx3 crc with rxAddr := #v[0xA1, 0xA2, 0xA3, 0, 0], rxaLen := 3, rxaValid := true }

/-- With both addresses 11 22 33 44 55 and the CRC on or off, on a given block. -/
def both5 (s : State) (crc : Bool) : State :=
  { s with
    txAddr := #v[0x11, 0x22, 0x33, 0x44, 0x55], txaLen := 5, txaValid := true
    rxAddr := #v[0x11, 0x22, 0x33, 0x44, 0x55], rxaLen := 5, rxaValid := true, addrLen := 5, crcEn := crc }

/-- With the identity 3C 07 9E 21. -/
def idSet : State := { st with txid := #v[0x3C, 0x07, 0x9E, 0x21], txidValid := true }

/-- The registers of V-C2. -/
def vc2 : State := { idSet with aid := #v[1, 2, 3, 4], ch := #v[250, 500, 1000, 500, 501, 700] }

/-- The faulted state after ILLEGAL_OPCODE. -/
def faulted : State := { st with fault := true, cause := 1, fopc := 0x01 }

/-- The 19 bytes 10 11 .. 22 of V-F17. -/
def bytes19 : List Byte :=
  [0x10, 0x11, 0x12, 0x13, 0x14, 0x15, 0x16, 0x17, 0x18, 0x19, 0x1A, 0x1B, 0x1C, 0x1D, 0x1E, 0x1F, 0x20, 0x21, 0x22]

/-- The state with messages waiting at the host port and at the producer port. -/
def waiting (hs ps : List Message) (s : State) : State :=
  { s with host := { s.host with waiting := hs }, producer := { s.producer with waiting := ps } }

/-- The state after the step that takes one message from the host. -/
def after (m : Message) (s : State) : Option State :=
  match step (waiting [m] [] s) with
  | .next t => some t
  | _ => none

/-- The response to that message. -/
def reply (m : Message) (s : State) : Option (List Byte) := (after m s).bind (·.host.responses.getLast?)

/-- The stream after it. -/
def emitted (m : Message) (s : State) : Option (List Event) := (after m s).map (·.stream)

/-- The latch after it: `FAULT`, `CAUSE` and `FOPC`. -/
def latch (m : Message) (s : State) : Option (Bool × BitVec 4 × Byte) :=
  (after m s).map fun t => (t.fault, t.cause, t.fopc)

/-! ### Well-formedness: each check refuses -/

theorem test_wf_counts :
    (Instr.nop [1]).wellFormed 19 = false ∧ (Instr.configure []).wellFormed 19 = false ∧
    (Instr.setTxAddr 3 [1, 2]).wellFormed 19 = false ∧ (Instr.setRxAddr 5 [1, 2, 3, 4]).wellFormed 19 = false ∧
    (Instr.setTxid [1, 2, 3]).wellFormed 19 = false ∧ (Instr.setAid [1, 2, 3, 4, 5]).wellFormed 19 = false ∧
    (Instr.hopGet 0 [1]).wellFormed 19 = false ∧ (Instr.chWrite 0 [1]).wellFormed 19 = false ∧
    (Instr.pack .data [1]).wellFormed 19 = false ∧ (Instr.unpack [1]).wellFormed 19 = false ∧
    (Instr.parseReply bytes19).wellFormed 18 = false ∧ (Instr.status [1]).wellFormed 19 = false ∧
    (Instr.rdRxcrc [1]).wellFormed 19 = false := by decide

theorem test_wf_ranges :
    (Instr.setTxAddr 2 [1, 2]).wellFormed 19 = false ∧ (Instr.setRxAddr 6 [1, 2, 3, 4, 5, 6]).wellFormed 19 = false ∧
    (Instr.encode (0 :: bytes19)).wellFormed 19 = false ∧ (Instr.decode (0 :: bytes19)).wellFormed 19 = false := by
  decide

theorem test_wf_accepts :
    (Instr.setTxAddr 3 [1, 2, 3]).wellFormed 19 = true ∧ (Instr.setRxAddr 5 [1, 2, 3, 4, 5]).wellFormed 19 = true ∧
    (Instr.encode bytes19).wellFormed 19 = true ∧ (Instr.parseReply bytes19).wellFormed 19 = true := by decide

/-! ### Decoding: a word of every row, written out bit by bit from R72 to R74 -/

theorem test_decode_nop : decode ⟨0b0000_0000, []⟩ = .ok (.nop []) := by decide
theorem test_decode_configure : decode ⟨0b0001_0000, [0x0E]⟩ = .ok (.configure [0x0E]) := by decide
theorem test_decode_setTxAddr : decode ⟨0b0010_0011, [0xA1, 0xA2, 0xA3]⟩ = .ok (.setTxAddr 3 [0xA1, 0xA2, 0xA3]) := by
  decide
theorem test_decode_setRxAddr : decode ⟨0b0011_0100, [1, 2, 3, 4]⟩ = .ok (.setRxAddr 4 [1, 2, 3, 4]) := by decide
theorem test_decode_encode : decode ⟨0b0100_0000, [0xFF]⟩ = .ok (.encode [0xFF]) := by decide
theorem test_decode_decode : decode ⟨0b0101_0000, [0x15]⟩ = .ok (.decode [0x15]) := by decide
theorem test_decode_setTxid :
    decode ⟨0b0110_0000, [0x3C, 0x07, 0x9E, 0x21]⟩ = .ok (.setTxid [0x3C, 0x07, 0x9E, 0x21]) := by decide
theorem test_decode_setAid : decode ⟨0b0110_0001, [1, 2, 3, 4]⟩ = .ok (.setAid [1, 2, 3, 4]) := by decide
theorem test_decode_hopGet : decode ⟨0b0111_0010, []⟩ = .ok (.hopGet 2 []) := by decide
theorem test_decode_chWrite : decode ⟨0b1000_0101, [0xF4, 0x01]⟩ = .ok (.chWrite 5 [0xF4, 0x01]) := by decide
theorem test_decode_pack :
    decode ⟨0b1001_0000, []⟩ = .ok (.pack .data []) ∧ decode ⟨0b1001_0001, []⟩ = .ok (.pack .bind []) := by decide
theorem test_decode_unpack : decode ⟨0b1010_0000, bytes19⟩ = .ok (.unpack bytes19) := by decide
theorem test_decode_parseReply : decode ⟨0b1010_0001, bytes19⟩ = .ok (.parseReply bytes19) := by decide
theorem test_decode_status : decode ⟨0b1111_0000, []⟩ = .ok (.status []) := by decide
theorem test_decode_rdRxcrc : decode ⟨0b1111_0001, []⟩ = .ok (.rdRxcrc []) := by decide

/-- V-X1 to V-X3: no row, and the two CH_WRITE encodings that do not exist. -/
theorem test_decode_illegal :
    decode ⟨0x01, []⟩ = .error (.illegalOpcode 0x01) ∧ decode ⟨0x28, []⟩ = .error (.illegalOpcode 0x28) ∧
    decode ⟨0x86, [1, 2]⟩ = .error (.illegalOpcode 0x86) ∧ decode ⟨0x87, []⟩ = .error (.illegalOpcode 0x87) ∧
    decode ⟨0xB0, []⟩ = .error (.illegalOpcode 0xB0) ∧ decode ⟨0xFF, []⟩ = .error (.illegalOpcode 0xFF) := by decide

/-- The assembler lines of P2, P3 and P1. -/
theorem test_assemble :
    assembleLine 19 "SET_ADDR 3, 0xA1, 0xA2, 0xA3 ; both".toList =
      some [⟨0x23, [0xA1, 0xA2, 0xA3]⟩, ⟨0x33, [0xA1, 0xA2, 0xA3]⟩] ∧
    assembleLine 19 "CH_WRITE ail, 500".toList = some [⟨0x81, [0xF4, 0x01]⟩] ∧
    assembleLine 19 "HOP_ALL".toList = some [⟨0x70, []⟩, ⟨0x71, []⟩, ⟨0x72, []⟩, ⟨0x73, []⟩] := by decide

/-- P4, step 1: a length out of range is refused. -/
theorem test_assemble_refuses : assembleLine 19 "SET_TX_ADDR 6, 1, 2, 3, 4, 5, 6".toList = none := by decide

/-! ### The primitives -/

/-- V-P5, V-P6. -/
theorem test_match :
    matchAddr cand [0x11, 0x22, 0x33, 0x44, 0x55] = [0x94, 0xC8, 0x78, 0xF5, 0xB6] ∧
    addrSeq cand [0x11, 0x22, 0x33, 0x44, 0x55] = [0xB6, 0xF5, 0x78, 0xC8, 0x94] ∧
    matchAddr cand [0xA1, 0xA2, 0xA3] = [0xEA, 0x13, 0x40] := by decide

/-- V-P8. -/
theorem test_hwPreamble :
    hwPreamble cand 5 = [0x55, 0x0F, 0x71, 0x0C, 0x00] ∧ hwPreamble cand 3 = [0x0F, 0x71, 0x0C, 0x00, 0x00] := by decide

/-- V-P9 to V-P11: one flipped bit changes the CRC. -/
theorem test_frameCrc :
    frameCrc cand [0x11, 0x22, 0x33, 0x44, 0x55] 5 [0x00] = 0xD0A3 ∧
    frameCrc cand [0x11, 0x22, 0x33, 0x44, 0x55] 5 [0x01] = 0x412B ∧
    frameCrc cand [0x11, 0x22, 0x33, 0x44, 0x54] 5 [0x00] = 0x9503 := by decide +kernel

/-! ### One step of each command, from the vectors -/

/-- V-K6. -/
theorem test_nop : reply ⟨0x00, []⟩ st = some [] ∧ latch ⟨0x00, []⟩ st = some (false, 0, 0) := by decide

/-- V-F1 and V-F4. -/
theorem test_configure :
    emitted ⟨0x10, [0x0E]⟩ st = some [.wrConfig 0x02] ∧ (after ⟨0x10, [0x0E]⟩ st).map (·.crcEn) = some true ∧
    emitted ⟨0x10, [0xFF]⟩ st = some [.wrConfig 0xF3] := by decide

/-- V-F3 and V-F5. -/
theorem test_configure_masks :
    (after ⟨0x10, [0x04]⟩ st).map (·.crcEn) = some false ∧
    emitted ⟨0x10, [0x0E]⟩ pass = some [.wrConfig 0x0E] := by decide

/-- V-F6. -/
theorem test_setTxAddr :
    emitted ⟨0x23, [0xA1, 0xA2, 0xA3]⟩ st = some [.wrAw 3, .wrTxAddr [0x0F, 0x71, 0x0C, 0x00, 0x00]] ∧
    (after ⟨0x23, [0xA1, 0xA2, 0xA3]⟩ st).map (fun t => (t.addrLen, t.txaValid)) = some (3, true) := by decide

/-- V-F8, and P4 step 1: a length of 6 faults before its operands are counted. -/
theorem test_setTxAddr_passthrough_and_range :
    emitted ⟨0x25, [0x11, 0x22, 0x33, 0x44, 0x55]⟩ pass = some [.wrAw 5, .wrTxAddr [0x11, 0x22, 0x33, 0x44, 0x55]] ∧
    latch ⟨0x26, [1, 2, 3, 4, 5, 6]⟩ st = some (true, 3, 0x26) := by decide

/-- V-F9, V-F10. -/
theorem test_setRxAddr :
    emitted ⟨0x35, [0x11, 0x22, 0x33, 0x44, 0x55]⟩ st = some [.wrAw 5, .wrRxAddr [0x94, 0xC8, 0x78, 0xF5, 0xB6]] ∧
    emitted ⟨0x33, [0xA1, 0xA2, 0xA3]⟩ st = some [.wrAw 3, .wrRxAddr [0xEA, 0x13, 0x40]] := by decide

/-- V-F11, V-F12. -/
theorem test_encode_length3 :
    emitted ⟨0x40, [0xFF]⟩ (tx3 true) = some [.wrPayload [0x55, 0x40, 0x13, 0xEA, 0x15, 0xBB, 0x6A]] ∧
    reply ⟨0x40, [0xFF]⟩ (tx3 true) = some [0x07] ∧
    emitted ⟨0x40, [0xFF]⟩ (tx3 false) = some [.wrPayload [0x55, 0x40, 0x13, 0xEA, 0x15]] := by decide +kernel

/-- V-F17, the largest frame. -/
theorem test_encode_largest :
    emitted ⟨0x40, bytes19⟩ (both5 st true) = some [.wrPayload [0xB6, 0xF5, 0x78, 0xC8, 0x94, 0xB4, 0x6D, 0x2E, 0xC5,
      0x86, 0x24, 0xE0, 0xFA, 0x71, 0x76, 0x47, 0x1F, 0x5A, 0x2F, 0xAD, 0xF3, 0x7D, 0x4E, 0x88, 0x8E, 0x55]] := by
  decide +kernel

/-- V-F19. -/
theorem test_decode :
    reply ⟨0x50, [0x15]⟩ (both3 true) = some [0xFF] ∧
    (after ⟨0x50, [0x15]⟩ (both3 true)).map (·.rxcrc) = some 0xBB6A := by decide +kernel

/-- V-F22 and V-F23: CRC bytes wrongly included do not fault; with the CRC off `RXCRC` is kept. -/
theorem test_decode_unverified :
    reply ⟨0x50, [0xBC, 0xD0, 0xA3]⟩ (both5 st true) = some [0x00, 0xAC, 0xA3] ∧
    reply ⟨0x50, [0x01]⟩ (both5 st false) = some [0xBD] ∧
    (after ⟨0x50, [0x01]⟩ (both5 st false)).map (·.rxcrc) = some 0 := by decide

/-- P1, step 1. -/
theorem test_setTxid :
    (after ⟨0x60, [0x3C, 0x07, 0x9E, 0x21]⟩ st).map (fun t => (t.txid, t.txidValid)) =
      some (#v[0x3C, 0x07, 0x9E, 0x21], true) := by decide

/-- P6, step 5. -/
theorem test_setAid :
    (after ⟨0x61, [0xA0, 0xB1, 0xC2, 0xD3]⟩ st).map (·.aid) = some #v[0xA0, 0xB1, 0xC2, 0xD3] := by decide

/-- V-H1. -/
theorem test_hopGet :
    reply ⟨0x70, []⟩ idSet = some [0x0F] ∧ reply ⟨0x71, []⟩ idSet = some [0x19] ∧
    reply ⟨0x72, []⟩ idSet = some [0x34] ∧ reply ⟨0x73, []⟩ idSet = some [0x40] := by decide

/-- V-C17, P6 step 6. -/
theorem test_chWrite :
    (after ⟨0x81, [0xF4, 0x01]⟩ st).map (·.ch) = some #v[0, 500, 0, 0, 0, 0] ∧
    latch ⟨0x86, [0xF4, 0x01]⟩ st = some (true, 1, 0x86) := by decide

/-- V-C2. -/
theorem test_pack :
    reply ⟨0x90, []⟩ vc2 = some [0x55, 0x3C, 0x07, 0x9E, 0x21, 0x01, 0x02, 0x03, 0x04, 0xDC, 0x05, 0xD0, 0x07, 0xE2, 0x04,
      0xDC, 0x15, 0x02, 0x00] := by decide

/-- V-C5: the bias wraps. -/
theorem test_pack_wraps :
    reply ⟨0x90, []⟩ { idSet with ch := #v[65535, 64536, 0, 4000, 1000, 334] } =
      some [0x55, 0x3C, 0x07, 0x9E, 0x21, 0xFF, 0xFF, 0xFF, 0xFF, 0x00, 0x00, 0xE8, 0x03, 0xE7, 0x03, 0x88, 0x13, 0x01,
        0x00] := by decide

/-- V-C9. -/
theorem test_unpack :
    reply ⟨0xA0, [0x55, 0x3C, 0x07, 0x9E, 0x21, 0x01, 0x02, 0x03, 0x04, 0xDC, 0x05, 0xD0, 0x07, 0xE2, 0x04, 0xDC, 0x15,
      0x02, 0x00]⟩ st = some [0x55, 0x3C, 0x07, 0x9E, 0x21, 0x01, 0x02, 0x03, 0x04, 0xF4, 0x01, 0xE8, 0x03, 0xFA, 0x00,
        0xF4, 0x01, 0x01, 0x02, 0x00] := by decide

/-- V-C12: fields below 1000 wrap, mode and reserved bytes pass through. -/
theorem test_unpack_wraps :
    reply ⟨0xA0, [0x55, 0x3C, 0x07, 0x9E, 0x21, 0xFF, 0xFF, 0xFF, 0xFF, 0xE7, 0x03, 0x00, 0x00, 0xE8, 0x03, 0xE8, 0x13,
      0x07, 0x09]⟩ st = some [0x55, 0x3C, 0x07, 0x9E, 0x21, 0xFF, 0xFF, 0xFF, 0xFF, 0xFF, 0xFF, 0x18, 0xFC, 0x00, 0x00,
        0x00, 0x00, 0x01, 0x07, 0x09] := by decide

/-- V-C14, V-C15. -/
theorem test_parseReply :
    reply ⟨0xA1, [0, 0, 0, 0, 0, 0xA0, 0xB1, 0xC2, 0xD3, 1, 0, 0, 0, 0, 0, 0, 0, 0, 0]⟩ st =
      some [0x01, 0xA0, 0xB1, 0xC2, 0xD3] ∧
    reply ⟨0xA1, [0, 0, 0, 0, 0, 0xA0, 0xB1, 0xC2, 0xD3, 2, 0, 0, 0, 0, 0, 0, 0, 0, 0]⟩ st =
      some [0x00, 0xA0, 0xB1, 0xC2, 0xD3] := by decide

/-- V-K3. -/
theorem test_status :
    reply ⟨0xF0, []⟩ { both5 st true with txid := #v[1, 2, 3, 4], txidValid := true } =
      some [0x7D, 0x00, 0x01, 0x00] := by decide

/-- V-X16 and P4 step 5: STATUS after a fault, with a stray operand too. -/
theorem test_status_faulted :
    reply ⟨0xF0, []⟩ faulted = some [0x80, 0x01, 0x01, 0x01] ∧
    reply ⟨0xF0, [0x55]⟩ faulted = some [0x80, 0x01, 0x01, 0x01] ∧
    after ⟨0x60, [1, 2, 3, 4]⟩ faulted = some ((({ faulted with host := ⟨[], 1, []⟩ }) : State).respond []) := by
  decide

/-- V-K4. -/
theorem test_rdRxcrc : reply ⟨0xF1, []⟩ { st with rxcrc := 0xBB6A } = some [0xBB, 0x6A] := by decide

/-- V-R3: the order of the two ports decides which snapshot PACK sees; here the producer goes first. -/
theorem test_producer_first :
    (match step (waiting [⟨0x90, []⟩] [⟨0x81, [0x58, 0x02]⟩] idSet) with
      | .next t => some (t.port, t.ch[1], t.producer.responses, t.host.waiting)
      | _ => none) = some (.producer, 600, [[]], [⟨0x90, []⟩]) := by decide

/-- R63: in a host burst, a CH_WRITE of the producer that one command has passed is next. -/
theorem test_chWrite_passed_once :
    (match step (waiting [⟨0x00, []⟩] [⟨0x81, [0x58, 0x02]⟩] { st with arbLeft := 3, arbPassed := some .producer }) with
      | .next t => some (t.port, t.ch[1], t.arbLeft, t.arbPassed)
      | _ => none) = some (.producer, 600, 3, some .host) := by decide

/-- The burst goes on where the passed command is no CH_WRITE, or where the CH_WRITE was not passed yet. -/
theorem test_burst_goes_on :
    (match step (waiting [⟨0x00, []⟩] [⟨0x00, []⟩] { st with arbLeft := 3, arbPassed := some .producer }) with
      | .next t => some (t.port, t.arbLeft, t.arbPassed)
      | _ => none) = some (.host, 2, some .producer) ∧
    (match step (waiting [⟨0x00, []⟩] [⟨0x81, [0x58, 0x02]⟩] { st with arbLeft := 3 }) with
      | .next t => some (t.port, t.arbLeft, t.arbPassed)
      | _ => none) = some (.host, 2, some .producer) := by decide

/-- V-R2: a reset step clears the latch and refuses the command being delivered. -/
theorem test_reset :
    (match step (waiting [⟨0x00, []⟩] [] { faulted with stream := [.wrAw 3], resetHold := 1 }) with
      | .next t => some (t.fault, t.cause, t.stream, t.host, t.resetHold)
      | _ => none) = some (false, 0, [.wrAw 3], ⟨[], 0, [[]]⟩, 0) := by decide

/-- A command is placed and taken in one step. -/
theorem test_withFetchWord :
    (match step (st.withFetchWord 16 0x0E10) with
      | .next t => some (t.crcEn, t.stream, t.host.seq)
      | _ => none) = some (true, [.wrConfig 0x02], 1) := by decide

/-- V-X1, V-X4 to V-X7: the opcode, the operand counts and the address length, each with its cause and opcode byte. -/
theorem test_operand_faults :
    latch ⟨0x01, []⟩ st = some (true, 1, 0x01) ∧ latch ⟨0x00, [1]⟩ st = some (true, 2, 0x00) ∧
    latch ⟨0x10, []⟩ st = some (true, 2, 0x10) ∧ latch ⟨0x23, [1, 2]⟩ st = some (true, 2, 0x23) ∧
    latch ⟨0x20, []⟩ st = some (true, 3, 0x20) ∧ latch ⟨0x26, [1, 2]⟩ st = some (true, 3, 0x26) ∧
    latch ⟨0x27, []⟩ st = some (true, 3, 0x27) := by decide

/-- V-X8 to V-X10, V-X13, V-X14: the later causes, in R171's order. -/
theorem test_later_faults :
    latch ⟨0x40, 0 :: bytes19⟩ st = some (true, 4, 0x40) ∧ latch ⟨0x50, 0 :: bytes19⟩ st = some (true, 4, 0x50) ∧
    latch ⟨0x40, [1]⟩ st = some (true, 5, 0x40) ∧ latch ⟨0x50, [1]⟩ st = some (true, 6, 0x50) ∧
    latch ⟨0x40, bytes19⟩ (both5 (short 21) true) = some (true, 8, 0x40) ∧
    reply ⟨0x40, bytes19⟩ (both5 (short 21) false) = some [0x18] ∧
    latch ⟨0x70, []⟩ st = some (true, 9, 0x70) ∧ latch ⟨0x91, []⟩ st = some (true, 9, 0x91) := by decide

/-- V-X15: the remaining counts. -/
theorem test_count_faults :
    latch ⟨0x70, [0]⟩ st = some (true, 2, 0x70) ∧ latch ⟨0x80, [1]⟩ st = some (true, 2, 0x80) ∧
    latch ⟨0xA0, bytes19.drop 1⟩ st = some (true, 2, 0xA0) ∧ latch ⟨0xA1, bytes19.drop 1⟩ st = some (true, 2, 0xA1) ∧
    latch ⟨0xF0, [1]⟩ st = some (true, 2, 0xF0) ∧ latch ⟨0xF1, [1]⟩ st = some (true, 2, 0xF1) ∧
    latch ⟨0x60, [1, 2, 3]⟩ st = some (true, 2, 0x60) ∧ latch ⟨0x61, [1, 2, 3, 4, 5]⟩ st = some (true, 2, 0x61) := by
  decide

/-! ### Witnesses: states and operands that meet the hypotheses of the statements, clause by clause -/

/-- The state after a command, for the witnesses. -/
def ran (i : Instr) (s : State) : State :=
  match exec i s with
  | .next t => t
  | _ => s

/-- The state after a step. -/
def stepped (s : State) : State :=
  match step s with
  | .next t => t
  | _ => s

/-- The state after the taking of a command. -/
def taken (s : State) : State :=
  match takeCommand s with
  | some (_, s1) => s1
  | none => s

/-- A sound state with both addresses, the identity and some events. -/
def busy : State :=
  { both5 st true with
    txid := #v[0x3C, 0x07, 0x9E, 0x21], txidValid := true, rxcrc := 0xD0A3
    stream := [.wrConfig 0x02, .wrAw 5, .wrTxAddr [0x55, 0x0F, 0x71, 0x0C, 0x00], .wrPayload [1, 2, 3]] }

theorem busy_sound : Safety.Sound busy := by
  refine ⟨by decide, .inr ⟨by decide, by decide, by decide⟩, .inr ⟨by decide, by decide, by decide⟩,
    .inr (.inl ⟨by decide, by decide⟩), .inl ⟨by decide, by decide, by decide⟩, fun h => absurd h (by decide), ?_⟩
  intro e he
  simp only [busy, List.mem_cons, List.not_mem_nil, or_false] at he
  rcases he with rfl | rfl | rfl | rfl <;> simp +decide [Safety.EventSound]

theorem witness_DecodedCommandEncodesBack :
    decode ⟨0x27, [1]⟩ = .ok (.setTxAddr 7 [1]) ∧ decode ⟨0x85, []⟩ = .ok (.chWrite 5 []) ∧
    decode ⟨0x91, []⟩ = .ok (.pack .bind []) ∧ decode ⟨0xF1, bytes19⟩ = .ok (.rdRxcrc bytes19) := by decide

/-- Every row of the map, the rows with a field at both ends of it. -/
theorem witness_DecodeFollowsTheOpcodeMap :
    (0x00 : Byte) &&& 0xFF = 0x00 ∧ (0x10 : Byte) &&& 0xFF = 0x10 ∧ (0x20 : Byte) &&& 0xF8 = 0x20 ∧
    (0x27 : Byte) &&& 0xF8 = 0x20 ∧ (0x30 : Byte) &&& 0xF8 = 0x30 ∧ (0x37 : Byte) &&& 0xF8 = 0x30 ∧
    (0x40 : Byte) &&& 0xFF = 0x40 ∧ (0x50 : Byte) &&& 0xFF = 0x50 ∧ (0x60 : Byte) &&& 0xFF = 0x60 ∧
    (0x61 : Byte) &&& 0xFF = 0x61 ∧ (0x70 : Byte) &&& 0xFC = 0x70 ∧ (0x73 : Byte) &&& 0xFC = 0x70 ∧
    ((0x80 : Byte).extractLsb' 0 3).toNat < 6 ∧ (0x80 : Byte) &&& 0xF8 = 0x80 ∧
    ((0x85 : Byte).extractLsb' 0 3).toNat < 6 ∧ (0x85 : Byte) &&& 0xF8 = 0x80 ∧
    (0x90 : Byte) &&& 0xFE = 0x90 ∧ (0x91 : Byte) &&& 0xFE = 0x90 ∧ (0xA0 : Byte) &&& 0xFF = 0xA0 ∧
    (0xA1 : Byte) &&& 0xFF = 0xA1 ∧ (0xF0 : Byte) &&& 0xFF = 0xF0 ∧ (0xF1 : Byte) &&& 0xFF = 0xF1 := by decide

/-- The latch is clear, and the bytes on the two sides of some ends of the listed ranges. -/
theorem witness_IllegalBytesAreExactlyTheListed :
    st.fault = false ∧ runMessage ⟨0x01, []⟩ st = .next (Safety.afterFault st 1 0x01) ∧
    runMessage ⟨0x86, [1, 2]⟩ st = .next (Safety.afterFault st 1 0x86) ∧
    runMessage ⟨0x87, []⟩ st = .next (Safety.afterFault st 1 0x87) ∧
    runMessage ⟨0xFF, []⟩ st = .next (Safety.afterFault st 1 0xFF) ∧
    decode ⟨0x85, []⟩ = .ok (.chWrite 5 []) ∧ decode ⟨0x27, []⟩ = .ok (.setTxAddr 7 []) :=
  ⟨rfl, rfl, rfl, rfl, rfl, rfl, rfl⟩

/-- An ill-formed command that faults, and a well-formed one that faults with a later cause. -/
theorem witness_OperandFaultsAreIllFormedness :
    st.fault = false ∧
    (Instr.setTxAddr 2 [1, 2]).wellFormed st.params.replyLen = false ∧ (ran (.setTxAddr 2 [1, 2]) st).cause = 3 ∧
    (Instr.encode (0 :: bytes19)).wellFormed st.params.replyLen = false ∧
    (ran (.encode (0 :: bytes19)) st).cause = 4 ∧
    (Instr.encode bytes19).wellFormed st.params.replyLen = true ∧ (ran (.encode bytes19) st).fault = true ∧
    (ran (.encode bytes19) st).cause = 5 := by decide

theorem witness_AssembledMessagesDecode :
    assembleLine 19 "SET_RX_ADDR 5, 1, 2, 3, 4, 5".toList = some [⟨0x35, [1, 2, 3, 4, 5]⟩] ∧
    assembleLine 19 "ENCODE 0xFF".toList = some [⟨0x40, [0xFF]⟩] ∧
    assembleLine 19 "PACK bind".toList = some [⟨0x91, []⟩] := by decide

/-- A legal command waiting on the host port; an illegal byte, with the latch clear and set. -/
theorem witness_StepRunsTheDecodedCommand :
    (waiting [⟨0x10, [0x0E]⟩] [] st).resetHold = 0 ∧
    takeCommand (waiting [⟨0x10, [0x0E]⟩] [] st) =
      some (⟨0x10, [0x0E]⟩, taken (waiting [⟨0x10, [0x0E]⟩] [] st)) ∧
    decode ⟨0x10, [0x0E]⟩ = .ok (.configure [0x0E]) ∧
    takeCommand (waiting [⟨0x86, [1, 2]⟩] [] st) = some (⟨0x86, [1, 2]⟩, taken (waiting [⟨0x86, [1, 2]⟩] [] st)) ∧
    decode ⟨0x86, [1, 2]⟩ = .error (.illegalOpcode 0x86) ∧ (waiting [⟨0x86, [1, 2]⟩] [] st).fault = false ∧
    takeCommand (waiting [] [⟨0x01, []⟩] faulted) = some (⟨0x01, []⟩, taken (waiting [] [⟨0x01, []⟩] faulted)) ∧
    decode ⟨0x01, []⟩ = .error (.illegalOpcode 0x01) ∧ (waiting [] [⟨0x01, []⟩] faulted).fault = true := by decide

theorem witness_TakenCommandIsFirstOfItsPort :
    takeCommand st = none ∧ (takeCommand (waiting [] [⟨0x81, [1, 2]⟩] st)).isSome = true ∧
    (takeCommand (waiting [⟨0x90, []⟩] [⟨0x81, [1, 2]⟩] { st with arbLeft := 1 })).isSome = true := by decide

theorem witness_IdleStepChangesNothing :
    busy.resetHold = 0 ∧ busy.host.waiting = [] ∧ busy.producer.waiting = [] := by decide

/-- The reset input asserted for one step and for two, in a faulted state, with no command waiting and with one. -/
theorem witness_AssertedResetRestoresTheBlock :
    ({ faulted with resetHold := 1 } : State).resetHold ≠ 0 ∧
    takeCommand { faulted with resetHold := 1 } = none ∧
    (waiting [⟨0x00, []⟩] [] { busy with resetHold := 2 }).resetHold ≠ 0 ∧
    (takeCommand (waiting [⟨0x00, []⟩] [] { busy with resetHold := 2 })).isSome = true := by decide

/-- A sound state other than reset with a command waiting, whose step emits. -/
theorem witness_EveryStepKeepsSoundness :
    Safety.Sound (waiting [⟨0x40, bytes19⟩] [] busy) ∧
    step (waiting [⟨0x40, bytes19⟩] [] busy) = .next (stepped (waiting [⟨0x40, bytes19⟩] [] busy)) ∧
    (stepped (waiting [⟨0x40, bytes19⟩] [] busy)).stream.length = 5 :=
  ⟨busy_sound, rfl, by decide⟩

/-- A step that appends two events, one with the latch set, one with the reset input asserted. -/
theorem witness_StreamOnlyGrows :
    step (waiting [⟨0x23, [1, 2, 3]⟩] [] st) = .next (stepped (waiting [⟨0x23, [1, 2, 3]⟩] [] st)) ∧
    (stepped (waiting [⟨0x23, [1, 2, 3]⟩] [] st)).stream.length = 2 ∧
    faulted.fault = true ∧
    step (waiting [⟨0x10, [1]⟩] [] faulted) = .next (stepped (waiting [⟨0x10, [1]⟩] [] faulted)) ∧
    ({ st with resetHold := 1 } : State).resetHold ≠ 0 ∧
    step { st with resetHold := 1 } = .next (stepped { st with resetHold := 1 }) :=
  ⟨rfl, by decide, rfl, rfl, by decide, rfl⟩

theorem witness_OnlyResetLeavesTheFaultedState :
    faulted.fault = true ∧ faulted.resetHold = 0 ∧
    step (waiting [⟨0x60, [1, 2, 3, 4]⟩] [] faulted) = .next (stepped (waiting [⟨0x60, [1, 2, 3, 4]⟩] [] faulted)) ∧
    ({ faulted with resetHold := 1 } : State).fault = true ∧
    ({ faulted with resetHold := 1 } : State).resetHold ≠ 0 ∧
    step { faulted with resetHold := 1 } = .next (stepped { faulted with resetHold := 1 }) :=
  ⟨rfl, rfl, rfl, rfl, by decide, rfl⟩

theorem witness_OneResponseForEachCommand :
    (waiting [⟨0xF0, []⟩] [⟨0x80, [1, 2]⟩] st).resetHold = 0 ∧
    takeCommand (waiting [⟨0xF0, []⟩] [⟨0x80, [1, 2]⟩] st) =
      some (⟨0x80, [1, 2]⟩, taken (waiting [⟨0xF0, []⟩] [⟨0x80, [1, 2]⟩] st)) ∧
    step (waiting [⟨0xF0, []⟩] [⟨0x80, [1, 2]⟩] st) = .next (stepped (waiting [⟨0xF0, []⟩] [⟨0x80, [1, 2]⟩] st)) :=
  ⟨rfl, rfl, rfl⟩

theorem witness_FaultEntryIsPrecise :
    (waiting [⟨0x90, []⟩] [] st).resetHold = 0 ∧ (waiting [⟨0x90, []⟩] [] st).fault = false ∧
    takeCommand (waiting [⟨0x90, []⟩] [] st) = some (⟨0x90, []⟩, taken (waiting [⟨0x90, []⟩] [] st)) ∧
    step (waiting [⟨0x90, []⟩] [] st) = .next (stepped (waiting [⟨0x90, []⟩] [] st)) ∧
    (stepped (waiting [⟨0x90, []⟩] [] st)).fault = true :=
  ⟨rfl, rfl, rfl, rfl, rfl⟩

/-- A refused legal command, a refused illegal byte, and STATUS with a stray operand. -/
theorem witness_LatchRefusesAllButStatus :
    faulted.fault = true ∧ (⟨0x00, []⟩ : Message).opc ≠ 0xF0 ∧ (⟨0x86, [1]⟩ : Message).opc ≠ 0xF0 ∧
    (⟨0xF0, [0x55]⟩ : Message).opc = 0xF0 := by decide

/-- Commands that change each of the registers named, the stream and the latch. -/
theorem witness_RegistersChangeOnlyByTheirCommands :
    (∀ i s, i ∈ [Instr.setTxAddr 3 [1, 2, 3], .encode []] → s = st → exec i s = .next (ran i s)) ∧
    (ran (.setTxAddr 3 [1, 2, 3]) st).addrLen ≠ st.addrLen ∧ (ran (.setTxAddr 3 [1, 2, 3]) st).txAddr ≠ st.txAddr ∧
    (ran (.setTxAddr 3 [1, 2, 3]) st).stream ≠ st.stream ∧
    (ran (.setRxAddr 5 [1, 2, 3, 4, 5]) st).rxaLen ≠ st.rxaLen ∧ (ran (.configure [8]) st).crcEn ≠ st.crcEn ∧
    (ran (.setTxid [1, 2, 3, 4]) st).txidValid ≠ st.txidValid ∧ (ran (.setAid [1, 2, 3, 4]) st).aid ≠ st.aid ∧
    (ran (.chWrite 5 [1, 0]) st).ch ≠ st.ch ∧ (ran (.decode [0x15]) (both3 true)).rxcrc ≠ (both3 true).rxcrc ∧
    (ran (.encode []) st).fault ≠ st.fault := by
  refine ⟨?_, by decide, by decide, by decide, by decide, by decide,
    by decide, by decide, by decide, by decide +kernel, by decide⟩
  intro i s hi hs
  simp only [List.mem_cons, List.not_mem_nil, or_false] at hi
  rcases hi with rfl | rfl <;> rfl

/-- Each of the seven commands, performed, and one refused. -/
theorem witness_ReadingCommandsWriteNoState :
    (ran (.status []) vc2).fault = vc2.fault ∧ (ran (.rdRxcrc []) vc2).fault = vc2.fault ∧
    (ran (.hopGet 3 []) vc2).fault = vc2.fault ∧ (ran (.pack .bind []) vc2).fault = vc2.fault ∧
    (ran (.unpack bytes19) vc2).fault = vc2.fault ∧ (ran (.parseReply bytes19) vc2).fault = vc2.fault ∧
    (ran (.nop []) vc2).fault = vc2.fault ∧ (ran (.nop [1]) faulted).fault = faulted.fault ∧
    exec (.pack .bind []) vc2 = .next (ran (.pack .bind []) vc2) ∧
    exec (.nop [1]) faulted = .next (ran (.nop [1]) faulted) :=
  ⟨rfl, rfl, rfl, rfl, rfl, rfl, rfl, rfl, rfl, rfl⟩

/-- Both ports contested, for either port, with the burst about to end and with two commands of it left. -/
theorem witness_WaitingCommandIsEventuallyTaken :
    (waiting [⟨0x90, []⟩] [⟨0x81, [1, 2]⟩] st).resetHold = 0 ∧
    ((waiting [⟨0x90, []⟩] [⟨0x81, [1, 2]⟩] st).portState .host).waiting ≠ [] ∧
    ((waiting [⟨0x90, []⟩] [⟨0x81, [1, 2]⟩] st).portState .producer).waiting ≠ [] ∧
    ((waiting [⟨0, []⟩, ⟨0, []⟩, ⟨0, []⟩] [⟨0x81, [1, 2]⟩] { st with arbLeft := 2 }).portState .producer).waiting ≠ [] := by
  decide

/-- V-P9 against V-P10 (a payload byte) and V-P11 (an address byte). -/
theorem witness_FrameCrcDetectsOneChangedByte :
    addrSeq cand [0x11, 0x22, 0x33, 0x44, 0x55] ++ scramblePayload cand 5 [0x00] =
      [0xB6, 0xF5, 0x78, 0xC8, 0x94] ++ 0xBC :: [] ∧
    addrSeq cand [0x11, 0x22, 0x33, 0x44, 0x55] ++ scramblePayload cand 5 [0x01] =
      [0xB6, 0xF5, 0x78, 0xC8, 0x94] ++ 0x3C :: [] ∧
    addrSeq cand [0x11, 0x22, 0x33, 0x44, 0x54] ++ scramblePayload cand 5 [0x00] =
      [] ++ 0xB7 :: [0xF5, 0x78, 0xC8, 0x94, 0xBC] ∧
    (0xBC : Byte) ≠ 0x3C ∧ (0xB6 : Byte) ≠ 0xB7 := by decide

theorem witness_MatchedAddressAndItsFrameOrder : (3 ≤ 3 ∧ 3 ≤ 5) ∧ (3 ≤ 5 ∧ 5 ≤ 5) ∧ 0 < 3 ∧ 4 < 5 := by decide

/-- The last payload byte at the greatest length: scramble index 23. -/
theorem witness_PayloadTransformHasItsInverse : 18 < bytes19.length ∧ 5 + 18 < 35 ∧ 0 < bytes19.length := by decide

/-- The smallest and the largest frame, the CRC off and on. -/
theorem witness_FrameLayoutAndLength :
    22 ≤ cand.xorTable.length ∧ ([] : List Byte).length ≤ 19 ∧ bytes19.length ≤ 19 ∧
    (frame cand [0xC1, 0xC2, 0xC3, 0xC4] 4 [] false).length = 4 ∧
    (frame cand [0x11, 0x22, 0x33, 0x44, 0x55] 5 bytes19 true).length = 26 ∧
    (frame cand [0xA1, 0xA2, 0xA3] 3 [] false).length = 4 := by decide

/-- The commands of the register-only forms: the latch clear, and a count that faults. -/
theorem witness_NopOnlyResponds : st.fault = false ∧ ([1] : List Byte) ≠ [] := by decide

theorem witness_ConfigureCapturesCrcEnable :
    st.fault = false ∧ pass.fault = false ∧ ([] : List Byte).length ≠ 1 ∧ ([1, 2] : List Byte).length ≠ 1 := by decide

/-- The lengths on both sides of each end of 3..5, and a count off by one. -/
theorem witness_SetTxAddrStoresTheAddress :
    st.fault = false ∧ pass.fault = false ∧ (2 : BitVec 3) < 3 ∧ 5 < (6 : BitVec 3) ∧ 3 ≤ (3 : BitVec 3) ∧
    (5 : BitVec 3) ≤ 5 ∧ ([1, 2] : List Byte).length ≠ (3 : BitVec 3).toNat ∧
    ([1, 2, 3, 4] : List Byte).length ≠ (5 : BitVec 3).toNat := by decide

theorem witness_SetRxAddrStoresTheAddress :
    busy.fault = false ∧ (0 : BitVec 3) < 3 ∧ 5 < (7 : BitVec 3) ∧ 3 ≤ (5 : BitVec 3) ∧
    ([1, 2, 3, 4, 5, 6] : List Byte).length ≠ (5 : BitVec 3).toNat := by decide

/-- Clause by clause: 20 and 19 operand bytes, passthrough, no address, a length that differs, an index of `XLEN` and of
`XLEN - 1`, the CRC off, and a table entry. -/
theorem witness_EncodeFramesThePayload :
    19 < (0 :: bytes19).length ∧ bytes19.length ≤ 19 ∧ st.fault = false ∧ pass.params.emulate = false ∧
    st.params.emulate = true ∧ st.txaValid = false ∧
    (tx3 true).txaValid = true ∧ ({ tx3 true with addrLen := 5 } : State).txaLen ≠ 5 ∧
    (tx3 true).txaLen = (tx3 true).addrLen ∧ 3 ≤ (tx3 true).addrLen ∧ (tx3 true).addrLen ≤ 5 ∧
    (both5 (short 21) true).crcEn = true ∧
    (both5 (short 21) true).params.xorTable.length ≤ ((both5 (short 21) true).addrLen.toNat - 3) + bytes19.length ∧
    (tx3 false).crcEn = false ∧
    (both5 (short 22) true).params.xorTable[((both5 (short 22) true).addrLen.toNat - 3) + bytes19.length]? =
      some 0x61B1 := by decide

theorem witness_DecodeRecoversThePayload :
    19 < (0 :: bytes19).length ∧ bytes19.length ≤ 19 ∧ st.fault = false ∧ pass.params.emulate = false ∧
    st.params.emulate = true ∧ st.rxaValid = false ∧
    (both3 true).rxaValid = true ∧ ({ both3 true with addrLen := 5 } : State).rxaLen ≠ 5 ∧
    (both3 true).rxaLen = (both3 true).addrLen ∧ 3 ≤ (both3 true).addrLen ∧ (both3 true).addrLen ≤ 5 ∧
    (both5 (short 21) true).crcEn = true ∧
    (both5 (short 21) true).params.xorTable.length ≤ ((both5 (short 21) true).addrLen.toNat - 3) + bytes19.length ∧
    (both3 false).crcEn = false ∧ (both3 true).params.xorTable[((both3 true).addrLen.toNat - 3) + 0]? = some 0 := by
  decide

theorem witness_SetTxidLoadsTheIdentity : st.fault = false ∧ ([1, 2, 3] : List Byte).length ≠ 4 := by decide

theorem witness_SetAidLoadsTheIdentity : st.fault = false ∧ ([1, 2, 3, 4, 5] : List Byte).length ≠ 4 := by decide

theorem witness_HopGetReadsThePlan :
    st.fault = false ∧ st.txidValid = false ∧ idSet.fault = false ∧ idSet.txidValid = true ∧
    ([0] : List Byte) ≠ [] := by decide

theorem witness_ChWriteStoresOneChannel :
    st.fault = false ∧ (0 : Channel) ≠ 5 ∧ ([1] : List Byte).length ≠ 2 ∧ ([1, 2, 3] : List Byte).length ≠ 2 := by decide

theorem witness_PackRespondsThePacket :
    vc2.fault = false ∧ vc2.txidValid = true ∧ st.fault = false ∧ st.txidValid = false ∧ ([1] : List Byte) ≠ [] := by
  decide

theorem witness_UnpackTakesThePacketApart :
    st.fault = false ∧ (bytes19.drop 1).length ≠ 19 ∧ (0 :: bytes19).length ≠ 19 := by decide

/-- The example layout, and a reply whose identity ends at its last byte. -/
theorem witness_ParseReplyReportsTheReply :
    st.fault = false ∧ st.params.ackOff < st.params.replyLen ∧ st.params.aidOff + 4 ≤ st.params.replyLen ∧
    bytes19.length = st.params.replyLen ∧ bytes19[st.params.ackOff]? = some 0x19 ∧
    bytes19[st.params.aidOff]? = some 0x15 ∧ bytes19[st.params.aidOff + 1]? = some 0x16 ∧
    bytes19[st.params.aidOff + 2]? = some 0x17 ∧ bytes19[st.params.aidOff + 3]? = some 0x18 ∧
    (0 :: bytes19).length ≠ st.params.replyLen ∧
    ({ cand with aidOff := 15 } : Params).aidOff + 4 ≤ ({ cand with aidOff := 15 } : Params).replyLen := by decide

theorem witness_StatusReadsTheViews :
    faulted.fault = true ∧ st.fault = false ∧ ([] : List Byte) = [] ∧ ([0x55] : List Byte) ≠ [] := by decide

theorem witness_RdRxcrcReadsTheReceivedCrc : busy.fault = false ∧ ([1] : List Byte) ≠ [] := by decide

theorem witness_PassthroughForwardsUnchanged :
    pass.fault = false ∧ pass.params.emulate = false ∧ 3 ≤ (3 : BitVec 3) ∧ (5 : BitVec 3) ≤ 5 ∧
    ([1, 2, 3] : List Byte).length = (3 : BitVec 3).toNat ∧ ([1, 2, 3, 4, 5] : List Byte).length = (5 : BitVec 3).toNat ∧
    bytes19.length ≤ 19 := by decide

/-- L = 3 and L = 5, n = 0 and n = 19, the CRC off and on, the two addresses equal. -/
theorem witness_EmulationRoundTrip :
    (both3 true).fault = false ∧ (both3 true).params.emulate = true ∧ (both3 true).txaValid = true ∧
    (both3 true).rxaValid = true ∧ (both3 true).txaLen = (both3 true).addrLen ∧
    (both3 true).rxaLen = (both3 true).addrLen ∧ 3 ≤ (both3 true).addrLen ∧ (both5 st true).addrLen ≤ 5 ∧
    (both5 st true).txaLen = (both5 st true).addrLen ∧ (both5 st true).rxaLen = (both5 st true).addrLen ∧
    ([] : List Byte).length ≤ 19 ∧ bytes19.length ≤ 19 ∧ 22 ≤ (short 22).params.xorTable.length ∧
    (both5 st true).crcEn = true ∧ (both5 st false).crcEn = false ∧
    (both3 true).rxAddr.toList.take (both3 true).addrLen.toNat =
      (both3 true).txAddr.toList.take (both3 true).addrLen.toNat := by decide

/-- A clear flip bit (V-C2: rudder 500), and a set one (V-C5: rudder 4000). -/
theorem witness_UnpackInvertsPackExactlyWhenTheBitWasClear :
    ((500 : Word) + 1000).getLsbD cand.flipBit.val = false ∧ ((4000 : Word) + 1000).getLsbD cand.flipBit.val = true ∧
    cand.flipField = 3 := by decide

/-- The threshold itself and one above it. -/
theorem witness_FlipFlagSetsOneBitOfThePacket :
    cand.Legal ∧ (500 : Word) ≤ cand.flipThreshold ∧ cand.flipThreshold < (501 : Word) ∧
    16 < 19 ∧ 15 ≠ 10 + 2 * cand.flipField.val ∧ 10 + 2 * cand.flipField.val = 16 := by decide

theorem witness_PackedPacketFitsAFrame :
    vc2.fault = false ∧
    exec (.encode (marshal cand .data vc2.txid vc2.aid vc2.ch)) vc2 =
      .next (ran (.encode (marshal cand .data vc2.txid vc2.aid vc2.ch)) vc2) ∧
    (ran (.encode (marshal cand .data vc2.txid vc2.aid vc2.ch)) vc2).fault = true :=
  ⟨rfl, rfl, by decide⟩

theorem witness_FullTableNeverFaults :
    Safety.Sound busy ∧ busy.fault = false ∧ exec (.encode bytes19) busy = .next (ran (.encode bytes19) busy) :=
  ⟨busy_sound, rfl, rfl⟩

/-- V-X11: lengths 3 and 5. -/
theorem witness_DifferentAddressLengthsMismatch :
    st.fault = false ∧ st.params.emulate = true ∧ 3 ≤ (3 : BitVec 3) ∧ (3 : BitVec 3) ≤ 5 ∧ 3 ≤ (5 : BitVec 3) ∧
    (5 : BitVec 3) ≤ 5 ∧ (3 : BitVec 3) ≠ 5 ∧ ([1, 2, 3] : List Byte).length = (3 : BitVec 3).toNat ∧
    ([1, 2, 3, 4, 5] : List Byte).length = (5 : BitVec 3).toNat ∧ bytes19.length ≤ 19 := by decide

theorem witness_ReceivedCrcInfluencesNothing :
    (∀ ops, Instr.decode [0x15] ≠ .rdRxcrc ops) ∧
    exec (.decode [0x15]) (both3 false) = .next (ran (.decode [0x15]) (both3 false)) :=
  ⟨nofun, rfl⟩

/-- Two states that differ in the identity, not set, and in the bytes beyond a TX address of length 3. -/
theorem witness_UnwrittenBytesAreNeverObserved :
    Safety.SameButUnread (waiting [⟨0x40, [0xFF]⟩] [] (tx3 true))
      { waiting [⟨0x40, [0xFF]⟩] [] (tx3 true) with
        txAddr := #v[0xA1, 0xA2, 0xA3, 0x77, 0x88], rxAddr := #v[1, 2, 3, 4, 5], txid := #v[9, 9, 9, 9] } ∧
    step (waiting [⟨0x40, [0xFF]⟩] [] (tx3 true)) = .next (stepped (waiting [⟨0x40, [0xFF]⟩] [] (tx3 true))) := by
  refine ⟨⟨rfl, fun _ => by decide, fun h => absurd h (by decide), fun h => absurd h (by decide)⟩, rfl⟩

/-- Texts of numbers in the three ways, of the bytes A1 07 255, and operands at the ends of their ranges. -/
theorem witness_AssemblerLinesStandForTheirMessages :
    Safety.BytesText ["0xA1".toList, "0x07".toList, "255".toList] [0xA1, 0x07, 0xFF] ∧
    Safety.NumberText "3".toList (3 : BitVec 3).toNat ∧ Safety.NumberText "4".toList 4 ∧ Safety.NumberText "0".toList 0 ∧
    Safety.NumberText "1".toList 1 ∧ Safety.NumberText "6".toList 6 ∧ Safety.NumberText "0xffff".toList (0xFFFF : Word).toNat ∧
    "aux2".toList = Safety.channelName 5 ∧ ([0xA1, 0x07, 0xFF] : List Byte).length = (3 : BitVec 3).toNat ∧
    4 ≠ ([0xA1, 0x07, 0xFF] : List Byte).length ∧ bytes19.length = 19 ∧ ';' ∉ "NOP ".toList := by
  refine ⟨.cons (.inr (.inr ⟨0, by decide⟩)) (.cons (.inr (.inl ⟨1, by decide⟩)) (.cons (.inl (by decide)) .nil)),
    .inl (by decide), .inl (by decide), .inl (by decide), .inl (by decide), .inl (by decide),
    .inr (.inl ⟨0, by decide⟩), by decide, by decide, by decide, by decide, by decide⟩

/-- A CH_WRITE on the producer port against a host burst, and one on the host port with a wrong operand count. -/
theorem witness_ChWriteWaitsForAtMostOneCommand :
    (waiting [⟨0x90, []⟩] [⟨0x85, [1, 2]⟩] { st with arbLeft := 3 }).resetHold = 0 ∧
    ((waiting [⟨0x90, []⟩] [⟨0x85, [1, 2]⟩] { st with arbLeft := 3 }).portState .producer).waiting =
      ⟨0x85, [1, 2]⟩ :: [] ∧
    decode ⟨0x85, [1, 2]⟩ = .ok (.chWrite 5 [1, 2]) ∧
    ((waiting [⟨0x80, []⟩, ⟨0x00, []⟩] [] busy).portState .host).waiting = ⟨0x80, []⟩ :: [⟨0x00, []⟩] ∧
    decode ⟨0x80, []⟩ = .ok (.chWrite 0 []) := by decide

end Sys2Proof.Tests
end

/-! PROOFS. The invariant `Safety.Sound` holds after reset and is kept by every step: first what keeps it among the
operations that commands share, then each command, then the step. -/
section
namespace Sys2Proof

open Machine

/-! ### Operations that leave the registers alone -/

/-- A response writes no register. -/
theorem Machine.State.respond_sameRegisters (s : State) (bs : List Byte) : Safety.SameRegisters s (s.respond bs) := by
  simp [Safety.SameRegisters]

/-- The taking of a command writes no register, emits nothing and leaves the reset input as it was. -/
theorem Machine.takeCommand_frame {s s1 : State} {m : Message} (h : takeCommand s = some (m, s1)) :
    Safety.SameRegisters s s1 ∧ s1.stream = s.stream ∧ s1.resetHold = s.resetHold := by
  obtain ⟨p, rest, ap, al, ai, ao, -, -, rfl⟩ := takeCommand_some h
  simp [Safety.SameRegisters]

/-- The invariant is about the registers, the parameters and the stream only. -/
theorem Safety.Sound.of_sameRegisters {s t : State} (hs : Safety.Sound s) (hr : Safety.SameRegisters s t)
    (hst : t.stream = s.stream) : Safety.Sound t := by
  obtain ⟨hparams, haddrLen, -, htxaLen, htxaValid, -, hrxaLen, hrxaValid, -, -, -, -, -, hrxcrc, hfault, hcause,
    hfopc⟩ := hr
  simpa only [Safety.Sound, Safety.AddrLenSound, Safety.LatchSound, hparams, haddrLen, htxaLen, htxaValid, hrxaLen,
    hrxaValid, hrxcrc, hfault, hcause, hfopc, hst] using hs

theorem Safety.Sound.respond {s : State} (hs : Safety.Sound s) (bs : List Byte) : Safety.Sound (s.respond bs) :=
  hs.of_sameRegisters (s.respond_sameRegisters bs) (s.respond_stream bs)

theorem Safety.Sound.takeCommand {s s1 : State} {m : Message} (hs : Safety.Sound s)
    (h : takeCommand s = some (m, s1)) : Safety.Sound s1 := by
  obtain ⟨hregs, hstream, -⟩ := takeCommand_frame h
  exact hs.of_sameRegisters hregs hstream

/-- The invariant asks nothing of `CRC_EN`, of the identities and of the channels. -/
theorem Safety.Sound.writeUnconstrained {s : State} (hs : Safety.Sound s) (crcEn : Bool) (txid : Vector Byte 4)
    (txidValid : Bool) (aid : Vector Byte 4) (ch : Vector Word 6) :
    Safety.Sound { s with crcEn := crcEn, txid := txid, txidValid := txidValid, aid := aid, ch := ch } :=
  hs

/-! ### Operations that write what the invariant speaks of -/

theorem Safety.Sound.emit {s : State} {e : Event} (hs : Safety.Sound s) (he : Safety.EventSound s.params e) :
    Safety.Sound (s.emit e) := by
  obtain ⟨hlegal, htx, hrx, haddr, hlatch, hcrc, hstream⟩ := hs
  refine ⟨hlegal, htx, hrx, haddr, hlatch, hcrc, fun e' he' => ?_⟩
  rcases List.mem_append.mp he' with hold | hnew
  · exact hstream e' hold
  · rw [List.mem_singleton.mp hnew]
    exact he

/-- A fault entry records a cause of R170, whose codes are 1 to 9. -/
theorem Safety.Sound.faultEntry {s : State} (hs : Safety.Sound s) (c : Cause) (opc : Byte) :
    Safety.Sound (faultEntry c opc s) := by
  obtain ⟨hlegal, htx, hrx, haddr, -, hcrc, hstream⟩ := hs
  have hlatched : Safety.Sound { s with fault := true, cause := c.code, fopc := opc } :=
    ⟨hlegal, htx, hrx, haddr, .inr ⟨rfl, c.code_range⟩, hcrc, hstream⟩
  exact hlatched.respond []

/-- The registers after a reset meet the invariant; what stays over it are the parameters and the stream. -/
theorem Machine.resetBlock_sound {s : State} (hlegal : s.params.Legal)
    (hstream : ∀ e ∈ s.stream, Safety.EventSound s.params e) : Safety.Sound (resetBlock s) :=
  ⟨hlegal, .inl ⟨rfl, rfl⟩, .inl ⟨rfl, rfl⟩, .inl ⟨rfl, rfl, rfl⟩, .inl ⟨rfl, rfl, rfl⟩, fun _ => rfl, hstream⟩

theorem Safety.Sound.resetBlock {s : State} (hs : Safety.Sound s) : Safety.Sound (resetBlock s) := by
  obtain ⟨hlegal, -, -, -, -, -, hstream⟩ := hs
  exact resetBlock_sound hlegal hstream

theorem Safety.Sound.resetStep {s : State} (hs : Safety.Sound s) : Safety.Sound (resetStep s) := by
  rcases resetStep_cases s with ⟨-, h⟩ | ⟨m, s1, htake, h⟩
  · exact h ▸ hs.resetBlock
  · exact h ▸ ((hs.takeCommand htake).respond []).resetBlock

/-- The state after reset is one that a reset gives back. -/
theorem Machine.resetBlock_reset : resetBlock State.reset = State.reset := rfl

/-- Settles O15: the registers are those of any reset, the parameters are legal by construction and the stream is
empty. -/
theorem resetIsSound : Obligations.ResetIsSound := by
  unfold Obligations.ResetIsSound
  rw [← resetBlock_reset]
  exact resetBlock_sound Config.built.legal fun _ he => nomatch he

/-! ### The end of a command -/

/-- The result of a command's checks and effect, where an effect that is performed ends in a sound state. -/
inductive SoundResult : Except Cause State → Prop
  | ok {t : State} (ht : Safety.Sound t) : SoundResult (.ok t)
  | error (c : Cause) : SoundResult (.error c)

theorem SoundResult.of_ok {r : Except Cause State} (h : ∀ t, r = .ok t → Safety.Sound t) : SoundResult r := by
  cases r with
  | ok t => exact .ok (h t rfl)
  | error c => exact .error c

/-- A command with a sound result ends in a sound state: refused, performed or faulted. -/
theorem Safety.Sound.complete {s t : State} {opc : Byte} {r : Except Cause State} (hs : Safety.Sound s)
    (hr : SoundResult r) (h : complete opc s r = .next t) : Safety.Sound t := by
  obtain rfl := complete_eq_next.mp h
  rcases settle_cases opc s r with ⟨-, e⟩ | ⟨-, u, hok, e⟩ | ⟨-, c, -, e⟩ <;> rw [e]
  · exact hs.respond []
  · subst hok
    cases hr with
    | ok hu => exact hu
  · exact hs.faultEntry c opc

/-- A performed SET_TX_ADDR or SET_RX_ADDR has passed the checks on its length and operand count. -/
theorem SoundResult.checkAddr {len : BitVec 3} {ops : List Byte} {t : State}
    (ht : 3 ≤ len → len ≤ 5 → ops.length = len.toNat → Safety.Sound t) : SoundResult (checkAddr len ops t) := by
  refine .of_ok fun u hu => ?_
  obtain ⟨rfl, hmin, hmax, hcount⟩ := checkAddr_ok hu
  exact ht hmin hmax hcount

/-- A performed ENCODE or DECODE has, in emulation, a valid address of the length `ADDR_LEN`. -/
theorem SoundResult.checkFraming {s t : State} {valid : Bool} {len : BitVec 3} {missing : Cause} {n : Nat}
    (ht : valid = true → len = s.addrLen → Safety.Sound t) : SoundResult (checkFraming s valid len missing n t) := by
  refine .of_ok fun u hu => ?_
  obtain ⟨rfl, hvalid, hlen, -⟩ := checkFraming_ok hu
  exact ht hvalid hlen

/-! ### The payloads of the events -/

/-- A valid address is at most 5 bytes long. -/
theorem Safety.AddrSound.len_le_five {valid : Bool} {len : BitVec 3} (h : Safety.AddrSound valid len)
    (hvalid : valid = true) : len ≤ 5 := by
  rcases h with ⟨hinvalid, -⟩ | ⟨-, -, hmax⟩
  · simp [hvalid] at hinvalid
  · exact hmax

theorem Safety.eventSound_wrAw {p : Params} {len : BitVec 3} : Safety.EventSound p (.wrAw len) ↔ 3 ≤ len ∧ len ≤ 5 :=
  .rfl

theorem Safety.eventSound_wrPayload {p : Params} {bs : List Byte} :
    Safety.EventSound p (.wrPayload bs) ↔ bs.length ≤ 26 :=
  .rfl

/-- A hardware preamble fills the five-byte address register (R104). -/
@[simp] theorem Machine.hwPreamble_length (p : Params) (len : Nat) : (hwPreamble p len).length = 5 := by
  unfold hwPreamble
  split <;> simp

@[simp] theorem Machine.droppedPreamble_length (p : Params) (len : Nat) :
    (droppedPreamble p len).length = if len < 4 then 1 else 0 := by
  unfold droppedPreamble
  split <;> rfl

/-- The length of a frame (R105): the dropped preamble byte, the address, the payload and the CRC. -/
theorem Machine.frame_length (p : Params) (a : List Byte) (len : Nat) (payload : List Byte) (ce : Bool) :
    (frame p a len payload ce).length =
      (if len < 4 then 1 else 0) + a.length + payload.length + (if ce then 2 else 0) := by
  cases ce <;> simp [frame, Nat.add_assoc]

/-- The longest frame has a five-byte address, 19 payload bytes and a CRC. -/
theorem Machine.frame_length_le (p : Params) (reg : Vector Byte 5) {len : BitVec 3} {payload : List Byte} (ce : Bool)
    (hlen : len ≤ 5) (hpayload : payload.length ≤ 19) :
    (frame p (readAddr reg len) len.toNat payload ce).length ≤ 26 := by
  have hlenNat : len.toNat ≤ 5 := by bv_omega
  rw [frame_length, readAddr_length]
  split <;> split <;> omega

/-- In emulation the forwarded config byte has lost every CRC-enable bit, for R8 has `CFG_CLEAR_MASK` cover
`CFG_CRC_MASK` (R107). -/
theorem Safety.eventSound_forwardedConfig {p : Params} (hlegal : p.Legal) (cfg : Byte) :
    Safety.EventSound p (.wrConfig (forwardedConfig p cfg)) := by
  obtain ⟨-, -, -, -, -, -, -, -, -, -, -, hcover⟩ := hlegal
  intro hemu
  calc forwardedConfig p cfg &&& p.cfgCrcMask
      = cfg &&& (p.cfgCrcMask &&& ~~~p.cfgClearMask) := by
        rw [forwardedConfig, if_pos hemu, BitVec.and_assoc, BitVec.and_comm p.cfgCrcMask]
    _ = 0 := by rw [hcover]; exact BitVec.and_zero

/-- SET_TX_ADDR writes a whole preamble in emulation and the address itself in passthrough (R108). -/
theorem Safety.eventSound_txRegisterBytes (p : Params) {a : List Byte} {len : Nat} (hmin : 3 ≤ a.length)
    (hmax : a.length ≤ 5) : Safety.EventSound p (.wrTxAddr (txRegisterBytes p a len)) := by
  cases hemu : p.emulate <;> simp [Safety.EventSound, txRegisterBytes, hemu, hmin, hmax]

/-- SET_RX_ADDR writes as many bytes as the address has, in both modes (R109). -/
theorem Safety.eventSound_rxRegisterBytes (p : Params) {a : List Byte} (hmin : 3 ≤ a.length) (hmax : a.length ≤ 5) :
    Safety.EventSound p (.wrRxAddr (rxRegisterBytes p a)) := by
  cases hemu : p.emulate <;> simp [Safety.EventSound, rxRegisterBytes, hemu, hmin, hmax]

/-! ### The commands that write no register of the invariant -/

section
variable {s t : State} {ops : List Byte}

theorem Safety.Sound.execNop (hs : Safety.Sound s) (h : execNop ops s = .next t) : Safety.Sound t := by
  refine hs.complete ?_ h
  split
  · exact .ok (hs.respond _)
  · exact .error _

theorem Safety.Sound.execSetTxid (hs : Safety.Sound s) (h : execSetTxid ops s = .next t) : Safety.Sound t := by
  refine hs.complete ?_ h
  split
  · exact .ok ((hs.writeUnconstrained _ _ _ _ _).respond _)
  · exact .error _

theorem Safety.Sound.execSetAid (hs : Safety.Sound s) (h : execSetAid ops s = .next t) : Safety.Sound t := by
  refine hs.complete ?_ h
  split
  · exact .ok ((hs.writeUnconstrained _ _ _ _ _).respond _)
  · exact .error _

theorem Safety.Sound.execHopGet {k : BitVec 2} (hs : Safety.Sound s) (h : execHopGet k ops s = .next t) :
    Safety.Sound t := by
  refine hs.complete ?_ h
  split
  · split
    · exact .error _
    · exact .ok (hs.respond _)
  · exact .error _

theorem Safety.Sound.execChWrite {c : Channel} (hs : Safety.Sound s) (h : execChWrite c ops s = .next t) :
    Safety.Sound t := by
  refine hs.complete ?_ h
  split
  · exact .ok ((hs.writeUnconstrained _ _ _ _ _).respond _)
  · exact .error _

theorem Safety.Sound.execPack {ty : PacketType} (hs : Safety.Sound s) (h : execPack ty ops s = .next t) :
    Safety.Sound t := by
  refine hs.complete ?_ h
  split
  · split
    · exact .error _
    · exact .ok (hs.respond _)
  · exact .error _

theorem Safety.Sound.execUnpack (hs : Safety.Sound s) (h : execUnpack ops s = .next t) : Safety.Sound t := by
  refine hs.complete ?_ h
  split
  · exact .error _
  · exact .ok (hs.respond _)

theorem Safety.Sound.execParseReply (hs : Safety.Sound s) (h : execParseReply ops s = .next t) : Safety.Sound t := by
  refine hs.complete ?_ h
  split
  · exact .error _
  · exact .ok (hs.respond _)

/-- STATUS alone is performed while the latch is set, and with a clear latch it checks its operands (R161, R175). -/
theorem Safety.Sound.execStatus (hs : Safety.Sound s) (h : execStatus ops s = .next t) : Safety.Sound t := by
  simp only [Machine.execStatus, Host.Outcome.next.injEq] at h
  subst h
  split
  · exact hs.respond _
  · split
    · exact hs.respond _
    · exact hs.faultEntry _ _

theorem Safety.Sound.execRdRxcrc (hs : Safety.Sound s) (h : execRdRxcrc ops s = .next t) : Safety.Sound t := by
  refine hs.complete ?_ h
  split
  · exact .ok (hs.respond _)
  · exact .error _

/-! ### The framing commands -/

theorem Safety.Sound.execConfigure (hs : Safety.Sound s) (h : execConfigure ops s = .next t) : Safety.Sound t := by
  refine hs.complete ?_ h
  split
  · rename_i cfg
    have hwritten : Safety.Sound { s with crcEn := cfg &&& s.params.cfgCrcMask != 0 } :=
      hs.writeUnconstrained _ _ _ _ _
    obtain ⟨hlegal, -⟩ := hs
    exact .ok ((hwritten.emit (Safety.eventSound_forwardedConfig hlegal cfg)).respond _)
  · exact .error _

/-- After SET_TX_ADDR the TX address is valid with a legal length, which is `ADDR_LEN`. -/
theorem Safety.Sound.execSetTxAddr {len : BitVec 3} (hs : Safety.Sound s) (h : execSetTxAddr len ops s = .next t) :
    Safety.Sound t := by
  refine hs.complete (.checkAddr fun hmin hmax hcount => ?_) h
  obtain ⟨hlegal, -, hrx, -, hlatch, hcrc, hstream⟩ := hs
  have hset : Safety.Sound
      { s with txAddr := writeAddr s.txAddr ops, txaLen := len, txaValid := true, addrLen := len } :=
    ⟨hlegal, .inr ⟨rfl, hmin, hmax⟩, hrx, .inr (.inl ⟨rfl, rfl⟩), hlatch, hcrc, hstream⟩
  have hbytes : Safety.EventSound s.params (.wrTxAddr (txRegisterBytes s.params ops len.toNat)) :=
    Safety.eventSound_txRegisterBytes s.params (by bv_omega) (by bv_omega)
  exact ((hset.emit (Safety.eventSound_wrAw.mpr ⟨hmin, hmax⟩)).emit hbytes).respond []

/-- After SET_RX_ADDR the RX address is valid with a legal length, which is `ADDR_LEN`. -/
theorem Safety.Sound.execSetRxAddr {len : BitVec 3} (hs : Safety.Sound s) (h : execSetRxAddr len ops s = .next t) :
    Safety.Sound t := by
  refine hs.complete (.checkAddr fun hmin hmax hcount => ?_) h
  obtain ⟨hlegal, htx, -, -, hlatch, hcrc, hstream⟩ := hs
  have hset : Safety.Sound
      { s with rxAddr := writeAddr s.rxAddr ops, rxaLen := len, rxaValid := true, addrLen := len } :=
    ⟨hlegal, htx, .inr ⟨rfl, hmin, hmax⟩, .inr (.inr ⟨rfl, rfl⟩), hlatch, hcrc, hstream⟩
  have hbytes : Safety.EventSound s.params (.wrRxAddr (rxRegisterBytes s.params ops)) :=
    Safety.eventSound_rxRegisterBytes s.params (by bv_omega) (by bv_omega)
  exact ((hset.emit (Safety.eventSound_wrAw.mpr ⟨hmin, hmax⟩)).emit hbytes).respond []

/-- A payload of at most 26 bytes may be handed to the driver. -/
theorem Safety.Sound.sendPayload {f : List Byte} (hs : Safety.Sound s) (hf : f.length ≤ 26) :
    Safety.Sound (sendPayload s f) :=
  Safety.Sound.respond (hs.emit (Safety.eventSound_wrPayload.mpr hf)) _

/-- ENCODE sends a frame of at most 26 bytes in emulation, and the payload of at most 19 in passthrough. -/
theorem Safety.Sound.execEncode (hs : Safety.Sound s) (h : execEncode ops s = .next t) : Safety.Sound t := by
  refine hs.complete ?_ h
  split
  · exact .error _
  · rename_i hlong
    have hpayload : ops.length ≤ 19 := Nat.le_of_not_lt hlong
    split
    · refine .checkFraming fun hvalid hlen => hs.sendPayload ?_
      obtain ⟨-, htx, -⟩ := hs
      exact frame_length_le _ _ _ (hlen ▸ htx.len_le_five hvalid) hpayload
    · exact .ok (hs.sendPayload (by omega))

/-- DECODE writes `RXCRC` in emulation only. -/
theorem Safety.Sound.execDecode (hs : Safety.Sound s) (h : execDecode ops s = .next t) : Safety.Sound t := by
  refine hs.complete ?_ h
  split
  · exact .error _
  · split
    · rename_i hemu
      refine .checkFraming fun _ _ => ?_
      obtain ⟨hlegal, htx, hrx, haddr, hlatch, -, hstream⟩ := hs
      have hwritten : Safety.Sound { s with rxcrc := receivedCrc s ops } :=
        ⟨hlegal, htx, hrx, haddr, hlatch, fun hpass => absurd (hpass.symm.trans hemu) Bool.false_ne_true, hstream⟩
      exact hwritten.respond _
    · exact .ok (hs.respond _)

end

/-! ### The step -/

/-- Every command keeps the invariant. -/
theorem Safety.Sound.exec {s t : State} {i : Instr} (hs : Safety.Sound s) (h : exec i s = .next t) :
    Safety.Sound t := by
  cases i with
  | nop ops => exact hs.execNop h
  | configure ops => exact hs.execConfigure h
  | setTxAddr len ops => exact hs.execSetTxAddr h
  | setRxAddr len ops => exact hs.execSetRxAddr h
  | encode ops => exact hs.execEncode h
  | decode ops => exact hs.execDecode h
  | setTxid ops => exact hs.execSetTxid h
  | setAid ops => exact hs.execSetAid h
  | hopGet k ops => exact hs.execHopGet h
  | chWrite c ops => exact hs.execChWrite h
  | pack ty ops => exact hs.execPack h
  | unpack ops => exact hs.execUnpack h
  | parseReply ops => exact hs.execParseReply h
  | status ops => exact hs.execStatus h
  | rdRxcrc ops => exact hs.execRdRxcrc h

/-- Every message keeps the invariant, one with an illegal opcode byte included. -/
theorem Safety.Sound.runMessage {s t : State} {m : Message} (hs : Safety.Sound s) (h : runMessage m s = .next t) :
    Safety.Sound t := by
  rcases runMessage_cases m s with ⟨i, -, hrun⟩ | ⟨opc, -, hrun⟩
  · exact hs.exec (hrun ▸ h)
  · exact hs.complete (.error _) (hrun ▸ h)

/-- Settles O16, by the three kinds of step: reset, idle, and the running of one taken message. -/
theorem everyStepKeepsSoundness : Obligations.EveryStepKeepsSoundness := by
  unfold Obligations.EveryStepKeepsSoundness
  intro s t hs hstep
  rcases step_cases hstep with ⟨-, rfl⟩ | ⟨-, -, rfl⟩ | ⟨-, m, s1, htake, hrun⟩
  · exact hs.resetStep
  · exact hs
  · exact (hs.takeCommand htake).runMessage hrun

end Sys2Proof
end

/-! PROOFS. The taking of a command, the placing of one for the next step, and the values of the reset state. -/
section
namespace Sys2Proof

open Machine

/-! ### The taking of a command -/

/-- The command taken heads the queue of the port it is then served on, whose sequence index advances; the responses
of that port and the whole of the other stay. -/
theorem Machine.takeCommand_ports {s s1 : State} {m : Message} (h : takeCommand s = some (m, s1)) :
    (s.portState s1.port).waiting = m :: (s1.portState s1.port).waiting ∧
    (s1.portState s1.port).seq = (s.portState s1.port).seq + 1 ∧
    (s1.portState s1.port).responses = (s.portState s1.port).responses ∧
    s1.portState s1.port.other = s.portState s1.port.other := by
  obtain ⟨p, rest, ap, al, ai, ao, -, hwaiting, rfl⟩ := takeCommand_some h
  cases p <;> exact ⟨hwaiting, rfl, rfl, rfl⟩

/-- Settles O9, from what a taking does to the ports and that it leaves the rest alone. -/
theorem takenCommandIsFirstOfItsPort : Obligations.TakenCommandIsFirstOfItsPort := by
  unfold Obligations.TakenCommandIsFirstOfItsPort
  intro s
  refine ⟨takeCommand_none, fun m s1 htake => ?_⟩
  obtain ⟨hwaiting, hseq, hresponses, hother⟩ := takeCommand_ports htake
  exact ⟨hwaiting, hseq, hresponses, hother, takeCommand_frame htake⟩

/-! ### The placing of a command -/

/-- With no CH_WRITE passed, a contested choice is the turn. -/
theorem Machine.contestedChoice_of_not_passed {s : State} (h : s.arbPassed = none) :
    contestedChoice s = burstChoice s := by
  rcases contestedChoice_cases s with e | ⟨p, howed, -, -⟩
  · exact e
  · simp [State.owedChWrite, h] at howed

/-- A running burst keeps the turn at its port. -/
theorem Machine.burstChoice_of_running {s : State} (h : s.arbLeft ≠ 0) : (burstChoice s).1 = s.arbPort := by
  simp [burstChoice, h]

/-- A message placed first is chosen: it waits alone, or the burst it is contested in is the host's. -/
theorem Machine.choosePort_placeFirst (m : Message) (s : State) :
    ∃ s1, choosePort (placeFirst m s) = some (.host, s1) := by
  cases hp : s.producer.waiting with
  | nil => exact ⟨{ placeFirst m s with arbPassed := none }, by simp [choosePort, placeFirst, hp]⟩
  | cons m' rest =>
    have hpassed : (placeFirst m s).arbPassed = none := by simp [placeFirst, hp]
    have hrunning : (placeFirst m s).arbLeft ≠ 0 := by simp [placeFirst, hp]
    have hport : (placeFirst m s).arbPort = .host := by simp [placeFirst, hp]
    have hchoice : (contestedChoice (placeFirst m s)).1 = .host := by
      rw [contestedChoice_of_not_passed hpassed, burstChoice_of_running hrunning, hport]
    have hhost : (placeFirst m s).host.waiting = m :: s.host.waiting := rfl
    have hproducer : (placeFirst m s).producer.waiting = m' :: rest := hp
    exact ⟨_, by rw [choosePort, hhost, hproducer]; simp only [hchoice]; rfl⟩

/-- A message placed first is taken next, from the host port. -/
theorem Machine.takeCommand_placeFirst (m : Message) (s : State) :
    ∃ s1, takeCommand (placeFirst m s) = some (m, s1) ∧ s1.port = .host := by
  obtain ⟨s2, hchoose⟩ := choosePort_placeFirst m s
  cases htake : takeCommand (placeFirst m s) with
  | none => simp [takeCommand_none, placeFirst] at htake
  | some r =>
    obtain ⟨m', s1⟩ := r
    obtain ⟨p, rest, ap, al, ai, ao, hchoose', hwaiting, rfl⟩ := takeCommand_some htake
    obtain rfl : Port.host = p := by simpa using congrArg (Option.map Prod.fst) (hchoose.symm.trans hchoose')
    obtain ⟨rfl, -⟩ : m = m' ∧ s.host.waiting = rest := by simpa [State.portState, placeFirst] using hwaiting
    exact ⟨_, rfl, rfl⟩

/-- Settles O10: the word's message is placed first in line at the host port. -/
theorem placedWordIsTakenNext : Obligations.PlacedWordIsTakenNext := by
  unfold Obligations.PlacedWordIsTakenNext
  intro s nbits w
  exact ⟨rfl, takeCommand_placeFirst _ s⟩

/-! ### The reset state -/

/-- `CAPS` reads the framing mode (R36). -/
theorem Machine.capsByte_eq (s : State) : capsByte s = if s.params.emulate then 0x01 else 0x00 := by
  cases h : s.params.emulate <;> simp [capsByte, h]

/-- Settles O13: the registers by the definition of the state, `CAPS` by what it reads in each framing mode. -/
theorem resetStateHoldsTheResetValues : Obligations.ResetStateHoldsTheResetValues := by
  unfold Obligations.ResetStateHoldsTheResetValues
  exact ⟨rfl, rfl, rfl, rfl, rfl, rfl, rfl, rfl, rfl, rfl, rfl, rfl, rfl, rfl, rfl, capsByte_eq _, rfl, rfl, rfl⟩

end Sys2Proof
end

/-! PROOFS. What every command does besides writing registers: it appends its events to the stream and one response to
the port being served. From it, that every step goes on, what it appends and which port it answers. -/
section
namespace Sys2Proof

open Machine

/-! ### The answer to a command -/

/-- The effect of a command before its response: the events `es` are emitted, and the parameters and the ports are as
before. -/
structure Machine.Emits (s u : State) (es : List Event) : Prop where
  params : u.params = s.params
  host : u.host = s.host
  producer : u.producer = s.producer
  port : u.port = s.port
  stream : u.stream = s.stream ++ es

theorem Machine.Emits.refl (s : State) : Emits s s [] := ⟨rfl, rfl, rfl, rfl, by simp⟩

/-- A register write that emits nothing. -/
theorem Machine.emits_of_write {s u : State} (hparams : u.params = s.params) (hhost : u.host = s.host)
    (hproducer : u.producer = s.producer) (hport : u.port = s.port) (hstream : u.stream = s.stream) : Emits s u [] :=
  ⟨hparams, hhost, hproducer, hport, by simp [hstream]⟩

theorem Machine.Emits.emit {s u : State} {es : List Event} {e : Event} (h : Emits s u es) :
    Emits s (u.emit e) (es ++ [e]) := by
  obtain ⟨hparams, hhost, hproducer, hport, hstream⟩ := h
  exact ⟨hparams, hhost, hproducer, hport, by simp [hstream]⟩

theorem Machine.Emits.portState {s u : State} {es : List Event} (h : Emits s u es) (p : Port) :
    u.portState p = s.portState p := by
  cases p
  · exact h.host
  · exact h.producer

/-- The result of a command's checks and effect, where an effect that is performed emits at most two events and ends in
one response. -/
inductive AnswerResult (s : State) : Except Cause State → Prop
  | ok {u : State} {es : List Event} {bs : List Byte} (hu : Emits s u es) (hes : es.length ≤ 2) :
      AnswerResult s (.ok (u.respond bs))
  | error (c : Cause) : AnswerResult s (.error c)

/-- The outcome of a command: it goes on to a state with at most two events more, none if the latch was set, and one
response. -/
def Machine.Answers (s : State) (o : Host.Outcome State Fault Refusal) : Prop :=
  ∃ u es bs, o = .next (u.respond bs) ∧ Emits s u es ∧ es.length ≤ 2 ∧ (s.fault = true → es = [])

theorem Machine.answers_respond (s : State) (bs : List Byte) : Answers s (.next (s.respond bs)) :=
  ⟨s, [], bs, rfl, .refl s, by simp, fun _ => rfl⟩

/-- A fault entry emits nothing and responds nothing. -/
theorem Machine.answers_faultEntry (s : State) (c : Cause) (opc : Byte) : Answers s (.next (faultEntry c opc s)) :=
  ⟨{ s with fault := true, cause := c.code, fopc := opc }, [], [], rfl, ⟨rfl, rfl, rfl, rfl, by simp⟩, by simp,
    fun _ => rfl⟩

/-- A command ends with one response: refused, performed or faulted. -/
theorem AnswerResult.complete {s : State} {r : Except Cause State} (hr : AnswerResult s r) (opc : Byte) :
    Answers s (complete opc s r) := by
  unfold Machine.complete
  rcases settle_cases opc s r with ⟨-, e⟩ | ⟨hclear, t, rfl, e⟩ | ⟨-, c, -, e⟩ <;> rw [e]
  · exact answers_respond s []
  · cases hr with
    | ok hu hes => exact ⟨_, _, _, rfl, hu, hes, fun hset => by simp [hclear] at hset⟩
  · exact answers_faultEntry s c opc

/-- A command whose whole effect is its response. -/
theorem AnswerResult.respond (s : State) (bs : List Byte) : AnswerResult s (.ok (s.respond bs)) :=
  .ok (.refl s) (by simp)

/-- A performed command has passed the checks on an address length. -/
theorem AnswerResult.checkAddr {s t : State} {len : BitVec 3} {ops : List Byte} (ht : AnswerResult s (.ok t)) :
    AnswerResult s (checkAddr len ops t) := by
  cases h : Machine.checkAddr len ops t with
  | ok u =>
    obtain ⟨rfl, -⟩ := checkAddr_ok h
    exact ht
  | error c => exact .error c

/-- A performed command has passed the framing checks. -/
theorem AnswerResult.checkFraming {s t : State} {valid : Bool} {len : BitVec 3} {missing : Cause} {n : Nat}
    (ht : AnswerResult s (.ok t)) : AnswerResult s (checkFraming s valid len missing n t) := by
  cases h : Machine.checkFraming s valid len missing n t with
  | ok u =>
    obtain ⟨rfl, -⟩ := checkFraming_ok h
    exact ht
  | error c => exact .error c

/-- A payload handed to the driver is one event. -/
theorem AnswerResult.sendPayload (s : State) (f : List Byte) : AnswerResult s (.ok (sendPayload s f)) :=
  .ok (Emits.refl s).emit (by simp)

/-- Every command answers. -/
theorem Machine.exec_answers (i : Instr) (s : State) : Answers s (exec i s) := by
  cases i with
  | nop ops =>
    refine AnswerResult.complete ?_ _
    split
    · exact .respond s _
    · exact .error _
  | configure ops =>
    refine AnswerResult.complete ?_ _
    split
    · exact .ok (.emit (emits_of_write rfl rfl rfl rfl rfl)) (by simp)
    · exact .error _
  | setTxAddr len ops =>
    refine AnswerResult.complete (.checkAddr ?_) _
    exact .ok (.emit (.emit (emits_of_write rfl rfl rfl rfl rfl))) (by simp)
  | setRxAddr len ops =>
    refine AnswerResult.complete (.checkAddr ?_) _
    exact .ok (.emit (.emit (emits_of_write rfl rfl rfl rfl rfl))) (by simp)
  | encode ops =>
    refine AnswerResult.complete ?_ _
    split
    · exact .error _
    · split
      · exact .checkFraming (.sendPayload s _)
      · exact .sendPayload s _
  | decode ops =>
    refine AnswerResult.complete ?_ _
    split
    · exact .error _
    · split
      · exact .checkFraming (.ok (emits_of_write rfl rfl rfl rfl rfl) (by simp))
      · exact .respond s _
  | setTxid ops =>
    refine AnswerResult.complete ?_ _
    split
    · exact .ok (emits_of_write rfl rfl rfl rfl rfl) (by simp)
    · exact .error _
  | setAid ops =>
    refine AnswerResult.complete ?_ _
    split
    · exact .ok (emits_of_write rfl rfl rfl rfl rfl) (by simp)
    · exact .error _
  | hopGet k ops =>
    refine AnswerResult.complete ?_ _
    split
    · split
      · exact .error _
      · exact .respond s _
    · exact .error _
  | chWrite c ops =>
    refine AnswerResult.complete ?_ _
    split
    · exact .ok (emits_of_write rfl rfl rfl rfl rfl) (by simp)
    · exact .error _
  | pack ty ops =>
    refine AnswerResult.complete ?_ _
    split
    · split
      · exact .error _
      · exact .respond s _
    · exact .error _
  | unpack ops =>
    refine AnswerResult.complete ?_ _
    split
    · exact .error _
    · exact .respond s _
  | parseReply ops =>
    refine AnswerResult.complete ?_ _
    split
    · exact .error _
    · exact .respond s _
  | status ops =>
    simp only [exec, execStatus]
    split
    · exact answers_respond s _
    · split
      · exact answers_respond s _
      · exact answers_faultEntry s _ _
  | rdRxcrc ops =>
    refine AnswerResult.complete ?_ _
    split
    · exact .respond s _
    · exact .error _

/-- Every message is answered, one with an illegal opcode byte included. -/
theorem Machine.runMessage_answers (m : Message) (s : State) : Answers s (runMessage m s) := by
  rcases runMessage_cases m s with ⟨i, -, hrun⟩ | ⟨opc, -, hrun⟩
  · exact hrun ▸ exec_answers i s
  · exact hrun ▸ (AnswerResult.error _).complete opc

/-! ### The step -/

/-- A reset step leaves the parameters and the stream as they were (R44, R192). -/
theorem Machine.resetStep_frame (s : State) : (resetStep s).params = s.params ∧ (resetStep s).stream = s.stream := by
  rcases resetStep_cases s with ⟨-, e⟩ | ⟨m, s1, htake, e⟩ <;> rw [e]
  · exact ⟨rfl, rfl⟩
  · obtain ⟨⟨hparams, -⟩, hstream, -⟩ := takeCommand_frame htake
    exact ⟨(s1.respond_params []).trans hparams, (s1.respond_stream []).trans hstream⟩

/-- Settles O12: a reset step and an idle step go on by definition, and a taken command is always answered. -/
theorem everyStepGoesOnWithTheSameParameters : Obligations.EveryStepGoesOnWithTheSameParameters := by
  unfold Obligations.EveryStepGoesOnWithTheSameParameters
  intro s
  by_cases hreset : s.resetHold = 0
  · cases htake : takeCommand s with
    | none => exact ⟨s, by simp [step, hreset, htake], rfl⟩
    | some r =>
      obtain ⟨m, s1⟩ := r
      obtain ⟨u, es, bs, hrun, hemits, -, -⟩ := runMessage_answers m s1
      obtain ⟨⟨hparams, -⟩, -, -⟩ := takeCommand_frame htake
      exact ⟨u.respond bs, by simp [step, hreset, htake, hrun],
        (u.respond_params bs).trans (hemits.params.trans hparams)⟩
  · obtain ⟨hparams, -⟩ := resetStep_frame s
    exact ⟨resetStep s, by simp [step, hreset], hparams⟩

/-- The taking of a command leaves the latch as it was. -/
theorem Machine.takeCommand_fault {s s1 : State} {m : Message} (h : takeCommand s = some (m, s1)) :
    s1.fault = s.fault := by
  obtain ⟨⟨-, -, -, -, -, -, -, -, -, -, -, -, -, -, hfault, -⟩, -, -⟩ := takeCommand_frame h
  exact hfault

/-- Settles O17: a reset step and an idle step emit nothing, and a command what its answer says. -/
theorem streamOnlyGrows : Obligations.StreamOnlyGrows := by
  unfold Obligations.StreamOnlyGrows
  intro s t hstep
  rcases step_cases hstep with ⟨-, rfl⟩ | ⟨-, -, rfl⟩ | ⟨hreset, m, s1, htake, hrun⟩
  · obtain ⟨-, hstream⟩ := resetStep_frame s
    exact ⟨[], by simp [hstream], by simp, fun _ => rfl⟩
  · exact ⟨[], by simp, by simp, fun _ => rfl⟩
  · obtain ⟨u, es, bs, hnext, hemits, hes, hlatched⟩ := runMessage_answers m s1
    obtain rfl : u.respond bs = t := by simpa [hnext] using hrun
    obtain ⟨-, hstream, -⟩ := takeCommand_frame htake
    refine ⟨es, by rw [State.respond_stream, hemits.stream, hstream], hes, fun hoff => ?_⟩
    rcases hoff with hset | hasserted
    · exact hlatched ((takeCommand_fault htake).trans hset)
    · exact absurd hreset hasserted

/-- Settles O19: the response is the one the answer appends to the port being served, which the taking chose. -/
theorem oneResponseForEachCommand : Obligations.OneResponseForEachCommand := by
  unfold Obligations.OneResponseForEachCommand
  intro s s1 t m hreset htake hstep
  obtain ⟨u, es, bs, hnext, hemits, -, -⟩ := runMessage_answers m s1
  obtain rfl : u.respond bs = t := by simpa [step, hreset, htake, hnext] using hstep
  obtain ⟨-, -, hresponses, hother⟩ := takeCommand_ports htake
  have hserved := u.respond_portState_port bs
  have hkept := u.respond_portState_other bs
  rw [hemits.port, hemits.portState] at hserved hkept
  exact ⟨bs, by rw [hserved, hresponses], by rw [hserved], by rw [hserved], hkept.trans hother⟩

end Sys2Proof
end

/-! PROOFS. Bytes that R42 leaves unread are never observed: two states that differ in such bytes alone are related by
`Safety.SameButUnread`, which the taking of a command, each command and the reset keep. -/
section
namespace Sys2Proof

open Machine

/-! ### Overwriting the bytes that may be unread -/

/-- The state with other bytes in the two address registers and the identity, their lengths and valid bits kept. -/
def Machine.State.withBytes (s : State) (tx rx : Vector Byte 5) (id : Vector Byte 4) : State :=
  { s with txAddr := tx, rxAddr := rx, txid := id }

/-- The bytes differ from those of the state in unread ones alone (R42): those of an address or identity that is set
read the same. -/
structure Machine.State.ReadsAs (s : State) (tx rx : Vector Byte 5) (id : Vector Byte 4) : Prop where
  tx : s.txaValid = true → readAddr tx s.txaLen = readAddr s.txAddr s.txaLen
  rx : s.rxaValid = true → readAddr rx s.rxaLen = readAddr s.rxAddr s.rxaLen
  id : s.txidValid = true → id = s.txid

theorem Machine.State.ReadsAs.sameButUnread {s : State} {tx rx : Vector Byte 5} {id : Vector Byte 4}
    (h : s.ReadsAs tx rx id) : Safety.SameButUnread s (s.withBytes tx rx id) :=
  ⟨rfl, h.tx, h.rx, h.id⟩

/-- A state that differs in unread bytes alone is one with other such bytes. -/
theorem Safety.SameButUnread.exists_withBytes {s s' : State} (h : Safety.SameButUnread s s') :
    ∃ tx rx id, s' = s.withBytes tx rx id ∧ s.ReadsAs tx rx id := by
  obtain ⟨hbytes, htx, hrx, hid⟩ := h
  exact ⟨s'.txAddr, s'.rxAddr, s'.txid, hbytes, htx, hrx, hid⟩

theorem Safety.SameButUnread.refl (s : State) : Safety.SameButUnread s s :=
  ⟨rfl, fun _ => rfl, fun _ => rfl, fun _ => rfl⟩

section
variable (s : State) (tx rx : Vector Byte 5) (id : Vector Byte 4)

@[simp] theorem Machine.State.withBytes_portState (p : Port) : (s.withBytes tx rx id).portState p = s.portState p := by
  cases p <;> rfl

theorem Machine.State.withBytes_setPortState (p : Port) (v : PortState) :
    (s.withBytes tx rx id).setPortState p v = (s.setPortState p v).withBytes tx rx id := by
  cases p <;> rfl

theorem Machine.State.withBytes_respond (bs : List Byte) :
    (s.withBytes tx rx id).respond bs = (s.respond bs).withBytes tx rx id := by
  have hport : (s.withBytes tx rx id).port = s.port := rfl
  simp only [State.respond, hport, State.withBytes_portState, State.withBytes_setPortState]

/-! ### The taking of a command reads no register -/

theorem Machine.owedChWrite_withBytes : (s.withBytes tx rx id).owedChWrite = s.owedChWrite := by
  have hpassed : (s.withBytes tx rx id).arbPassed = s.arbPassed := rfl
  simp only [State.owedChWrite, hpassed, State.withBytes_portState]

theorem Machine.burstChoice_withBytes :
    burstChoice (s.withBytes tx rx id) = ((burstChoice s).1, (burstChoice s).2.withBytes tx rx id) := by
  by_cases h : s.arbLeft = 0
  · have h' : (s.withBytes tx rx id).arbLeft = 0 := h
    simp only [burstChoice, if_pos h, if_pos h']
    rfl
  · have h' : (s.withBytes tx rx id).arbLeft ≠ 0 := h
    simp only [burstChoice, if_neg h, if_neg h']
    rfl

theorem Machine.contestedChoice_withBytes :
    contestedChoice (s.withBytes tx rx id) = ((contestedChoice s).1, (contestedChoice s).2.withBytes tx rx id) := by
  unfold contestedChoice
  rw [owedChWrite_withBytes, burstChoice_withBytes]
  cases s.owedChWrite with
  | none => rfl
  | some p => by_cases h : (burstChoice s).1 = p <;> simp [h]

theorem Machine.choosePort_withBytes :
    choosePort (s.withBytes tx rx id) = (choosePort s).map fun r => (r.1, r.2.withBytes tx rx id) := by
  have hhost : (s.withBytes tx rx id).host = s.host := rfl
  have hproducer : (s.withBytes tx rx id).producer = s.producer := rfl
  unfold choosePort
  rw [hhost, hproducer, contestedChoice_withBytes]
  cases s.host.waiting <;> cases s.producer.waiting <;> rfl

theorem Machine.takeCommand_withBytes :
    takeCommand (s.withBytes tx rx id) = (takeCommand s).map fun r => (r.1, r.2.withBytes tx rx id) := by
  unfold takeCommand
  rw [choosePort_withBytes]
  cases choosePort s with
  | none => rfl
  | some r =>
    obtain ⟨p, s1⟩ := r
    simp only [Option.map_some, State.withBytes_portState, State.withBytes_setPortState]
    cases (s1.portState p).waiting <;> rfl

/-- A reset writes every byte that may have been unread. -/
theorem Machine.resetStep_withBytes : resetStep (s.withBytes tx rx id) = resetStep s := by
  unfold resetStep
  rw [takeCommand_withBytes]
  cases takeCommand s with
  | none => rfl
  | some r => simp only [Option.map_some, State.withBytes_respond]; rfl

end

/-! ### What keeps two states the same but for unread bytes -/

/-- Which bytes are read is a matter of the registers only. -/
theorem Machine.State.ReadsAs.of_sameRegisters {s t : State} {tx rx : Vector Byte 5} {id : Vector Byte 4}
    (h : s.ReadsAs tx rx id) (hr : Safety.SameRegisters s t) : t.ReadsAs tx rx id := by
  obtain ⟨-, -, htxAddr, htxaLen, htxaValid, hrxAddr, hrxaLen, hrxaValid, -, htxid, htxidValid, -⟩ := hr
  obtain ⟨htx, hrx, hid⟩ := h
  exact ⟨by rwa [htxAddr, htxaLen, htxaValid], by rwa [hrxAddr, hrxaLen, hrxaValid], by rwa [htxid, htxidValid]⟩

theorem Safety.SameButUnread.respond {s s' : State} {bs : List Byte} (h : Safety.SameButUnread s s') :
    Safety.SameButUnread (s.respond bs) (s'.respond bs) := by
  obtain ⟨tx, rx, id, rfl, hreads⟩ := h.exists_withBytes
  rw [State.withBytes_respond]
  exact (hreads.of_sameRegisters (s.respond_sameRegisters bs)).sameButUnread

theorem Safety.SameButUnread.emit {s s' : State} {e : Event} (h : Safety.SameButUnread s s') :
    Safety.SameButUnread (s.emit e) (s'.emit e) := by
  obtain ⟨tx, rx, id, rfl, hreads⟩ := h.exists_withBytes
  exact ⟨rfl, hreads.tx, hreads.rx, hreads.id⟩

theorem Safety.SameButUnread.faultEntry {s s' : State} (h : Safety.SameButUnread s s') (c : Cause) (opc : Byte) :
    Safety.SameButUnread (faultEntry c opc s) (faultEntry c opc s') := by
  obtain ⟨tx, rx, id, rfl, hreads⟩ := h.exists_withBytes
  have hlatched : Safety.SameButUnread { s with fault := true, cause := c.code, fopc := opc }
      { s.withBytes tx rx id with fault := true, cause := c.code, fopc := opc } :=
    ⟨rfl, hreads.tx, hreads.rx, hreads.id⟩
  exact hlatched.respond

/-! ### The end of a command -/

/-- The results of one command in two states: the same cause, or states the same but for unread bytes. -/
inductive UnreadResult : Except Cause State → Except Cause State → Prop
  | ok {t t' : State} (ht : Safety.SameButUnread t t') : UnreadResult (.ok t) (.ok t')
  | error (c : Cause) : UnreadResult (.error c) (.error c)

/-- The outcomes of one command in two states: states the same but for unread bytes. -/
inductive UnreadOutcome : Host.Outcome State Fault Refusal → Host.Outcome State Fault Refusal → Prop
  | next {t t' : State} (ht : Safety.SameButUnread t t') : UnreadOutcome (.next t) (.next t')

theorem UnreadOutcome.exists_next {t : State} {o : Host.Outcome State Fault Refusal}
    (h : UnreadOutcome (.next t) o) : ∃ t', o = .next t' ∧ Safety.SameButUnread t t' := by
  cases h with
  | next ht => exact ⟨_, rfl, ht⟩

/-- Both commands end refused, performed or faulted, for the latch is the same. -/
theorem UnreadResult.complete {s s' : State} {r r' : Except Cause State} (hr : UnreadResult r r')
    (hs : Safety.SameButUnread s s') (opc : Byte) : UnreadOutcome (complete opc s r) (complete opc s' r') := by
  refine .next ?_
  have hfault : s'.fault = s.fault := by
    obtain ⟨hbytes, -⟩ := hs
    rw [hbytes]
  cases h : s.fault with
  | true =>
    rw [settle_of_latched h, settle_of_latched (hfault.trans h)]
    exact hs.respond
  | false =>
    cases hr with
    | ok ht => rwa [settle_ok h, settle_ok (hfault.trans h)]
    | error c =>
      rw [settle_error h, settle_error (hfault.trans h)]
      exact hs.faultEntry c opc

/-- A check that decides the same in both states. -/
theorem UnreadResult.ite {p : Prop} [Decidable p] {a a' b b' : Except Cause State} (ha : p → UnreadResult a a')
    (hb : ¬p → UnreadResult b b') : UnreadResult (if p then a else b) (if p then a' else b') := by
  split
  · exact ha ‹_›
  · exact hb ‹_›

/-- The checks on an address length read no register. -/
theorem UnreadResult.checkAddr {t t' : State} {len : BitVec 3} {ops : List Byte}
    (ht : ops.length = len.toNat → len ≤ 5 → Safety.SameButUnread t t') :
    UnreadResult (checkAddr len ops t) (checkAddr len ops t') :=
  .ite (fun _ => .error _) fun hrange => .ite (fun _ => .error _) fun hcount =>
    .ok (ht (not_not.mp hcount) (BitVec.not_lt.mp (not_or.mp hrange).2))

/-- The framing checks read no address byte, and they pass only where the address is set with the length `ADDR_LEN`. -/
theorem UnreadResult.checkFraming {s t t' : State} {tx rx : Vector Byte 5} {id : Vector Byte 4} {valid : Bool}
    {len : BitVec 3} {missing : Cause} {n : Nat} (ht : valid = true → len = s.addrLen → Safety.SameButUnread t t') :
    UnreadResult (checkFraming s valid len missing n t) (checkFraming (s.withBytes tx rx id) valid len missing n t') :=
  .ite (fun _ => .error _) fun hvalid => .ite (fun _ => .error _) fun hlen => .ite (fun _ => .error _) fun _ =>
    .ok (ht (Bool.not_eq_false _ ▸ hvalid) (not_not.mp hlen))

theorem Safety.SameButUnread.sendPayload {s s' : State} {f : List Byte} (h : Safety.SameButUnread s s') :
    Safety.SameButUnread (sendPayload s f) (sendPayload s' f) :=
  h.emit.respond

/-! ### The commands -/

/-- STATUS with no operand responds whatever the latch (R161). -/
theorem Machine.execStatus_nil (s : State) : execStatus [] s = .next (s.respond (statusBytes s)) := by
  simp [execStatus]

/-- STATUS responds to any operands while the latch is set (R175). -/
theorem Machine.execStatus_of_latched {s : State} {ops : List Byte} (h : s.fault = true) :
    execStatus ops s = .next (s.respond (statusBytes s)) := by
  simp [execStatus, h]

/-- STATUS faults on an operand while the latch is clear. -/
theorem Machine.execStatus_cons_of_clear {s : State} {b : Byte} {bs : List Byte} (h : s.fault = false) :
    execStatus (b :: bs) s = .next (faultEntry .operandLength (Instr.status (b :: bs)).opcode s) := by
  simp [execStatus, h]

section
variable {s : State} {tx rx : Vector Byte 5} {id : Vector Byte 4}

/-- The bytes of the address just written are read; the bytes kept beyond it are not. -/
theorem Machine.State.ReadsAs.setTxAddr (h : s.ReadsAs tx rx id) {len : BitVec 3} {ops : List Byte}
    (hcount : ops.length = len.toNat) (hmax : len ≤ 5) :
    Safety.SameButUnread
      { s with txAddr := writeAddr s.txAddr ops, txaLen := len, txaValid := true, addrLen := len }
      { s.withBytes tx rx id with txAddr := writeAddr tx ops, txaLen := len, txaValid := true, addrLen := len } :=
  ⟨rfl, fun _ => (readAddr_writeAddr tx len ops hcount hmax).trans (readAddr_writeAddr _ len ops hcount hmax).symm,
    h.rx, h.id⟩

/-- As for the TX address. -/
theorem Machine.State.ReadsAs.setRxAddr (h : s.ReadsAs tx rx id) {len : BitVec 3} {ops : List Byte}
    (hcount : ops.length = len.toNat) (hmax : len ≤ 5) :
    Safety.SameButUnread
      { s with rxAddr := writeAddr s.rxAddr ops, rxaLen := len, rxaValid := true, addrLen := len }
      { s.withBytes tx rx id with rxAddr := writeAddr rx ops, rxaLen := len, rxaValid := true, addrLen := len } :=
  ⟨rfl, h.tx,
    fun _ => (readAddr_writeAddr rx len ops hcount hmax).trans (readAddr_writeAddr _ len ops hcount hmax).symm, h.id⟩

/-- ENCODE reads the TX address only where it is set, and as far as its length. -/
theorem Machine.State.ReadsAs.encode (h : s.ReadsAs tx rx id) (ops : List Byte) :
    UnreadOutcome (execEncode ops s) (execEncode ops (s.withBytes tx rx id)) := by
  refine UnreadResult.complete (.ite (fun _ => .error _) fun _ => .ite (fun _ => .checkFraming fun hvalid hlen => ?_)
    fun _ => .ok h.sameButUnread.sendPayload) h.sameButUnread _
  have hread : readAddr tx s.addrLen = readAddr s.txAddr s.addrLen := hlen ▸ h.tx hvalid
  show Safety.SameButUnread _
    (sendPayload _ (frame s.params (readAddr tx s.addrLen) s.addrLen.toNat ops s.crcEn))
  rw [hread]
  exact h.sameButUnread.sendPayload

/-- DECODE reads the RX address, for `RXCRC`, only where it is set, and as far as its length. -/
theorem Machine.State.ReadsAs.decode (h : s.ReadsAs tx rx id) (ops : List Byte) :
    UnreadOutcome (execDecode ops s) (execDecode ops (s.withBytes tx rx id)) := by
  refine UnreadResult.complete (.ite (fun _ => .error _) fun _ => .ite (fun _ => .checkFraming fun hvalid hlen => ?_)
    fun _ => .ok h.sameButUnread.respond) h.sameButUnread _
  have hread : readAddr rx s.addrLen = readAddr s.rxAddr s.addrLen := hlen ▸ h.rx hvalid
  have hcrc : receivedCrc (s.withBytes tx rx id) ops = receivedCrc s ops := by
    show (if s.crcEn then airCrc s.params (readAddr rx s.addrLen) s.addrLen.toNat ops else s.rxcrc) = receivedCrc s ops
    rw [hread]
    rfl
  have hwritten : Safety.SameButUnread { s with rxcrc := receivedCrc s ops }
      { s.withBytes tx rx id with rxcrc := receivedCrc (s.withBytes tx rx id) ops } :=
    ⟨by rw [hcrc]; rfl, h.tx, h.rx, h.id⟩
  exact hwritten.respond

/-- STATUS reads no address byte and no identity byte. -/
theorem Machine.State.ReadsAs.status (h : s.ReadsAs tx rx id) (ops : List Byte) :
    UnreadOutcome (execStatus ops s) (execStatus ops (s.withBytes tx rx id)) := by
  have hs := h.sameButUnread
  have hfault : (s.withBytes tx rx id).fault = s.fault := rfl
  cases hlatch : s.fault with
  | true =>
    rw [execStatus_of_latched hlatch, execStatus_of_latched (hfault.trans hlatch)]
    exact .next hs.respond
  | false =>
    cases ops with
    | nil =>
      rw [execStatus_nil, execStatus_nil]
      exact .next hs.respond
    | cons b bs =>
      rw [execStatus_cons_of_clear hlatch, execStatus_cons_of_clear (hfault.trans hlatch)]
      exact .next (hs.faultEntry _ _)

/-- Every command leaves two states the same but for unread bytes. -/
theorem Machine.State.ReadsAs.exec (h : s.ReadsAs tx rx id) (i : Instr) :
    UnreadOutcome (exec i s) (exec i (s.withBytes tx rx id)) := by
  have hs := h.sameButUnread
  cases i with
  | nop ops =>
    refine UnreadResult.complete ?_ hs _
    split
    · exact .ok hs.respond
    · exact .error _
  | configure ops =>
    refine UnreadResult.complete ?_ hs _
    split
    · have hwritten : ∀ c, Safety.SameButUnread { s with crcEn := c } { s.withBytes tx rx id with crcEn := c } :=
        fun _ => ⟨rfl, h.tx, h.rx, h.id⟩
      exact .ok (hwritten _).emit.respond
    · exact .error _
  | setTxAddr len ops =>
    exact UnreadResult.complete (.checkAddr fun hcount hmax => (h.setTxAddr hcount hmax).emit.emit.respond) hs _
  | setRxAddr len ops =>
    exact UnreadResult.complete (.checkAddr fun hcount hmax => (h.setRxAddr hcount hmax).emit.emit.respond) hs _
  | encode ops => exact h.encode ops
  | decode ops => exact h.decode ops
  | setTxid ops =>
    refine UnreadResult.complete ?_ hs _
    split
    · exact .ok (Safety.SameButUnread.respond ⟨rfl, h.tx, h.rx, fun _ => rfl⟩)
    · exact .error _
  | setAid ops =>
    refine UnreadResult.complete ?_ hs _
    split
    · exact .ok (Safety.SameButUnread.respond ⟨rfl, h.tx, h.rx, h.id⟩)
    · exact .error _
  | hopGet k ops =>
    refine UnreadResult.complete ?_ hs _
    split
    · refine .ite (fun _ => .error _) fun hvalid => ?_
      obtain rfl := h.id (by simpa using hvalid)
      exact .ok hs.respond
    · exact .error _
  | chWrite c ops =>
    refine UnreadResult.complete ?_ hs _
    split
    · exact .ok (Safety.SameButUnread.respond ⟨rfl, h.tx, h.rx, h.id⟩)
    · exact .error _
  | pack ty ops =>
    refine UnreadResult.complete ?_ hs _
    split
    · refine .ite (fun _ => .error _) fun hvalid => ?_
      obtain rfl := h.id (by simpa using hvalid)
      exact .ok hs.respond
    · exact .error _
  | unpack ops => exact UnreadResult.complete (.ite (fun _ => .error _) fun _ => .ok hs.respond) hs _
  | parseReply ops => exact UnreadResult.complete (.ite (fun _ => .error _) fun _ => .ok hs.respond) hs _
  | status ops => exact h.status ops
  | rdRxcrc ops =>
    refine UnreadResult.complete ?_ hs _
    split
    · exact .ok hs.respond
    · exact .error _

end

/-- Every message leaves two states the same but for unread bytes. -/
theorem Safety.SameButUnread.runMessage {s s' : State} (h : Safety.SameButUnread s s') (m : Message) :
    UnreadOutcome (runMessage m s) (runMessage m s') := by
  unfold Machine.runMessage
  split
  · obtain ⟨tx, rx, id, rfl, hreads⟩ := h.exists_withBytes
    exact hreads.exec _
  · exact (UnreadResult.error _).complete h _

/-! ### The step -/

/-- Every step leaves two states the same but for unread bytes. -/
theorem Safety.SameButUnread.step {s s' : State} (h : Safety.SameButUnread s s') :
    UnreadOutcome (step s) (step s') := by
  obtain ⟨tx, rx, id, rfl, hreads⟩ := h.exists_withBytes
  have hhold : (s.withBytes tx rx id).resetHold = s.resetHold := rfl
  unfold Machine.step
  rw [hhold, takeCommand_withBytes, resetStep_withBytes]
  split
  · cases htake : takeCommand s with
    | none => exact .next h
    | some r =>
      obtain ⟨m, s1⟩ := r
      obtain ⟨hregs, -, -⟩ := takeCommand_frame htake
      exact (hreads.of_sameRegisters hregs).sameButUnread.runMessage m
  · exact .next (.refl _)

/-- Settles O57: the steps of the two states go on together. -/
theorem unwrittenBytesAreNeverObserved : Obligations.UnwrittenBytesAreNeverObserved := by
  unfold Obligations.UnwrittenBytesAreNeverObserved
  intro s s' t h hstep
  have hsteps := h.step
  rw [hstep] at hsteps
  exact hsteps.exists_next

end Sys2Proof
end

/-! PROOFS. The fairness of the choice between the ports: how many commands of the other port come before the next one of
a port, that no command changes this number, and that each such command taken lowers it. -/
section
namespace Sys2Proof

open Machine

/-! ### The schedule -/

/-- What the choice between two contending ports depends on besides their messages (log entry 2), and the reset input. -/
structure Machine.Schedule where
  turn : Port
  left : Nat
  idx : Nat
  passed : Option Port
  hold : Nat

def Machine.State.schedule (s : State) : Schedule :=
  ⟨s.arbPort, s.arbLeft, s.arbIdx, s.arbPassed, s.resetHold⟩

@[simp] theorem Machine.State.respond_schedule (s : State) (bs : List Byte) : (s.respond bs).schedule = s.schedule := by
  simp [State.schedule]

/-! ### No command changes the schedule -/

/-- The result of a command's checks and effect, where an effect that is performed keeps the schedule and ends in one
response. -/
inductive ScheduleResult (s : State) : Except Cause State → Prop
  | ok {u : State} {bs : List Byte} (hu : u.schedule = s.schedule) : ScheduleResult s (.ok (u.respond bs))
  | error (c : Cause) : ScheduleResult s (.error c)

/-- The outcome of a command, where it goes on, is a state with the same schedule. -/
def Machine.KeepsSchedule (s : State) (o : Host.Outcome State Fault Refusal) : Prop :=
  ∀ t, o = .next t → t.schedule = s.schedule

theorem Machine.keepsSchedule_respond {s u : State} (bs : List Byte) (hu : u.schedule = s.schedule) :
    KeepsSchedule s (.next (u.respond bs)) := by
  rintro t ⟨⟩
  exact (u.respond_schedule bs).trans hu

/-- A command keeps the schedule: refused, performed or faulted. -/
theorem ScheduleResult.complete {s : State} {r : Except Cause State} (hr : ScheduleResult s r) (opc : Byte) :
    KeepsSchedule s (complete opc s r) := by
  unfold Machine.complete
  rcases settle_cases opc s r with ⟨-, e⟩ | ⟨-, u, rfl, e⟩ | ⟨-, c, -, e⟩ <;> rw [e]
  · exact keepsSchedule_respond _ rfl
  · cases hr with
    | ok hu => exact keepsSchedule_respond _ hu
  · exact keepsSchedule_respond _ rfl

theorem ScheduleResult.checkAddr {s t : State} {len : BitVec 3} {ops : List Byte} (ht : ScheduleResult s (.ok t)) :
    ScheduleResult s (checkAddr len ops t) := by
  cases h : Machine.checkAddr len ops t with
  | ok u =>
    obtain ⟨rfl, -⟩ := checkAddr_ok h
    exact ht
  | error c => exact .error c

theorem ScheduleResult.checkFraming {s t : State} {valid : Bool} {len : BitVec 3} {missing : Cause} {n : Nat}
    (ht : ScheduleResult s (.ok t)) : ScheduleResult s (checkFraming s valid len missing n t) := by
  cases h : Machine.checkFraming s valid len missing n t with
  | ok u =>
    obtain ⟨rfl, -⟩ := checkFraming_ok h
    exact ht
  | error c => exact .error c

/-- Every command keeps the schedule, the commands grouped by the order of their checks. -/
theorem Machine.exec_keepsSchedule (i : Instr) (s : State) : KeepsSchedule s (exec i s) := by
  cases i with
  | nop _ | configure _ | setTxid _ | setAid _ | chWrite _ _ | rdRxcrc _ =>
    refine ScheduleResult.complete ?_ _
    split
    · exact .ok rfl
    · exact .error _
  | unpack _ | parseReply _ =>
    refine ScheduleResult.complete ?_ _
    split
    · exact .error _
    · exact .ok rfl
  | hopGet _ _ | pack _ _ =>
    refine ScheduleResult.complete ?_ _
    split
    · split
      · exact .error _
      · exact .ok rfl
    · exact .error _
  | setTxAddr _ _ | setRxAddr _ _ =>
    refine ScheduleResult.complete (.checkAddr ?_) _
    exact .ok rfl
  | encode _ | decode _ =>
    refine ScheduleResult.complete ?_ _
    split
    · exact .error _
    · split
      · exact .checkFraming (.ok rfl)
      · exact .ok rfl
  | status ops =>
    show KeepsSchedule s (execStatus ops s)
    cases hlatch : s.fault with
    | true => exact execStatus_of_latched hlatch ▸ keepsSchedule_respond _ rfl
    | false =>
      cases ops with
      | nil => exact execStatus_nil s ▸ keepsSchedule_respond _ rfl
      | cons b bs => exact execStatus_cons_of_clear hlatch ▸ keepsSchedule_respond _ rfl

/-- Every message keeps the schedule, one with an illegal opcode byte included. -/
theorem Machine.runMessage_keepsSchedule (m : Message) (s : State) : KeepsSchedule s (runMessage m s) := by
  rcases runMessage_cases m s with ⟨i, -, hrun⟩ | ⟨opc, -, hrun⟩
  · exact hrun ▸ exec_keepsSchedule i s
  · exact hrun ▸ (ScheduleResult.error _).complete opc

/-! ### The commands before the next one of a port -/

/-- How many contested turns of the other port come before the next one of `p`. -/
def Machine.Schedule.turnsBefore (v : Schedule) (p : Port) : Nat :=
  if v.turn = p then if v.left = 0 then Config.burst v.idx + 1 else 0 else v.left

/-- A bound on the commands of the other port that come before the next one of `p`: those of its turns or, on a turn of
`p`, one CH_WRITE that a command of `p` has passed (R63). -/
def Machine.Schedule.commandsBefore (v : Schedule) (p : Port) : Nat :=
  max (v.turnsBefore p) (if v.passed = some p.other then 1 else 0)

theorem Machine.Schedule.commandsBefore_le (v : Schedule) (p : Port) :
    v.commandsBefore p ≤ v.left + Config.burst v.idx + 1 := by
  unfold Schedule.commandsBefore Schedule.turnsBefore
  split_ifs <;> omega

theorem Machine.Port.other_ne (p : Port) : p.other ≠ p := by cases p <;> decide

theorem Machine.Port.eq_other_of_ne {p q : Port} (h : q ≠ p) : q = p.other := by
  cases p <;> cases q <;> simp_all [Port.other]

/-- Once a command of the other port has passed `p`, only turns come before `p`. -/
theorem Machine.Schedule.commandsBefore_of_passed {v : Schedule} {p : Port} (h : v.passed = some p) :
    v.commandsBefore p = v.turnsBefore p := by
  simp [Schedule.commandsBefore, h, p.other_ne.symm]

/-- No turn comes before a port whose turn it is. -/
theorem Machine.turnsBefore_of_turn {s : State} {p : Port} (h : (burstChoice s).1 = p) : s.schedule.turnsBefore p = 0 := by
  subst h
  by_cases hleft : s.arbLeft = 0
  · simp [burstChoice, Schedule.turnsBefore, State.schedule, hleft, s.arbPort.other_ne.symm]
  · simp [burstChoice, Schedule.turnsBefore, State.schedule, hleft]

/-- A turn of the other port is one of those before `p`, also the turn that begins the other port's burst. -/
theorem Machine.turnsBefore_burstChoice {s : State} {p : Port} (h : (burstChoice s).1 = p.other) :
    (burstChoice s).2.schedule.turnsBefore p + 1 = s.schedule.turnsBefore p := by
  by_cases hleft : s.arbLeft = 0
  · have hturn : s.arbPort = p := by
      simpa [burstChoice, hleft] using congrArg Port.other h
    simp [burstChoice, Schedule.turnsBefore, State.schedule, hleft, hturn, p.other_ne]
  · have hturn : s.arbPort = p.other := by simpa [burstChoice, hleft] using h
    have hcount : s.arbLeft - 1 + 1 = s.arbLeft := Nat.succ_pred hleft
    simp [burstChoice, Schedule.turnsBefore, State.schedule, hleft, hturn, p.other_ne, hcount]

/-- A CH_WRITE owed to a port has been passed there. -/
theorem Machine.arbPassed_of_owed {s : State} {p : Port} (h : s.owedChWrite = some p) : s.arbPassed = some p :=
  (Option.filter_eq_some_iff.mp h).1

/-- A contested choice of the other port is one of the commands before `p`: a turn, or the CH_WRITE that was owed. -/
theorem Machine.contestedChoice_commandsBefore {s : State} {p : Port} (h : (contestedChoice s).1 = p.other) :
    (State.schedule { (contestedChoice s).2 with arbPassed := some p }).commandsBefore p <
      s.schedule.commandsBefore p := by
  rw [Schedule.commandsBefore_of_passed rfl]
  rcases contestedChoice_cases s with e | ⟨q, howed, hturn, e⟩ <;> rw [e] at h ⊢
  · calc (burstChoice s).2.schedule.turnsBefore p
      _ < s.schedule.turnsBefore p := by rw [← turnsBefore_burstChoice h]; exact Nat.lt_succ_self _
      _ ≤ s.schedule.commandsBefore p := Nat.le_max_left _ _
  · obtain rfl : q = p.other := h
    have hown : (burstChoice s).1 = p := by simpa using Port.eq_other_of_ne hturn
    have hpassed : s.schedule.passed = some p.other := arbPassed_of_owed howed
    calc s.schedule.turnsBefore p
      _ = 0 := turnsBefore_of_turn hown
      _ < s.schedule.commandsBefore p := by simp [Schedule.commandsBefore, hpassed]

/-- Where both ports have a command waiting, the choice is the contested one, and it passes the port not chosen. -/
theorem Machine.choosePort_of_both {s : State} (hh : s.host.waiting ≠ []) (hp : s.producer.waiting ≠ []) :
    choosePort s =
      some ((contestedChoice s).1, { (contestedChoice s).2 with arbPassed := some (contestedChoice s).1.other }) := by
  unfold choosePort
  split <;> simp_all

/-- The taking of the other port's command, while one waits on `p`, lowers the number of commands before `p`. -/
theorem Machine.takeCommand_commandsBefore {s s1 : State} {m : Message} {p : Port}
    (hwaiting : (s.portState p).waiting ≠ []) (htake : takeCommand s = some (m, s1)) (hother : s1.port = p.other) :
    s1.schedule.commandsBefore p < s.schedule.commandsBefore p := by
  obtain ⟨q, rest, ap, al, ai, ao, hchoose, hfirst, rfl⟩ := takeCommand_some htake
  obtain rfl : q = p.other := hother
  have hboth : s.host.waiting ≠ [] ∧ s.producer.waiting ≠ [] := by
    have hq : (s.portState p.other).waiting ≠ [] := by simp [hfirst]
    cases p
    · exact ⟨hwaiting, hq⟩
    · exact ⟨hq, hwaiting⟩
  obtain ⟨hport, hstate⟩ := Prod.mk.inj (Option.some.inj ((choosePort_of_both hboth.1 hboth.2).symm.trans hchoose))
  have hless := contestedChoice_commandsBefore hport
  rw [hport, Port.other_other] at hstate
  rw [hstate] at hless
  simpa [State.schedule] using hless

/-! ### Fair service -/

/-- A step takes the command waiting on `p`, or one of the other port's that come before it. -/
theorem Machine.step_of_waiting {s : State} {p : Port} (hreset : s.resetHold = 0)
    (hwaiting : (s.portState p).waiting ≠ []) :
    ∃ t, step s = .next t ∧ ((t.portState p).seq = (s.portState p).seq + 1 ∨
      t.resetHold = 0 ∧ t.portState p = s.portState p ∧ t.schedule.commandsBefore p < s.schedule.commandsBefore p) := by
  cases htake : takeCommand s with
  | none =>
    obtain ⟨hhost, hproducer⟩ := takeCommand_none.mp htake
    cases p
    · exact absurd hhost hwaiting
    · exact absurd hproducer hwaiting
  | some r =>
    obtain ⟨m, s1⟩ := r
    obtain ⟨u, es, bs, hrun, hemits, -, -⟩ := runMessage_answers m s1
    obtain ⟨-, hseq, -, hkept⟩ := takeCommand_ports htake
    obtain ⟨-, -, hhold⟩ := takeCommand_frame htake
    have hschedule : (u.respond bs).schedule = s1.schedule := runMessage_keepsSchedule m s1 _ hrun
    refine ⟨u.respond bs, by simp [step, hreset, htake, hrun], ?_⟩
    by_cases hport : s1.port = p
    · subst hport
      exact .inl (by rw [State.respond_seq, hemits.portState, hseq])
    · have hother : s1.port = p.other := Port.eq_other_of_ne hport
      have hunserved := u.respond_portState_other bs
      rw [hemits.port, hemits.portState, hkept, hother, Port.other_other] at hunserved
      refine .inr ⟨(congrArg Schedule.hold hschedule).trans (hhold.trans hreset), hunserved, ?_⟩
      rw [hschedule]
      exact takeCommand_commandsBefore hwaiting htake hother

/-- A run of `k + 1` steps is a step and a run of `k`. -/
theorem Machine.run_succ {s t : State} (k : Nat) (h : step s = .next t) :
    Host.Core.run core (k + 1) s = Host.Core.run core k t := by
  have hcore : core.step s = .next t := h
  simp only [Host.Core.run, hcore]

/-- A command waiting on a port is taken within one step more than the commands before it, by induction on a bound of
their number. -/
theorem Machine.run_serves_waiting {p : Port} {n : Nat} :
    ∀ {s : State}, s.resetHold = 0 → (s.portState p).waiting ≠ [] → s.schedule.commandsBefore p ≤ n →
    ∃ k t, k ≤ n + 1 ∧ Host.Core.run core k s = .next t ∧ (t.portState p).seq = (s.portState p).seq + 1 := by
  induction n with
  | zero =>
    intro s hreset hwaiting hbound
    obtain ⟨t, hstep, htaken | ⟨-, -, hless⟩⟩ := step_of_waiting hreset hwaiting
    · exact ⟨1, t, le_rfl, run_succ 0 hstep, htaken⟩
    · omega
  | succ n ih =>
    intro s hreset hwaiting hbound
    obtain ⟨t, hstep, htaken | ⟨hhold, hport, hless⟩⟩ := step_of_waiting hreset hwaiting
    · exact ⟨1, t, by omega, run_succ 0 hstep, htaken⟩
    · obtain ⟨k, u, hk, hrun, hseq⟩ := ih hhold (hport ▸ hwaiting) (by omega)
      exact ⟨k + 1, u, by omega, (run_succ k hstep).trans hrun, hport ▸ hseq⟩

/-- Settles O24: the commands before the waiting one are at most the rest of the running burst, the next burst and one. -/
theorem waitingCommandIsEventuallyTaken : Obligations.WaitingCommandIsEventuallyTaken := by
  unfold Obligations.WaitingCommandIsEventuallyTaken
  intro s p hreset hwaiting
  exact run_serves_waiting hreset hwaiting (s.schedule.commandsBefore_le p)

end Sys2Proof
end

/-! PROOFS. The opcode map: an opcode byte selects at most one of its rows, the command of a row is written with the
row's fixed bits and its own field, and so the decoder and the encoder are inverse to each other. -/
section
namespace Sys2Proof

open Machine

/-! ### The rows of the map -/

/-- No two rows overlap (R74): the bits that both of two rows fix differ in some place. -/
theorem opcodeMap_disjoint : opcodeMap.Pairwise fun r r' => r.pat &&& r'.mask ≠ r'.pat &&& r.mask := by decide

theorem OpRow.matches_iff {r : OpRow} {o : Byte} : r.matches o = true ↔ o &&& r.mask = r.pat := by
  simp [OpRow.matches]

/-- On an opcode byte that two rows match, the bits that both of them fix agree. -/
theorem OpRow.pat_agree {r r' : OpRow} {o : Byte} (h : o &&& r.mask = r.pat) (h' : o &&& r'.mask = r'.pat) :
    r.pat &&& r'.mask = r'.pat &&& r.mask := by
  rw [← h, ← h', BitVec.and_assoc, BitVec.and_assoc, BitVec.and_comm r.mask]

/-- An opcode byte matches at most one row of the map. -/
theorem opcodeMap_matches_unique {r r' : OpRow} {o : Byte} (hr : r ∈ opcodeMap) (hr' : r' ∈ opcodeMap)
    (h : o &&& r.mask = r.pat) (h' : o &&& r'.mask = r'.pat) : r = r' := by
  by_contra hne
  have hsymm : Std.Symm fun r r' : OpRow => r.pat &&& r'.mask ≠ r'.pat &&& r.mask := ⟨fun _ _ => Ne.symm⟩
  exact opcodeMap_disjoint.forall hr hr' hne (OpRow.pat_agree h h')

theorem selectRow_matches {o : Byte} {r : OpRow} (h : selectRow o = some r) :
    r ∈ opcodeMap ∧ o &&& r.mask = r.pat :=
  ⟨List.mem_of_find?_eq_some h, OpRow.matches_iff.mp (List.find?_some (p := (OpRow.matches · o)) h)⟩

/-- The row selected is the one of the map that the opcode byte matches. -/
theorem selectRow_eq_some {o : Byte} {r : OpRow} :
    selectRow o = some r ↔ r ∈ opcodeMap ∧ o &&& r.mask = r.pat := by
  refine ⟨selectRow_matches, fun ⟨hmem, hmatch⟩ => ?_⟩
  cases hsel : selectRow o with
  | none => exact absurd (OpRow.matches_iff.mpr hmatch) (List.find?_eq_none.mp hsel r hmem)
  | some r' =>
    obtain ⟨hmem', hmatch'⟩ := selectRow_matches hsel
    rw [opcodeMap_matches_unique hmem' hmem hmatch' hmatch]

/-! ### The decoder -/

/-- A message whose opcode byte matches a row decodes as that row says. -/
theorem decode_of_row {m : Message} {r : OpRow} (hmem : r ∈ opcodeMap) (hmatch : m.opc &&& r.mask = r.pat) :
    decode m = buildInstr r.op m := by
  rw [decode, selectRow_eq_some.mpr ⟨hmem, hmatch⟩]

/-- A message that decodes matches a row, whose command it is. -/
theorem decode_eq_ok {m : Message} {i : Instr} (h : decode m = .ok i) :
    ∃ r ∈ opcodeMap, m.opc &&& r.mask = r.pat ∧ buildInstr r.op m = .ok i := by
  cases hsel : selectRow m.opc with
  | none => simp [decode, hsel] at h
  | some r =>
    obtain ⟨hmem, hmatch⟩ := selectRow_eq_some.mp hsel
    exact ⟨r, hmem, hmatch, decode_of_row hmem hmatch ▸ h⟩

/-- Only the CH_WRITE row refuses a message, and it refuses it for the opcode byte. -/
theorem buildInstr_eq_error {op : Op} {m : Message} {e : DecodeError} (h : buildInstr op m = .error e) :
    e = .illegalOpcode m.opc := by
  cases op with
  | chWrite =>
    simp only [buildInstr] at h
    split at h
    · cases h
    · cases h; rfl
  | nop | configure | setTxAddr | setRxAddr | encode | decode | setTxid | setAid | hopGet | pack | unpack
  | parseReply | status | rdRxcrc => cases h

/-- A message that does not decode is refused for its own opcode byte. -/
theorem decode_eq_error {m : Message} {e : DecodeError} (h : decode m = .error e) : e = .illegalOpcode m.opc := by
  unfold decode at h
  split at h
  · exact buildInstr_eq_error h
  · cases h; rfl

/-- Settles O3: each row stands in the map, and what it builds is the command with the row's field. -/
theorem decodeFollowsTheOpcodeMap : Obligations.DecodeFollowsTheOpcodeMap := by
  unfold Obligations.DecodeFollowsTheOpcodeMap
  intro o ops
  have row (r : OpRow) (hmem : r ∈ opcodeMap) (h : o &&& r.mask = r.pat) :
      decode ⟨o, ops⟩ = buildInstr r.op ⟨o, ops⟩ := decode_of_row hmem h
  exact ⟨row ⟨.nop, 0x00, 0xFF⟩ (by decide), row ⟨.configure, 0x10, 0xFF⟩ (by decide),
    row ⟨.setTxAddr, 0x20, 0xF8⟩ (by decide), row ⟨.setRxAddr, 0x30, 0xF8⟩ (by decide),
    row ⟨.encode, 0x40, 0xFF⟩ (by decide), row ⟨.decode, 0x50, 0xFF⟩ (by decide),
    row ⟨.setTxid, 0x60, 0xFF⟩ (by decide), row ⟨.setAid, 0x61, 0xFF⟩ (by decide),
    row ⟨.hopGet, 0x70, 0xFC⟩ (by decide),
    fun hchannel h => (row ⟨.chWrite, 0x80, 0xF8⟩ (by decide) h).trans (dif_pos hchannel),
    row ⟨.pack, 0x90, 0xFE⟩ (by decide), row ⟨.unpack, 0xA0, 0xFF⟩ (by decide),
    row ⟨.parseReply, 0xA1, 0xFF⟩ (by decide), row ⟨.status, 0xF0, 0xFF⟩ (by decide),
    row ⟨.rdRxcrc, 0xF1, 0xFF⟩ (by decide)⟩

/-! ### The row of a command -/

/-- The row of R74 a command is written with. -/
def Instr.row : Instr → OpRow
  | .nop _ => ⟨.nop, 0x00, 0xFF⟩
  | .configure _ => ⟨.configure, 0x10, 0xFF⟩
  | .setTxAddr _ _ => ⟨.setTxAddr, 0x20, 0xF8⟩
  | .setRxAddr _ _ => ⟨.setRxAddr, 0x30, 0xF8⟩
  | .encode _ => ⟨.encode, 0x40, 0xFF⟩
  | .decode _ => ⟨.decode, 0x50, 0xFF⟩
  | .setTxid _ => ⟨.setTxid, 0x60, 0xFF⟩
  | .setAid _ => ⟨.setAid, 0x61, 0xFF⟩
  | .hopGet _ _ => ⟨.hopGet, 0x70, 0xFC⟩
  | .chWrite _ _ => ⟨.chWrite, 0x80, 0xF8⟩
  | .pack _ _ => ⟨.pack, 0x90, 0xFE⟩
  | .unpack _ => ⟨.unpack, 0xA0, 0xFF⟩
  | .parseReply _ => ⟨.parseReply, 0xA1, 0xFF⟩
  | .status _ => ⟨.status, 0xF0, 0xFF⟩
  | .rdRxcrc _ => ⟨.rdRxcrc, 0xF1, 0xFF⟩

theorem Instr.row_mem_opcodeMap (i : Instr) : i.row ∈ opcodeMap := by
  cases i <;> simp [Instr.row, opcodeMap]

/-- The mnemonics of the rows differ. -/
theorem opcodeMap_op_injective : ∀ r ∈ opcodeMap, ∀ r' ∈ opcodeMap, r.op = r'.op → r = r' := by decide

/-- The fixed bits of a command's opcode byte are those of its row. -/
theorem Instr.opcode_matches_row (i : Instr) : i.opcode &&& i.row.mask = i.row.pat := by
  cases i with
  | setTxAddr len ops => show (0x20 ||| len.setWidth 8) &&& 0xF8 = (0x20 : Byte); revert len; decide
  | setRxAddr len ops => show (0x30 ||| len.setWidth 8) &&& 0xF8 = (0x30 : Byte); revert len; decide
  | hopGet k ops => show (0x70 ||| k.setWidth 8) &&& 0xFC = (0x70 : Byte); revert k; decide
  | chWrite c ops => show (0x80 ||| BitVec.ofNat 8 c.val) &&& 0xF8 = (0x80 : Byte); revert c; decide
  | pack t ops => cases t <;> simp [Instr.opcode, Instr.row]
  | nop | configure | encode | decode | setTxid | setAid | unpack | parseReply | status | rdRxcrc =>
    simp [Instr.opcode, Instr.row]

/-! ### The field of a command -/

theorem lowField3_setTxAddr (len : BitVec 3) (ops : List Byte) : lowField3 (Instr.setTxAddr len ops).opcode = len := by
  show lowField3 (0x20 ||| len.setWidth 8) = len
  revert len; decide

theorem lowField3_setRxAddr (len : BitVec 3) (ops : List Byte) : lowField3 (Instr.setRxAddr len ops).opcode = len := by
  show lowField3 (0x30 ||| len.setWidth 8) = len
  revert len; decide

theorem lowField2_hopGet (k : BitVec 2) (ops : List Byte) : lowField2 (Instr.hopGet k ops).opcode = k := by
  show lowField2 (0x70 ||| k.setWidth 8) = k
  revert k; decide

theorem lowField3_chWrite (c : Channel) (ops : List Byte) :
    (lowField3 (Instr.chWrite c ops).opcode).toNat = c.val := by
  show (lowField3 (0x80 ||| BitVec.ofNat 8 c.val)).toNat = c.val
  revert c; decide

theorem packetTypeOf_pack (t : PacketType) (ops : List Byte) : packetTypeOf (Instr.pack t ops).opcode = t := by
  cases t <;> simp [Instr.opcode, packetTypeOf]

/-- The row of a command builds it from its message: every field is read back. -/
theorem buildInstr_encode (i : Instr) : buildInstr i.row.op (encode i) = .ok i := by
  cases i with
  | setTxAddr len ops => simp [buildInstr, encode, Instr.row, Instr.operands, lowField3_setTxAddr]
  | setRxAddr len ops => simp [buildInstr, encode, Instr.row, Instr.operands, lowField3_setRxAddr]
  | hopGet k ops => simp [buildInstr, encode, Instr.row, Instr.operands, lowField2_hopGet]
  | chWrite c ops => simp [buildInstr, encode, Instr.row, Instr.operands, lowField3_chWrite]
  | pack t ops => simp [buildInstr, encode, Instr.row, Instr.operands, packetTypeOf_pack]
  | nop | configure | encode | decode | setTxid | setAid | unpack | parseReply | status | rdRxcrc => rfl

/-- The message of a command decodes to it. -/
theorem decode_encode (i : Instr) : decode (encode i) = .ok i :=
  (decode_of_row i.row_mem_opcodeMap i.opcode_matches_row).trans (buildInstr_encode i)

/-- Settles O1: a command's opcode byte matches the command's row, and the row builds the command from its message. -/
theorem decodeOfEncodeIsTheCommand : Obligations.DecodeOfEncodeIsTheCommand := by
  unfold Obligations.DecodeOfEncodeIsTheCommand
  exact decode_encode

/-- Settles O5: the seven messages are those of the commands named, and 0x86 matches the CH_WRITE row with the field 6,
which is no channel. -/
theorem sampleMessagesDecode : Obligations.SampleMessagesDecode := by
  unfold Obligations.SampleMessagesDecode
  exact ⟨decode_encode (.nop _), decode_encode (.configure _), decode_encode (.setTxAddr 3 _),
    decode_encode (.setRxAddr 5 _), decode_encode (.hopGet 2 _), decode_encode (.chWrite 1 _),
    decode_encode (.pack .bind _), decode_of_row (r := ⟨.chWrite, 0x80, 0xF8⟩) (by decide) (by decide)⟩

/-! ### The message of a decoded command -/

/-- The field of the formats `AL` and `C` is what the mask `0xF8` leaves out of the opcode byte. -/
theorem lowField3_setWidth (o : Byte) : (lowField3 o).setWidth 8 = o &&& ~~~0xF8 := by
  revert o; decide

/-- The field of the format `K` is what the mask `0xFC` leaves out of the opcode byte. -/
theorem lowField2_setWidth (o : Byte) : (lowField2 o).setWidth 8 = o &&& ~~~0xFC := by
  revert o; decide

/-- The field of the format `T` is what the mask `0xFE` leaves out of the opcode byte. -/
theorem opcode_pack_packetTypeOf (o : Byte) (ops : List Byte) :
    (Instr.pack (packetTypeOf o) ops).opcode = 0x90 ||| (o &&& ~~~0xFE) := by
  have hempty : (Instr.pack (packetTypeOf o) []).opcode = 0x90 ||| (o &&& ~~~0xFE) := by revert o; decide
  rw [← hempty]
  cases packetTypeOf o <;> rfl

/-- A command built by a row is of that row, has the operands of the message, and carries in its field the bits that
the row's mask leaves out of the opcode byte. -/
theorem buildInstr_eq_ok {op : Op} {m : Message} {i : Instr} (h : buildInstr op m = .ok i) :
    i.row.op = op ∧ i.operands = m.ops ∧ i.opcode = i.row.pat ||| (m.opc &&& ~~~i.row.mask) := by
  have hfixed (p : Byte) : p = p ||| (m.opc &&& ~~~0xFF) := by simp
  cases op with
  | setTxAddr | setRxAddr =>
    cases h
    exact ⟨rfl, rfl, congrArg (_ ||| ·) (lowField3_setWidth m.opc)⟩
  | hopGet =>
    cases h
    exact ⟨rfl, rfl, congrArg (_ ||| ·) (lowField2_setWidth m.opc)⟩
  | chWrite =>
    simp only [buildInstr] at h
    split at h
    · cases h
      refine ⟨rfl, rfl, congrArg (_ ||| ·) ?_⟩
      exact (BitVec.ofNat_toNat ..).trans (lowField3_setWidth m.opc)
    · cases h
  | pack =>
    cases h
    exact ⟨rfl, rfl, opcode_pack_packetTypeOf m.opc m.ops⟩
  | nop | configure | encode | decode | setTxid | setAid | unpack | parseReply | status | rdRxcrc =>
    cases h
    exact ⟨rfl, rfl, hfixed _⟩

/-- Settles O2: the opcode byte written is the row's fixed bits beside the bits that the mask leaves out, which are all
of the opcode byte read. -/
theorem decodedCommandEncodesBack : Obligations.DecodedCommandEncodesBack := by
  unfold Obligations.DecodedCommandEncodesBack
  intro m i h
  obtain ⟨r, hmem, hmatch, hbuild⟩ := decode_eq_ok h
  obtain ⟨hop, hoperands, hopcode⟩ := buildInstr_eq_ok hbuild
  obtain rfl : i.row = r := opcodeMap_op_injective _ i.row_mem_opcodeMap r hmem hop
  have hopc : i.opcode = m.opc := by
    calc i.opcode
        = (m.opc &&& i.row.mask) ||| (m.opc &&& ~~~i.row.mask) := by rw [hopcode, hmatch]
      _ = m.opc := by rw [← BitVec.and_or_distrib_left, BitVec.or_not_self, BitVec.and_allOnes]
  rw [encode, hopc, hoperands]

/-! ### The step -/

/-- Settles O8: the step runs the message taken, and the end of an illegal command is the fault entry or the refusal
according to the latch, which the taking leaves alone. -/
theorem stepRunsTheDecodedCommand : Obligations.StepRunsTheDecodedCommand := by
  unfold Obligations.StepRunsTheDecodedCommand
  intro s s1 m hreset htake
  have hstep : step s = runMessage m s1 := by simp [step, hreset, htake]
  have hlatch := takeCommand_fault htake
  refine ⟨hstep, fun i hi => ?_, fun e he => ?_⟩
  · rw [hstep, runMessage, hi]
  · obtain rfl := decode_eq_error he
    have hillegal : step s = complete m.opc s1 (.error .illegalOpcode) := by rw [hstep, runMessage, he]; rfl
    refine ⟨rfl, fun hclear => ?_, fun hset => ?_⟩
    · rw [hillegal, complete, settle_error (hlatch.trans hclear)]; rfl
    · rw [hillegal, complete, settle_of_latched (hlatch.trans hset)]

end Sys2Proof
end

/-! PROOFS. The operand checks of the commands are their well-formedness: with a clear latch an ill-formed command
faults with one of the three operand causes, and a well-formed one, if at all, with a later cause. -/
section
namespace Sys2Proof

open Machine

/-! ### The operand causes -/

/-- The causes that the operands alone decide (R170, R171): OPERAND_LENGTH, ADDR_LEN_RANGE and PAYLOAD_LEN_RANGE. -/
def Machine.Cause.IsOperandCause (c : Cause) : Prop := c.code = 2 ∨ c.code = 3 ∨ c.code = 4

/-- The end of a command with a clear latch agrees with its well-formedness `wf`. -/
def Machine.EndsAsFormed (wf : Bool) (t : State) : Prop :=
  (wf = false → t.fault = true ∧ (t.cause = 2 ∨ t.cause = 3 ∨ t.cause = 4)) ∧
  (wf = true → t.fault = true → 5 ≤ t.cause)

theorem Machine.endsAsFormed_of_clear {wf : Bool} {t : State} (hwf : wf = true) (ht : t.fault = false) :
    EndsAsFormed wf t := by
  simp [EndsAsFormed, hwf, ht]

theorem Machine.endsAsFormed_operandFault {wf : Bool} {c : Cause} (hwf : wf = false) (hc : c.IsOperandCause)
    (opc : Byte) (s : State) : EndsAsFormed wf (faultEntry c opc s) := by
  rw [EndsAsFormed, faultEntry_fault, faultEntry_cause]
  exact ⟨fun _ => ⟨rfl, hc⟩, fun hformed => by simp [hwf] at hformed⟩

theorem Machine.endsAsFormed_laterFault {wf : Bool} {c : Cause} (hwf : wf = true) (hc : 5 ≤ c.code) (opc : Byte)
    (s : State) : EndsAsFormed wf (faultEntry c opc s) := by
  rw [EndsAsFormed, faultEntry_cause]
  exact ⟨fun hill => by simp [hwf] at hill, fun _ _ => hc⟩

/-- The result of a command's checks and effect, where the operand checks pass exactly on a well-formed command. -/
inductive FormedResult (wf : Bool) : Except Cause State → Prop
  | performed {t : State} (hwf : wf = true) (ht : t.fault = false) : FormedResult wf (.ok t)
  | operandFault {c : Cause} (hwf : wf = false) (hc : c.IsOperandCause) : FormedResult wf (.error c)
  | laterFault {c : Cause} (hwf : wf = true) (hc : 5 ≤ c.code) : FormedResult wf (.error c)

/-- With a clear latch a command's end is that of its result. -/
theorem FormedResult.complete {wf : Bool} {s : State} {r : Except Cause State} (hr : FormedResult wf r)
    (hs : s.fault = false) (opc : Byte) : ∃ t, complete opc s r = .next t ∧ EndsAsFormed wf t := by
  refine ⟨_, rfl, ?_⟩
  cases hr with
  | performed hwf ht => exact settle_ok hs ▸ endsAsFormed_of_clear hwf ht
  | operandFault hwf hc => exact settle_error hs ▸ endsAsFormed_operandFault hwf hc opc s
  | laterFault hwf hc => exact settle_error hs ▸ endsAsFormed_laterFault hwf hc opc s

/-! ### The checks that commands share -/

/-- A wrong operand count is an operand fault. -/
theorem FormedResult.wrongCount {n : Nat} {ops : List Byte} (h : ops.length ≠ n) :
    FormedResult (ops.length == n) (.error .operandLength) :=
  .operandFault (by simpa using h) (.inl rfl)

/-- A command that takes no operand is ill-formed with one. -/
theorem FormedResult.notEmpty (b : Byte) (bs : List Byte) :
    FormedResult ((b :: bs).length == 0) (.error .operandLength) :=
  .wrongCount (List.length_cons ▸ Nat.succ_ne_zero _)

/-- The check of a command that takes exactly `n` operands. -/
theorem FormedResult.count {n : Nat} {ops : List Byte} {t : State} (ht : t.fault = false) :
    FormedResult (ops.length == n) (if ops.length ≠ n then .error .operandLength else .ok t) := by
  split
  · rename_i hcount
    exact .wrongCount hcount
  · rename_i hcount
    exact .performed (by simpa using hcount) ht

/-- A list that is not written out as four bytes has another length. -/
theorem length_ne_four {ops : List Byte} (h : ∀ b0 b1 b2 b3, ops ≠ [b0, b1, b2, b3]) : ops.length ≠ 4 := by
  intro hcount
  obtain ⟨b0, b1, b2, b3, rfl⟩ := List.length_eq_four.mp hcount
  exact h b0 b1 b2 b3 rfl

theorem legalAddrLen_iff {len : BitVec 3} : legalAddrLen len = true ↔ 3 ≤ len ∧ len ≤ 5 := by
  rw [legalAddrLen, Bool.and_eq_true, decide_eq_true_iff, decide_eq_true_iff]

/-- The checks on an address pass exactly on a legal length with that many operand bytes. -/
theorem FormedResult.checkAddr {len : BitVec 3} {ops : List Byte} {t : State} (ht : t.fault = false) :
    FormedResult (legalAddrLen len && ops.length == len.toNat) (checkAddr len ops t) := by
  unfold Machine.checkAddr
  split
  · rename_i hrange
    have hillegal : legalAddrLen len = false := by
      rw [← Bool.not_eq_true, legalAddrLen_iff, not_and_or, BitVec.not_le, BitVec.not_le]
      exact hrange
    exact .operandFault (by rw [hillegal, Bool.false_and]) (.inr (.inl rfl))
  · rename_i hrange
    rw [not_or, BitVec.not_lt, BitVec.not_lt] at hrange
    rw [legalAddrLen_iff.mpr hrange, Bool.true_and]
    exact .count ht

/-- The framing checks raise later causes only. -/
theorem FormedResult.checkFraming {wf : Bool} {s t : State} {valid : Bool} {len : BitVec 3} {missing : Cause}
    {n : Nat} (hwf : wf = true) (hmissing : 5 ≤ missing.code) (ht : t.fault = false) :
    FormedResult wf (checkFraming s valid len missing n t) := by
  cases h : Machine.checkFraming s valid len missing n t with
  | ok u =>
    obtain ⟨rfl, -⟩ := checkFraming_ok h
    exact .performed hwf ht
  | error c =>
    refine .laterFault hwf ?_
    rcases checkFraming_error h with rfl | rfl | ⟨rfl, -⟩
    · exact hmissing
    · decide
    · decide

/-- A command that needs an identity raises a later cause when there is none (R131, R145). -/
theorem FormedResult.needsTxid {wf : Bool} {s t : State} (hwf : wf = true) (ht : t.fault = false) :
    FormedResult wf (if s.txidValid = false then .error .noTxid else .ok t) := by
  split
  · exact .laterFault hwf (by decide)
  · exact .performed hwf ht

/-- A payload of more than 19 bytes is an operand fault, and no other payload is (R110, R111). -/
theorem FormedResult.payload {ops : List Byte} {r : Except Cause State}
    (hr : ops.length ≤ Config.maxPayload → FormedResult (decide (ops.length ≤ Config.maxPayload)) r) :
    FormedResult (decide (ops.length ≤ Config.maxPayload))
      (if Config.maxPayload < ops.length then .error .payloadLenRange else r) := by
  split
  · rename_i hlong
    exact .operandFault (decide_eq_false (Nat.not_le.mpr hlong)) (.inr (.inr rfl))
  · rename_i hshort
    exact hr (Nat.not_lt.mp hshort)

/-! ### The commands -/

/-- Every command with a clear latch ends as its form says. -/
theorem Machine.exec_endsAsFormed (i : Instr) {s : State} (hs : s.fault = false) :
    ∃ t, exec i s = .next t ∧ EndsAsFormed (i.wellFormed s.params.replyLen) t := by
  cases i with
  | nop ops =>
    refine FormedResult.complete ?_ hs _
    cases ops with
    | nil => exact .performed rfl (by simpa using hs)
    | cons b bs => exact .notEmpty b bs
  | configure ops =>
    refine FormedResult.complete ?_ hs _
    split
    · exact .performed rfl (by simpa using hs)
    · rename_i hother
      refine .wrongCount fun hcount => ?_
      obtain ⟨b, rfl⟩ := List.length_eq_one_iff.mp hcount
      exact hother b rfl
  | setTxAddr len ops => exact FormedResult.complete (.checkAddr (by simpa using hs)) hs _
  | setRxAddr len ops => exact FormedResult.complete (.checkAddr (by simpa using hs)) hs _
  | encode ops =>
    refine FormedResult.complete (.payload fun hshort => ?_) hs _
    split
    · exact .checkFraming (decide_eq_true hshort) (by decide) (by simpa [sendPayload] using hs)
    · exact .performed (decide_eq_true hshort) (by simpa [sendPayload] using hs)
  | decode ops =>
    refine FormedResult.complete (.payload fun hshort => ?_) hs _
    split
    · exact .checkFraming (decide_eq_true hshort) (by decide) (by simpa using hs)
    · exact .performed (decide_eq_true hshort) (by simpa using hs)
  | setTxid ops =>
    refine FormedResult.complete ?_ hs _
    split
    · exact .performed rfl (by simpa using hs)
    · rename_i hother
      exact .wrongCount (length_ne_four hother)
  | setAid ops =>
    refine FormedResult.complete ?_ hs _
    split
    · exact .performed rfl (by simpa using hs)
    · rename_i hother
      exact .wrongCount (length_ne_four hother)
  | hopGet k ops =>
    refine FormedResult.complete ?_ hs _
    cases ops with
    | nil => exact .needsTxid rfl (by simpa using hs)
    | cons b bs => exact .notEmpty b bs
  | chWrite c ops =>
    refine FormedResult.complete ?_ hs _
    split
    · exact .performed rfl (by simpa using hs)
    · rename_i hother
      refine .wrongCount fun hcount => ?_
      obtain ⟨lo, hi, rfl⟩ := List.length_eq_two.mp hcount
      exact hother lo hi rfl
  | pack ty ops =>
    refine FormedResult.complete ?_ hs _
    cases ops with
    | nil => exact .needsTxid rfl (by simpa using hs)
    | cons b bs => exact .notEmpty b bs
  | unpack ops => exact FormedResult.complete (.count (by simpa using hs)) hs _
  | parseReply ops => exact FormedResult.complete (.count (by simpa using hs)) hs _
  | status ops =>
    cases ops with
    | nil => exact ⟨_, execStatus_nil s, endsAsFormed_of_clear rfl (by simpa using hs)⟩
    | cons b bs => exact ⟨_, execStatus_cons_of_clear hs, endsAsFormed_operandFault rfl (.inl rfl) _ s⟩
  | rdRxcrc ops =>
    refine FormedResult.complete ?_ hs _
    cases ops with
    | nil => exact .performed rfl (by simpa using hs)
    | cons b bs => exact .notEmpty b bs

/-- Settles O6: every command's operand checks are its well-formedness, and the checks after them raise later causes. -/
theorem operandFaultsAreIllFormedness : Obligations.OperandFaultsAreIllFormedness := by
  unfold Obligations.OperandFaultsAreIllFormedness
  intro i s hclear
  exact exec_endsAsFormed i hclear

end Sys2Proof
end

/-! PROOFS. The framing primitives: the bit reversal, the CRC and what it tells apart, the entries of the matched
address and of its frame order, and the hardware preamble. -/
section
namespace Sys2Proof

open Machine

/-! ### The bit reversal -/

/-- Bit `i` of a reversed byte is bit `7-i` of the byte (R100). -/
theorem Machine.rev8_getLsbD (b : Byte) {i : Nat} (hi : i < 8) : (rev8 b).getLsbD i = b.getLsbD (7 - i) := by
  unfold rev8
  interval_cases i <;> simp only [BitVec.getLsbD_append] <;> simp

/-- A place mirrored twice is itself, and with it every bit. -/
theorem Machine.rev8_rev8 (b : Byte) : rev8 (rev8 b) = b := by
  refine BitVec.eq_of_getLsbD_eq fun i hi => ?_
  rw [rev8_getLsbD _ hi, rev8_getLsbD _ (by omega), Nat.sub_sub_self (by omega)]

/-- Settles O25, from the mirrored bits. -/
theorem bitReversalMirrorsBits : Obligations.BitReversalMirrorsBits := by
  unfold Obligations.BitReversalMirrorsBits
  exact ⟨fun b => ⟨fun i => rev8_getLsbD b i.isLt, rev8_rev8 b⟩, rfl, rfl, rfl, rfl, rfl⟩

/-! ### The CRC -/

/-- The polynomial is odd, so the lowest bit after a shift is the bit shifted out. -/
theorem Machine.crcShift_getLsbD_zero (c : Word) : (crcShift c).getLsbD 0 = c.getLsbD 15 := by
  unfold crcShift
  split <;> simp_all

/-- A shift loses nothing: the bit shifted out says whether the polynomial was added. -/
theorem Machine.crcShift_injective : Function.Injective crcShift := by
  intro c d h
  have htop : c.getLsbD 15 = d.getLsbD 15 := by rw [← crcShift_getLsbD_zero, h, crcShift_getLsbD_zero]
  have hshift : c <<< 1 = d <<< 1 := by
    unfold crcShift at h
    rw [htop] at h
    split at h
    · exact BitVec.xor_left_inj _ |>.mp h
    · exact h
  refine BitVec.eq_of_getLsbD_eq fun i hi => ?_
  rcases Nat.lt_succ_iff_lt_or_eq.mp hi with hlow | rfl
  · simpa [Nat.succ_lt_succ hlow, hi] using congrArg (·.getLsbD (i + 1)) hshift
  · exact htop

theorem Machine.repeat_injective {α : Type} {f : α → α} (hf : Function.Injective f) (n : Nat) :
    Function.Injective (Nat.repeat f n) := by
  induction n with
  | zero => exact Function.injective_id
  | succ n ih => exact hf.comp ih

/-- One byte of the CRC tells the CRCs before it apart. -/
theorem Machine.crcByte_injective_crc (b : Byte) : Function.Injective (crcByte · b) := fun _ _ h =>
  (BitVec.xor_left_inj _).mp (repeat_injective crcShift_injective 8 h)

/-- One byte of the CRC tells the bytes apart: each stands whole in the high half of the word xored in. -/
theorem Machine.crcByte_injective_byte (c : Word) : Function.Injective (crcByte c) := by
  intro x y h
  have hhigh : x.setWidth 16 <<< 8 = (y.setWidth 16 <<< 8 : Word) :=
    (BitVec.xor_right_inj _).mp (repeat_injective crcShift_injective 8 h)
  calc x = hi8 (le16 0 x) := (hi8_le16 0 x).symm
    _ = hi8 (le16 0 y) := by rw [le16, le16, hhigh]
    _ = y := hi8_le16 0 y

/-- Equal bytes keep different CRCs different. -/
theorem Machine.foldl_crcByte_injective (bs : List Byte) : Function.Injective (bs.foldl crcByte) := by
  induction bs with
  | nil => exact Function.injective_id
  | cons b bs ih => exact ih.comp (crcByte_injective_crc b)

/-- The CRC tells apart two strings that differ in exactly one byte. -/
theorem Machine.crc16_ne_of_one_byte (before after : List Byte) {x y : Byte} (h : x ≠ y) :
    crc16 (before ++ x :: after) ≠ crc16 (before ++ y :: after) := by
  simp only [crc16, List.foldl_append, List.foldl_cons]
  exact fun heq => h (crcByte_injective_byte _ (foldl_crcByte_injective after heq))

/-- Settles O27: frames of equal lengths take the same entry of the xor table, and `crc16` tells their bytes apart. -/
theorem frameCrcDetectsOneChangedByte : Obligations.FrameCrcDetectsOneChangedByte := by
  unfold Obligations.FrameCrcDetectsOneChangedByte
  intro p a a' payload payload' before after x y hlen hpayload hbytes hbytes' hne heq
  have hcrc : crc16 (before ++ x :: after) = crc16 (before ++ y :: after) := by
    rwa [frameCrc, frameCrc, airCrc, airCrc, hbytes, hbytes', scramblePayload_length, scramblePayload_length, hlen,
      hpayload, BitVec.xor_left_inj] at heq
  exact crc16_ne_of_one_byte before after hne hcrc

/-! ### The matched address -/

theorem Machine.scrambleAt_of_lt (p : Params) {i : Nat} (hi : i < 35) : scrambleAt p i = p.scramble[i] := by
  simp [scrambleAt, List.getD_eq_getElem?_getD, hi]

/-- Entry `j` of the frame order (R102). -/
theorem Machine.addrSeq_getElem? (p : Params) (a : List Byte) {j : Nat} (hj : j < a.length) :
    (addrSeq p a)[j]? = some (a[a.length - 1 - j] ^^^ scrambleAt p j) := by
  rw [addrSeq, scrambleRun_getElem?, List.getElem?_reverse hj, List.getElem?_eq_getElem, Nat.zero_add, Option.map_some]

/-- The frame order reads the matched address backwards (R102). -/
theorem Machine.matchAddr_getElem? (p : Params) (a : List Byte) {i : Nat} (hi : i < a.length) :
    (matchAddr p a)[i]? = (addrSeq p a)[a.length - 1 - i]? := by
  rw [matchAddr, List.getElem?_reverse (by simpa using hi), addrSeq_length]

/-- Settles O28: the entries of the frame order, and those of the matched address as the same bytes backwards. -/
theorem matchedAddressAndItsFrameOrder : Obligations.MatchedAddressAndItsFrameOrder := by
  unfold Obligations.MatchedAddressAndItsFrameOrder
  intro p len hl a
  have hlen : a.toList.length = len := a.length_toList
  have seq {j : Nat} (hj : j < len) : (addrSeq p a.toList)[j]? = some (a[len - 1 - j] ^^^ p.scramble[j]) := by
    rw [addrSeq_getElem? p _ (hlen.symm ▸ hj), scrambleAt_of_lt p (by omega)]
    simp
  have mirror {i : Nat} (hi : i < len) : (matchAddr p a.toList)[i]? = (addrSeq p a.toList)[len - 1 - i]? := by
    rw [matchAddr_getElem? p _ (hlen.symm ▸ hi), hlen]
  refine ⟨by simp, by simp, fun i hi => ⟨?_, seq hi, ?_⟩⟩
  · rw [mirror hi, seq (by omega), BitVec.xor_comm]
    simp only [Nat.sub_sub_self (Nat.le_sub_one_of_lt hi)]
  · rw [mirror (by omega), Nat.sub_sub_self (Nat.le_sub_one_of_lt hi)]

/-! ### The hardware preamble -/

/-- The preamble of R8, byte by byte. -/
theorem Machine.preamble4_toList (p : Params) :
    p.preamble4.toList = [p.preamble4[0], p.preamble4[1], p.preamble4[2], p.preamble4[3]] := by
  refine List.ext_getElem p.preamble4.length_toList fun i hi _ => ?_
  rw [Vector.length_toList] at hi
  interval_cases i <;> rfl

/-- From length 4 on the whole preamble and one pad byte stand before the address (R104). -/
theorem Machine.hwPreamble_of_four_le (p : Params) {len : Nat} (h : 4 ≤ len) :
    hwPreamble p len = p.preamble4.toList ++ [p.prePad] :=
  if_neg (Nat.not_lt.mpr h)

/-- At length 3 the first preamble byte has dropped out, for a second pad byte (R104). -/
theorem Machine.hwPreamble_three (p : Params) :
    hwPreamble p 3 = [p.preamble4[1], p.preamble4[2], p.preamble4[3], p.prePad, p.prePad] := by
  rw [hwPreamble, if_pos (by decide), preamble4_toList]
  rfl

/-- Settles O30, from the preamble for length 3 and for the two lengths above it. -/
theorem hardwarePreambleForEachLength : Obligations.HardwarePreambleForEachLength := by
  unfold Obligations.HardwarePreambleForEachLength
  intro p
  have whole {len : Nat} (h : 4 ≤ len) :
      hwPreamble p len = [p.preamble4[0], p.preamble4[1], p.preamble4[2], p.preamble4[3], p.prePad] := by
    rw [hwPreamble_of_four_le p h, preamble4_toList]
    rfl
  exact ⟨whole (by decide), whole (by decide), hwPreamble_three p⟩

end Sys2Proof
end

/-! PROOFS. The framing commands with a clear latch, one by one: what a command's checks let pass and what they fault
with, and the whole state a performed command ends in. -/
section
namespace Sys2Proof

open Machine

/-! ### The end of a command with a clear latch -/

theorem Machine.complete_ok {opc : Byte} {s t : State} (h : s.fault = false) : complete opc s (.ok t) = .next t :=
  congrArg _ (settle_ok h)

theorem Machine.complete_error {opc : Byte} {s : State} {c : Cause} (h : s.fault = false) :
    complete opc s (.error c) = .next (Safety.afterFault s c.code opc) :=
  congrArg _ (settle_error h)

/-! ### CONFIGURE -/

/-- `CRC_EN` as the inequality R107 writes. -/
theorem Machine.exec_configure_one {s : State} (hclear : s.fault = false) (cfg : Byte) :
    exec (.configure [cfg]) s = .next (({ s with
      crcEn := decide (cfg &&& s.params.cfgCrcMask ≠ 0)
      stream := s.stream ++ [.wrConfig (forwardedConfig s.params cfg)] } : State).respond []) := by
  have hbit : (cfg &&& s.params.cfgCrcMask != 0) = decide (cfg &&& s.params.cfgCrcMask ≠ 0) := by
    rw [Bool.eq_iff_iff, bne_iff_ne, decide_eq_true_iff]
  rw [← hbit]
  exact complete_ok hclear

theorem Machine.exec_configure_of_count {s : State} (hclear : s.fault = false) {ops : List Byte}
    (hcount : ops.length ≠ 1) : exec (.configure ops) s = .next (Safety.afterFault s 2 0x10) := by
  match ops, hcount with
  | [], _ => exact complete_error hclear
  | [_], hcount => exact absurd rfl hcount
  | _ :: _ :: _, _ => exact complete_error hclear

/-- Settles O34: one operand is captured and forwarded, any other count faults. -/
theorem configureCapturesCrcEnable : Obligations.ConfigureCapturesCrcEnable := by
  unfold Obligations.ConfigureCapturesCrcEnable
  intro s cfg ops hclear
  exact ⟨decode_encode (.configure ops), exec_configure_one hclear cfg, exec_configure_of_count hclear⟩

/-! ### The checks on an address -/

section
variable {s t : State} {len : BitVec 3} {ops : List Byte}

theorem Machine.checkAddr_of_legal (hmin : 3 ≤ len) (hmax : len ≤ 5) (hcount : ops.length = len.toNat) :
    checkAddr len ops t = .ok t := by
  rw [checkAddr, if_neg (not_or.mpr ⟨BitVec.not_lt.mpr hmin, BitVec.not_lt.mpr hmax⟩), if_neg (not_not.mpr hcount)]

theorem Machine.checkAddr_of_range (h : len < 3 ∨ 5 < len) : checkAddr len ops t = .error .addrLenRange :=
  if_pos h

theorem Machine.checkAddr_of_count (hmin : 3 ≤ len) (hmax : len ≤ 5) (hcount : ops.length ≠ len.toNat) :
    checkAddr len ops t = .error .operandLength := by
  rw [checkAddr, if_neg (not_or.mpr ⟨BitVec.not_lt.mpr hmin, BitVec.not_lt.mpr hmax⟩), if_pos hcount]

end

/-! ### SET_TX_ADDR -/

section
variable {s : State} {len : BitVec 3} {ops : List Byte}

/-- SET_TX_ADDR performed, for every legal length at once (R108). -/
theorem Machine.exec_setTxAddr_of_legal (hclear : s.fault = false) (hmin : 3 ≤ len) (hmax : len ≤ 5)
    (hcount : ops.length = len.toNat) :
    exec (.setTxAddr len ops) s = .next (({ s with
      txAddr := writeAddr s.txAddr ops, txaLen := len, txaValid := true, addrLen := len
      stream := s.stream ++ [.wrAw len, .wrTxAddr (txRegisterBytes s.params ops len.toNat)] } : State).respond []) := by
  rw [exec, execSetTxAddr, checkAddr_of_legal hmin hmax hcount, complete_ok hclear]
  simp only [State.emit, List.append_assoc, List.cons_append, List.nil_append]

end

/-- Settles O35: a legal length with its operands is the performed command with the preamble for that length, and the
two faults are those of the checks on an address. -/
theorem setTxAddrStoresTheAddress : Obligations.SetTxAddrStoresTheAddress := by
  unfold Obligations.SetTxAddrStoresTheAddress
  intro s len ops a0 a1 a2 a3 a4 hclear
  refine ⟨decode_encode (.setTxAddr len ops), ?_, ?_, ?_, fun hrange => ?_, fun hmin hmax hcount => ?_⟩
  · rw [exec_setTxAddr_of_legal hclear (by decide) (by decide) rfl, txRegisterBytes, ← hwPreamble_three]
    rfl
  · exact exec_setTxAddr_of_legal hclear (by decide) (by decide) rfl
  · exact exec_setTxAddr_of_legal hclear (by decide) (by decide) rfl
  · rw [exec, execSetTxAddr, checkAddr_of_range hrange]
    exact complete_error hclear
  · rw [exec, execSetTxAddr, checkAddr_of_count hmin hmax hcount]
    exact complete_error hclear

/-! ### SET_RX_ADDR -/

section
variable {s : State} {len : BitVec 3} {ops : List Byte}

/-- SET_RX_ADDR performed, for every legal length at once (R109). -/
theorem Machine.exec_setRxAddr_of_legal (hclear : s.fault = false) (hmin : 3 ≤ len) (hmax : len ≤ 5)
    (hcount : ops.length = len.toNat) :
    exec (.setRxAddr len ops) s = .next (({ s with
      rxAddr := writeAddr s.rxAddr ops, rxaLen := len, rxaValid := true, addrLen := len
      stream := s.stream ++ [.wrAw len, .wrRxAddr (rxRegisterBytes s.params ops)] } : State).respond []) := by
  rw [exec, execSetRxAddr, checkAddr_of_legal hmin hmax hcount, complete_ok hclear]
  simp only [State.emit, List.append_assoc, List.cons_append, List.nil_append]

end

theorem Machine.scrambleRun_append (p : Params) (i : Nat) (xs ys : List Byte) :
    scrambleRun p i (xs ++ ys) = scrambleRun p i xs ++ scrambleRun p (i + xs.length) ys := by
  induction xs generalizing i with
  | nil => rfl
  | cons x xs ih => simp [scrambleRun, ih, Nat.add_assoc, Nat.add_comm 1]

/-- The first byte of an address is the last of its frame order, so its scramble index is the count of the bytes after
it (R102). -/
theorem Machine.matchAddr_cons (p : Params) (b : Byte) (a : List Byte) :
    matchAddr p (b :: a) = (scrambleAt p a.length ^^^ b) :: matchAddr p a := by
  simp [matchAddr, addrSeq, scrambleRun_append, scrambleRun, BitVec.xor_comm]

theorem Machine.matchAddr_nil (p : Params) : matchAddr p [] = [] := rfl

/-- Settles O36, as O35 with the matched address in the place of the preamble. -/
theorem setRxAddrStoresTheAddress : Obligations.SetRxAddrStoresTheAddress := by
  unfold Obligations.SetRxAddrStoresTheAddress
  intro s len ops a0 a1 a2 a3 a4 hclear sc
  refine ⟨decode_encode (.setRxAddr len ops), ?_, ?_, ?_, fun hrange => ?_, fun hmin hmax hcount => ?_⟩
  · rw [exec_setRxAddr_of_legal hclear (by decide) (by decide) rfl]
    simp [rxRegisterBytes, matchAddr_cons, matchAddr_nil, scrambleAt_of_lt, sc, writeAddr]
  · rw [exec_setRxAddr_of_legal hclear (by decide) (by decide) rfl]
    simp [rxRegisterBytes, matchAddr_cons, matchAddr_nil, scrambleAt_of_lt, sc, writeAddr]
  · rw [exec_setRxAddr_of_legal hclear (by decide) (by decide) rfl]
    simp [rxRegisterBytes, matchAddr_cons, matchAddr_nil, scrambleAt_of_lt, sc, writeAddr]
  · rw [exec, execSetRxAddr, checkAddr_of_range hrange]
    exact complete_error hclear
  · rw [exec, execSetRxAddr, checkAddr_of_count hmin hmax hcount]
    exact complete_error hclear

/-! ### The checks on an address and a payload -/

section
variable {s t : State} {valid : Bool} {len : BitVec 3} {missing : Cause} {n : Nat}

theorem Machine.checkFraming_of_missing (hvalid : valid = false) :
    checkFraming s valid len missing n t = .error missing :=
  if_pos hvalid

theorem Machine.checkFraming_of_mismatch (hvalid : valid = true) (hlen : len ≠ s.addrLen) :
    checkFraming s valid len missing n t = .error .addrLenMismatch := by
  simp [checkFraming, hvalid, hlen]

theorem Machine.checkFraming_of_index (hvalid : valid = true) (hlen : len = s.addrLen) (hcrc : s.crcEn = true)
    (hindex : s.params.xorTable.length ≤ xorIndex s.addrLen.toNat n) :
    checkFraming s valid len missing n t = .error .tableIndex := by
  simp [checkFraming, hvalid, hlen, hcrc, hindex]

theorem Machine.checkFraming_of_pass (hvalid : valid = true) (hlen : len = s.addrLen)
    (hindex : s.crcEn = true → xorIndex s.addrLen.toNat n < s.params.xorTable.length) :
    checkFraming s valid len missing n t = .ok t := by
  rw [checkFraming, if_neg (by simp [hvalid]), if_neg (not_not.mpr hlen),
    if_neg fun h => absurd (hindex h.1) (Nat.not_lt.mpr h.2)]

end

/-- An entry that the xor table has is the one read, and its index has passed the check. -/
theorem Machine.xorAt_of_getElem? {p : Params} {i : Nat} {x : Word} (h : p.xorTable[i]? = some x) :
    xorAt p i = x ∧ i < p.xorTable.length :=
  ⟨by rw [xorAt, List.getD_eq_getElem?_getD, h, Option.getD_some], (List.getElem?_eq_some_iff.mp h).1⟩

/-! ### The frame -/

/-- Only the shortest legal address has the preamble byte dropped before it (R105). -/
theorem Machine.droppedPreamble_of_legal (p : Params) {len : Nat} (hmin : 3 ≤ len) :
    droppedPreamble p len = if len = 3 then [p.preamble4[0]] else [] := by
  have hshort : len < 4 ↔ len = 3 := by omega
  simp only [droppedPreamble, hshort]

/-- The length of a frame of a stored address (R105). -/
theorem Machine.frame_length_of_legal (p : Params) (reg : Vector Byte 5) {len : BitVec 3} (payload : List Byte)
    (ce : Bool) (hmin : 3 ≤ len) (hmax : len ≤ 5) :
    (frame p (readAddr reg len) len.toNat payload ce).length =
      (if len.toNat = 3 then 1 else 0) + len.toNat + payload.length + (if ce then 2 else 0) := by
  have hshort : len.toNat < 4 ↔ len.toNat = 3 := by bv_omega
  have hfits : min len.toNat 5 = len.toNat := Nat.min_eq_left (by bv_omega)
  simp only [frame_length, readAddr_length, hshort, hfits]

/-! ### ENCODE -/

section
variable {s : State} {ops : List Byte}

theorem Machine.exec_encode_of_long (hclear : s.fault = false) (hlong : 19 < ops.length) :
    exec (.encode ops) s = .next (Safety.afterFault s 4 0x40) := by
  rw [exec, execEncode, if_pos hlong]
  exact complete_error hclear

theorem Machine.exec_encode_passthrough (hclear : s.fault = false) (hshort : ops.length ≤ 19)
    (hpass : s.params.emulate = false) : exec (.encode ops) s = .next (sendPayload s ops) := by
  rw [exec, execEncode, if_neg (Nat.not_lt.mpr hshort), if_neg (by simp [hpass])]
  exact complete_ok hclear

/-- In emulation the framing checks decide. -/
theorem Machine.exec_encode_emulation (hshort : ops.length ≤ 19) (hemu : s.params.emulate = true) :
    exec (.encode ops) s = complete 0x40 s (checkFraming s s.txaValid s.txaLen .noTxAddr ops.length
      (sendPayload s (frame s.params (readAddr s.txAddr s.addrLen) s.addrLen.toNat ops s.crcEn))) := by
  rw [exec, execEncode, if_neg (Nat.not_lt.mpr hshort), if_pos hemu]
  rfl

/-- ENCODE faults in emulation with the cause the framing checks raise. -/
theorem Machine.exec_encode_of_checkFraming_error {c : Cause} (hclear : s.fault = false) (hshort : ops.length ≤ 19)
    (hemu : s.params.emulate = true)
    (hcheck : ∀ t, checkFraming s s.txaValid s.txaLen .noTxAddr ops.length t = .error c) :
    exec (.encode ops) s = .next (Safety.afterFault s c.code 0x40) := by
  rw [exec_encode_emulation hshort hemu, hcheck, complete_error hclear]

/-- ENCODE performed in emulation (R110): every check has passed, and the frame goes out. -/
theorem Machine.exec_encode_framed (hclear : s.fault = false) (hshort : ops.length ≤ 19)
    (hemu : s.params.emulate = true) (hvalid : s.txaValid = true) (hlen : s.txaLen = s.addrLen)
    (hmin : 3 ≤ s.addrLen) (hmax : s.addrLen ≤ 5)
    (hindex : s.crcEn = true → xorIndex s.addrLen.toNat ops.length < s.params.xorTable.length) :
    exec (.encode ops) s = .next (
      ({ s with stream := s.stream ++ [.wrPayload (
        (if s.addrLen.toNat = 3 then [s.params.preamble4[0]] else []) ++
          addrSeq s.params (readAddr s.txAddr s.addrLen) ++ scramblePayload s.params s.addrLen.toNat ops ++
          (if s.crcEn then beBytes (frameCrc s.params (readAddr s.txAddr s.addrLen) s.addrLen.toNat ops) else []))] }
        : State).respond
        [BitVec.ofNat 8 ((if s.addrLen.toNat = 3 then 1 else 0) + s.addrLen.toNat + ops.length +
          (if s.crcEn then 2 else 0))]) := by
  have hminNat : 3 ≤ s.addrLen.toNat := BitVec.le_def.mp hmin
  rw [exec_encode_emulation hshort hemu, checkFraming_of_pass hvalid hlen hindex, complete_ok hclear, sendPayload,
    frame_length_of_legal _ _ _ _ hmin hmax, frame, droppedPreamble_of_legal _ hminNat]
  rfl

end

/-- Settles O37: each check that fails answers its cause, and when all pass the frame goes out with the CRC or without
it. -/
theorem encodeFramesThePayload : Obligations.EncodeFramesThePayload := by
  unfold Obligations.EncodeFramesThePayload
  intro s ops hclear len a ready
  refine ⟨decode_encode (.encode ops), exec_encode_of_long hclear, exec_encode_passthrough hclear, ?missing,
    ?mismatch, ?index, ?crcOff, ?crcOn⟩
  case missing =>
    intro hshort hemu hvalid
    exact exec_encode_of_checkFraming_error hclear hshort hemu fun _ => checkFraming_of_missing hvalid
  case mismatch =>
    intro hshort hemu hvalid hlen
    exact exec_encode_of_checkFraming_error hclear hshort hemu fun _ => checkFraming_of_mismatch hvalid hlen
  case index =>
    rintro hshort ⟨hemu, hvalid, hlen, -, -⟩ hcrc hindex
    exact exec_encode_of_checkFraming_error hclear hshort hemu fun _ => checkFraming_of_index hvalid hlen hcrc hindex
  case crcOff =>
    rintro hshort ⟨hemu, hvalid, hlen, hmin, hmax⟩ hcrc
    rw [exec_encode_framed hclear hshort hemu hvalid hlen hmin hmax (by simp [hcrc])]
    simp only [hcrc, Bool.false_eq_true, if_false, List.append_nil, Nat.add_zero]
    rfl
  case crcOn =>
    rintro x hshort ⟨hemu, hvalid, hlen, hmin, hmax⟩ hcrc hentry c
    obtain ⟨hx, hindex⟩ := xorAt_of_getElem? hentry
    have hc : frameCrc s.params a len ops = c := by
      rw [frameCrc, airCrc, scramblePayload_length, xorIndex, hx]
    rw [exec_encode_framed hclear hshort hemu hvalid hlen hmin hmax fun _ => hindex, ← hc]
    simp only [hcrc, if_true]
    rfl

/-! ### DECODE -/

section
variable {s : State} {ops : List Byte}

theorem Machine.exec_decode_of_long (hclear : s.fault = false) (hlong : 19 < ops.length) :
    exec (.decode ops) s = .next (Safety.afterFault s 4 0x50) := by
  rw [exec, execDecode, if_pos hlong]
  exact complete_error hclear

theorem Machine.exec_decode_passthrough (hclear : s.fault = false) (hshort : ops.length ≤ 19)
    (hpass : s.params.emulate = false) : exec (.decode ops) s = .next (s.respond ops) := by
  rw [exec, execDecode, if_neg (Nat.not_lt.mpr hshort), if_neg (by simp [hpass])]
  exact complete_ok hclear

/-- In emulation the framing checks decide. -/
theorem Machine.exec_decode_emulation (hshort : ops.length ≤ 19) (hemu : s.params.emulate = true) :
    exec (.decode ops) s = complete 0x50 s (checkFraming s s.rxaValid s.rxaLen .noRxAddr ops.length
      (({ s with rxcrc := receivedCrc s ops } : State).respond
        (descramblePayload s.params s.addrLen.toNat ops))) := by
  rw [exec, execDecode, if_neg (Nat.not_lt.mpr hshort), if_pos hemu]
  rfl

/-- DECODE faults in emulation with the cause the framing checks raise. -/
theorem Machine.exec_decode_of_checkFraming_error {c : Cause} (hclear : s.fault = false) (hshort : ops.length ≤ 19)
    (hemu : s.params.emulate = true)
    (hcheck : ∀ t, checkFraming s s.rxaValid s.rxaLen .noRxAddr ops.length t = .error c) :
    exec (.decode ops) s = .next (Safety.afterFault s c.code 0x50) := by
  rw [exec_decode_emulation hshort hemu, hcheck, complete_error hclear]

/-- DECODE performed in emulation (R111): every check has passed, and the payload comes back. -/
theorem Machine.exec_decode_framed (hclear : s.fault = false) (hshort : ops.length ≤ 19)
    (hemu : s.params.emulate = true) (hvalid : s.rxaValid = true) (hlen : s.rxaLen = s.addrLen)
    (hindex : s.crcEn = true → xorIndex s.addrLen.toNat ops.length < s.params.xorTable.length) :
    exec (.decode ops) s = .next (({ s with rxcrc := receivedCrc s ops } : State).respond
      (descramblePayload s.params s.addrLen.toNat ops)) := by
  rw [exec_decode_emulation hshort hemu, checkFraming_of_pass hvalid hlen hindex, complete_ok hclear]

end

/-- Settles O38: each check that fails answers its cause, and when all pass the payload comes back, with `RXCRC` written
only while the CRC is on. -/
theorem decodeRecoversThePayload : Obligations.DecodeRecoversThePayload := by
  unfold Obligations.DecodeRecoversThePayload
  intro s ops hclear len a ready
  refine ⟨decode_encode (.decode ops), exec_decode_of_long hclear, exec_decode_passthrough hclear, ?missing,
    ?mismatch, ?index, ?crcOff, ?crcOn⟩
  case missing =>
    intro hshort hemu hvalid
    exact exec_decode_of_checkFraming_error hclear hshort hemu fun _ => checkFraming_of_missing hvalid
  case mismatch =>
    intro hshort hemu hvalid hlen
    exact exec_decode_of_checkFraming_error hclear hshort hemu fun _ => checkFraming_of_mismatch hvalid hlen
  case index =>
    rintro hshort ⟨hemu, hvalid, hlen, -, -⟩ hcrc hindex
    exact exec_decode_of_checkFraming_error hclear hshort hemu fun _ => checkFraming_of_index hvalid hlen hcrc hindex
  case crcOff =>
    rintro hshort ⟨hemu, hvalid, hlen, -, -⟩ hcrc
    have hkept : receivedCrc s ops = s.rxcrc := if_neg (by simp [hcrc])
    rw [exec_decode_framed hclear hshort hemu hvalid hlen (by simp [hcrc]), hkept]
  case crcOn =>
    rintro x hshort ⟨hemu, hvalid, hlen, -, -⟩ hcrc hentry
    obtain ⟨hx, hindex⟩ := xorAt_of_getElem? hentry
    have hwritten : receivedCrc s ops = crc16 (addrSeq s.params a ++ ops) ^^^ x := by
      rw [receivedCrc, if_pos hcrc, airCrc, xorIndex, hx]
      rfl
    rw [exec_decode_framed hclear hshort hemu hvalid hlen fun _ => hindex, hwritten]

end Sys2Proof
end

/-! PROOFS. The hop plan and HOP_GET with a clear latch: the entry a command's field selects, and the two checks in the
order of R131. -/
section
namespace Sys2Proof

open Machine

/-! ### The entries of the hop plan -/

theorem hopIndex_cases : ∀ k : BitVec 2, k = 0 ∨ k = 1 ∨ k = 2 ∨ k = 3 := by decide

/-- The entry a HOP_GET selects, each identity nibble above its base (R130). -/
theorem Machine.hopPlan_getElem (id0 id1 : Byte) (k : BitVec 2) :
    (hopPlan id0 id1)[k.toNat]'k.isLt =
      if k = 0 then (id0 &&& (0x0F : Byte)) + (0x03 : Byte)
      else if k = 1 then (id0 >>> 4) + (0x16 : Byte)
      else if k = 2 then (id1 &&& (0x0F : Byte)) + (0x2D : Byte)
      else (id1 >>> 4) + (0x40 : Byte) := by
  rcases hopIndex_cases k with rfl | rfl | rfl | rfl <;> rfl

/-! ### HOP_GET -/

section
variable {s : State} {k : BitVec 2} {ops : List Byte}

theorem Machine.exec_hopGet_of_valid (hclear : s.fault = false) (hvalid : s.txidValid = true) :
    exec (.hopGet k []) s = .next (s.respond [(hopPlan s.txid[0] s.txid[1])[k.toNat]'k.isLt]) := by
  simp only [exec, execHopGet, hvalid, Bool.true_eq_false, if_false, complete_ok hclear]

theorem Machine.exec_hopGet_of_missing (hclear : s.fault = false) (hmissing : s.txidValid = false) :
    exec (.hopGet k []) s = .next (Safety.afterFault s 9 (0x70 ||| k.setWidth 8)) := by
  simp only [exec, execHopGet, hmissing, if_true, complete_error hclear]
  rfl

/-- The operand check comes first: with operands the identity is not looked at. -/
theorem Machine.exec_hopGet_of_operands (hclear : s.fault = false) (hops : ops ≠ []) :
    exec (.hopGet k ops) s = .next (Safety.afterFault s 2 (0x70 ||| k.setWidth 8)) := by
  match ops, hops with
  | [], hops => exact absurd rfl hops
  | _ :: _, _ => exact complete_error hclear

end

/-- Settles O41: the three ways HOP_GET can end, with the selected entry of the plan spelled out. -/
theorem hopGetReadsThePlan : Obligations.HopGetReadsThePlan := by
  unfold Obligations.HopGetReadsThePlan
  intro s k ops hclear
  refine ⟨decode_encode (.hopGet k ops), fun hvalid => ?_, exec_hopGet_of_operands hclear,
    exec_hopGet_of_missing hclear⟩
  rw [exec_hopGet_of_valid hclear hvalid, hopPlan_getElem]

end Sys2Proof
end

/-! PROOFS. The packet codec with a clear latch: the layout of the packet PACK builds and of the one UNPACK takes apart,
byte by byte, and each codec command performed and faulted. -/
section
namespace Sys2Proof

open Machine

/-! ### The bytes of vectors and lists -/

theorem toList_eq_ofFn {n : Nat} (v : Vector Byte n) : v.toList = List.ofFn fun i : Fin n => v[i] :=
  List.ext_getElem (by simp) (by simp)

theorem toList_four (v : Vector Byte 4) : v.toList = [v[0], v[1], v[2], v[3]] :=
  toList_eq_ofFn v

theorem Machine.byteAt_toList {n : Nat} (v : Vector Byte n) {i : Nat} (h : i < n) : byteAt v.toList i = v[i] := by
  simp [byteAt, h]

theorem Machine.byteAt_of_getElem? {xs : List Byte} {i : Nat} {b : Byte} (h : xs[i]? = some b) : byteAt xs i = b := by
  simp [byteAt, h]

theorem Machine.bytesFrom_succ {xs : List Byte} {i n : Nat} {b : Byte} (h : xs[i]? = some b) :
    bytesFrom xs i (n + 1) = b :: bytesFrom xs (i + 1) n := by
  obtain ⟨hi, rfl⟩ := List.getElem?_eq_some_iff.mp h
  rw [bytesFrom, List.drop_eq_getElem_cons hi, List.take_succ_cons, bytesFrom]

/-- R12's `le16` puts the second byte before the first. -/
theorem Machine.le16_eq_append (lo hi : Byte) : le16 lo hi = hi ++ lo := by
  have hlo : lo8 (hi ++ lo) = lo := BitVec.extractLsb'_append_eq_right
  have hhi : hi8 (hi ++ lo) = hi := BitVec.extractLsb'_append_eq_left
  calc le16 lo hi = le16 (lo8 (hi ++ lo)) (hi8 (hi ++ lo)) := by rw [hlo, hhi]
    _ = hi ++ lo := le16_lo8_hi8 _

/-! ### The check of an operand count -/

section
variable {s t : State} {opc : Byte} {n : Nat} {ops : List Byte}

theorem Machine.complete_of_count (hclear : s.fault = false) (hcount : ops.length = n) :
    complete opc s (if ops.length ≠ n then .error .operandLength else .ok t) = .next t := by
  rw [if_neg (not_not.mpr hcount), complete_ok hclear]

theorem Machine.complete_of_wrongCount (hclear : s.fault = false) (hcount : ops.length ≠ n) :
    complete opc s (if ops.length ≠ n then .error .operandLength else .ok t) =
      .next (Safety.afterFault s 2 opc) := by
  rw [if_pos hcount]
  exact complete_error hclear

end

/-! ### SET_TXID and SET_AID -/

section
variable {s : State} {ops : List Byte}

theorem Machine.exec_setTxid_of_count (hclear : s.fault = false) (hcount : ops.length ≠ 4) :
    exec (.setTxid ops) s = .next (Safety.afterFault s 2 0x60) := by
  rw [exec, execSetTxid]
  · exact complete_error hclear
  · rintro b0 b1 b2 b3 rfl
    exact hcount rfl

theorem Machine.exec_setAid_of_count (hclear : s.fault = false) (hcount : ops.length ≠ 4) :
    exec (.setAid ops) s = .next (Safety.afterFault s 2 0x61) := by
  rw [exec, execSetAid]
  · exact complete_error hclear
  · rintro b0 b1 b2 b3 rfl
    exact hcount rfl

end

/-- Settles O39: four operands are loaded with the valid bit, any other count faults. -/
theorem setTxidLoadsTheIdentity : Obligations.SetTxidLoadsTheIdentity := by
  unfold Obligations.SetTxidLoadsTheIdentity
  intro s b0 b1 b2 b3 ops hclear
  exact ⟨decode_encode (.setTxid ops), complete_ok hclear, exec_setTxid_of_count hclear⟩

/-- Settles O40: four operands are loaded, any other count faults. -/
theorem setAidLoadsTheIdentity : Obligations.SetAidLoadsTheIdentity := by
  unfold Obligations.SetAidLoadsTheIdentity
  intro s b0 b1 b2 b3 ops hclear
  exact ⟨decode_encode (.setAid ops), complete_ok hclear, exec_setAid_of_count hclear⟩

/-! ### CH_WRITE -/

section
variable {s : State} {c : Channel} {ops : List Byte}

theorem Machine.exec_chWrite_two (hclear : s.fault = false) (lo hi : Byte) :
    exec (.chWrite c [lo, hi]) s = .next (({ s with ch := s.ch.set c (hi ++ lo) } : State).respond []) := by
  rw [← le16_eq_append]
  exact complete_ok hclear

theorem Machine.exec_chWrite_of_count (hclear : s.fault = false) (hcount : ops.length ≠ 2) :
    exec (.chWrite c ops) s = .next (Safety.afterFault s 2 (0x80 ||| BitVec.ofNat 8 c.val)) := by
  rw [exec, execChWrite]
  · exact complete_error hclear
  · rintro lo hi rfl
    exact hcount rfl

end

/-- Settles O42: the vector written is the old one with the channel's entry replaced. -/
theorem chWriteStoresOneChannel : Obligations.ChWriteStoresOneChannel := by
  unfold Obligations.ChWriteStoresOneChannel
  intro s c lo hi ops hclear
  refine ⟨decode_encode (.chWrite c ops), ⟨s.ch.set c (hi ++ lo), exec_chWrite_two hclear lo hi, ?_, ?_⟩,
    exec_chWrite_of_count hclear⟩
  · exact Vector.getElem_set_self c.isLt
  · intro d hd
    exact Vector.getElem_set_ne c.isLt d.isLt (Fin.val_ne_of_ne hd.symm)

/-! ### The packet built -/

theorem Machine.flipFlag_iff {p : Params} {ch : Vector Word 6} :
    flipFlag p ch = true ↔ ch[p.flipSrc] > p.flipThreshold :=
  decide_eq_true_iff

/-- A field with the flag or-ed in as a word that is 0 when the flag is clear: only the flip field can differ from its
biased value. -/
theorem Machine.packetField_eq (p : Params) (ch : Vector Word 6) (k : Fin 4) :
    packetField p ch k =
      if k = p.flipField then
        (ch[fieldChannel k] + 1000) ||| (if ch[p.flipSrc] > p.flipThreshold then (1 : Word) <<< p.flipBit.val else 0)
      else ch[fieldChannel k] + 1000 := by
  simp only [packetField, flipFlag_iff]
  by_cases hfield : k = p.flipField
  · by_cases hflag : ch[p.flipSrc] > p.flipThreshold
    · rw [if_pos ⟨hflag, hfield⟩, if_pos hfield, if_pos hflag, flipMask]
    · rw [if_neg (hflag ·.1), if_pos hfield, if_neg hflag]
      exact BitVec.or_zero.symm
  · rw [if_neg (hfield ·.2), if_neg hfield]

theorem Machine.typeMarker_eq (ty : PacketType) : typeMarker ty = if ty = .bind then (0xAA : Byte) else 0x55 := by
  cases ty <;> rfl

theorem Machine.marshal_eq (p : Params) (ty : PacketType) (txid aid : Vector Byte 4) (ch : Vector Word 6) :
    marshal p ty txid aid ch =
      [typeMarker ty, txid[0], txid[1], txid[2], txid[3], aid[0], aid[1], aid[2], aid[3],
       lo8 (packetField p ch 0), hi8 (packetField p ch 0), lo8 (packetField p ch 1), hi8 (packetField p ch 1),
       lo8 (packetField p ch 2), hi8 (packetField p ch 2), lo8 (packetField p ch 3), hi8 (packetField p ch 3),
       modeByte p ch, 0] := by
  rw [marshal, toList_four txid, toList_four aid]
  rfl

/-- Settles O43: the list of `marshal` with its marker and its four fields spelled out. -/
theorem packetLayout : Obligations.PacketLayout := by
  unfold Obligations.PacketLayout
  intro p ty txid aid ch
  rw [marshal_eq, typeMarker_eq]
  simp only [packetField_eq]
  rfl

/-! ### PACK -/

section
variable {s : State} {ty : PacketType} {ops : List Byte}

theorem Machine.opcode_pack (ty : PacketType) (ops : List Byte) :
    (Instr.pack ty ops).opcode = if ty = .bind then 0x91 else 0x90 := by
  cases ty <;> rfl

theorem Machine.exec_pack_of_valid (hclear : s.fault = false) (hvalid : s.txidValid = true) :
    exec (.pack ty []) s = .next (s.respond (marshal s.params ty s.txid s.aid s.ch)) := by
  simp only [exec, execPack, hvalid, Bool.true_eq_false, if_false, complete_ok hclear]

theorem Machine.exec_pack_of_missing (hclear : s.fault = false) (hmissing : s.txidValid = false) :
    exec (.pack ty []) s = .next (Safety.afterFault s 9 (Instr.pack ty []).opcode) := by
  simp only [exec, execPack, hmissing, if_true]
  exact complete_error hclear

/-- The operand check comes first: with operands the identity is not looked at. -/
theorem Machine.exec_pack_of_operands (hclear : s.fault = false) (hops : ops ≠ []) :
    exec (.pack ty ops) s = .next (Safety.afterFault s 2 (Instr.pack ty ops).opcode) := by
  match ops, hops with
  | [], hops => exact absurd rfl hops
  | _ :: _, _ => exact complete_error hclear

end

/-- Settles O44: the three ways PACK can end, with the opcode byte of the type. -/
theorem packRespondsThePacket : Obligations.PackRespondsThePacket := by
  unfold Obligations.PackRespondsThePacket
  intro s ty ops hclear opc
  have hopc (ops : List Byte) : (Instr.pack ty ops).opcode = opc := opcode_pack ty ops
  refine ⟨?_, exec_pack_of_valid hclear, fun hops => ?_, fun hmissing => ?_⟩
  · rw [← hopc ops]
    exact decode_encode (.pack ty ops)
  · rw [exec_pack_of_operands hclear hops, hopc]
  · rw [exec_pack_of_missing hclear hmissing, hopc]

/-! ### The packet taken apart -/

section
variable (p : Params) (pk : Vector Byte 19)

/-- Field `k` as carried is the word of bytes `9 + 2k` and `10 + 2k`, the first of them low. -/
theorem Machine.carriedField_toList (k : Fin 4) :
    carriedField pk.toList k =
      if k = 0 then pk[10] ++ pk[9] else if k = 1 then pk[12] ++ pk[11] else if k = 2 then pk[14] ++ pk[13]
      else pk[16] ++ pk[15] := by
  rw [carriedField, le16_eq_append, byteAt_toList pk (by omega), byteAt_toList pk (by omega)]
  match k with
  | 0 | 1 | 2 | 3 => rfl

theorem Machine.bytesFrom_toList_nine :
    bytesFrom pk.toList 0 9 = [pk[0], pk[1], pk[2], pk[3], pk[4], pk[5], pk[6], pk[7], pk[8]] := by
  rw [toList_eq_ofFn]
  rfl

theorem Machine.unmarshal_toList :
    unmarshal p pk.toList =
      [pk[0], pk[1], pk[2], pk[3], pk[4], pk[5], pk[6], pk[7], pk[8],
       lo8 (centeredField p pk.toList 0), hi8 (centeredField p pk.toList 0),
       lo8 (centeredField p pk.toList 1), hi8 (centeredField p pk.toList 1),
       lo8 (centeredField p pk.toList 2), hi8 (centeredField p pk.toList 2),
       lo8 (centeredField p pk.toList 3), hi8 (centeredField p pk.toList 3),
       carriedFlip p pk.toList, pk[17], pk[18]] := by
  rw [unmarshal, bytesFrom_toList_nine, byteAt_toList pk (by omega), byteAt_toList pk (by omega)]
  rfl

end

/-- Settles O45: 19 operands are a packet, whose carried fields are spelled out, and any other count faults. -/
theorem unpackTakesThePacketApart : Obligations.UnpackTakesThePacketApart := by
  unfold Obligations.UnpackTakesThePacketApart
  intro s pk ops hclear bit w v
  have hcarried : carriedField pk.toList = w := funext (carriedField_toList pk)
  have hcentered : centeredField s.params pk.toList = v := by
    funext k
    rw [centeredField, hcarried]
    rfl
  refine ⟨decode_encode (.unpack ops), ?_, complete_of_wrongCount hclear⟩
  rw [exec, execUnpack, complete_of_count hclear Vector.length_toList, unmarshal_toList, hcentered, carriedFlip,
    hcarried]
  rfl

/-! ### PARSE_REPLY -/

/-- Settles O46: the acknowledgment byte and the four identity bytes read from the reply, and the count fault. The
bytes given at the offsets show that these are in range. -/
theorem parseReplyReportsTheReply : Obligations.ParseReplyReportsTheReply := by
  unfold Obligations.ParseReplyReportsTheReply
  intro s ops hclear _ _
  refine ⟨decode_encode (.parseReply ops), fun a b0 b1 b2 b3 hcount hack h0 h1 h2 h3 => ?_,
    complete_of_wrongCount hclear⟩
  rw [exec, execParseReply, complete_of_count hclear hcount, replyReport, byteAt_of_getElem? hack, bytesFrom_succ h0,
    bytesFrom_succ h1, bytesFrom_succ h2, bytesFrom_succ h3]
  rfl

end Sys2Proof
end

/-! PROOFS. The control commands: NOP and RD_RXCRC with a clear latch, and STATUS with the latch clear or set, the bits
of its bytes read back as the fields they stand for. -/
section
namespace Sys2Proof

open Machine

/-! ### NOP and RD_RXCRC -/

section
variable {s : State} {ops : List Byte}

theorem Machine.exec_nop_of_operands (hclear : s.fault = false) (hops : ops ≠ []) :
    exec (.nop ops) s = .next (Safety.afterFault s 2 0x00) := by
  obtain ⟨b, bs, rfl⟩ := List.exists_cons_of_ne_nil hops
  exact complete_error hclear

theorem Machine.exec_rdRxcrc_of_operands (hclear : s.fault = false) (hops : ops ≠ []) :
    exec (.rdRxcrc ops) s = .next (Safety.afterFault s 2 0xF1) := by
  obtain ⟨b, bs, rfl⟩ := List.exists_cons_of_ne_nil hops
  exact complete_error hclear

end

/-- Settles O33: the NOP without operands is performed, the one with operands fails its one check. -/
theorem nopOnlyResponds : Obligations.NopOnlyResponds := by
  unfold Obligations.NopOnlyResponds
  intro s ops hclear
  exact ⟨decode_encode (.nop ops), complete_ok hclear, exec_nop_of_operands hclear⟩

/-- Settles O48: without operands the two bytes of `RXCRC` are the response, and any operand faults. -/
theorem rdRxcrcReadsTheReceivedCrc : Obligations.RdRxcrcReadsTheReceivedCrc := by
  unfold Obligations.RdRxcrcReadsTheReceivedCrc
  intro s ops hclear
  exact ⟨decode_encode (.rdRxcrc ops), complete_ok hclear, exec_rdRxcrc_of_operands hclear⟩

/-! ### The bits of STAT and ERR -/

section
variable (s : State)

theorem Machine.statByte_addrLen : (statByte s).extractLsb' 0 3 = s.addrLen :=
  BitVec.extractLsb'_append_eq_right

/-- The five flags of R34, above the three bits of `ADDR_LEN`. -/
theorem Machine.statByte_flags :
    (statByte s).getLsbD 3 = s.crcEn ∧ (statByte s).getLsbD 4 = s.txaValid ∧ (statByte s).getLsbD 5 = s.rxaValid ∧
      (statByte s).getLsbD 6 = s.txidValid ∧ (statByte s).getLsbD 7 = s.fault := by
  simp only [statByte, BitVec.getLsbD_append]
  simp

theorem Machine.errByte_eq_append : errByte s = (0 : BitVec 4) ++ s.cause :=
  BitVec.setWidth_eq_append (by decide)

theorem Machine.errByte_cause : (errByte s).extractLsb' 0 4 = s.cause := by
  rw [errByte_eq_append]
  exact BitVec.extractLsb'_append_eq_right

theorem Machine.errByte_high : (errByte s).extractLsb' 4 4 = 0 := by
  rw [errByte_eq_append]
  exact BitVec.extractLsb'_append_eq_left

end

/-! ### STATUS -/

section
variable {s : State} {ops : List Byte}

/-- STATUS is answered without operands, and with any while the latch is set (R161). -/
theorem Machine.exec_status_answered (h : ops = [] ∨ s.fault = true) :
    exec (.status ops) s = .next (s.respond (statusBytes s)) := by
  rcases h with rfl | hlatched
  · exact execStatus_nil s
  · exact execStatus_of_latched hlatched

theorem Machine.exec_status_of_operands (hops : ops ≠ []) (hclear : s.fault = false) :
    exec (.status ops) s = .next (Safety.afterFault s 2 0xF0) := by
  obtain ⟨b, bs, rfl⟩ := List.exists_cons_of_ne_nil hops
  exact execStatus_cons_of_clear hclear

end

/-- Settles O47: the answer is STAT, ERR, CAPS and `FOPC`, whose bits are the fields they stand for, and operands
fault only while the latch is clear. -/
theorem statusReadsTheViews : Obligations.StatusReadsTheViews := by
  unfold Obligations.StatusReadsTheViews
  intro s ops
  refine ⟨decode_encode (.status ops), fun hanswered => ⟨statByte s, errByte s, ?_, statByte_addrLen s, ?_⟩,
    exec_status_of_operands⟩
  · rw [← capsByte_eq]
    exact exec_status_answered hanswered
  · obtain ⟨hcrcEn, htxaValid, hrxaValid, htxidValid, hfault⟩ := statByte_flags s
    exact ⟨hcrcEn, htxaValid, hrxaValid, htxidValid, hfault, errByte_cause s, errByte_high s⟩

end Sys2Proof
end

/-! PROOFS. The fault latch: while it is set every message but STATUS is refused, so only a reset leaves the faulted
state, and a command that sets it changes nothing but what a fault entry writes. -/
section
namespace Sys2Proof

open Machine

/-! ### The command of a message -/

/-- The message of a command is run as that command. -/
theorem Machine.runMessage_encode (i : Instr) (s : State) : runMessage (encode i) s = exec i s := by
  rw [runMessage, decode_encode]

/-- A decoded command is written with the opcode byte it was read from. -/
theorem Machine.opcode_of_decode {m : Message} {i : Instr} (h : decode m = .ok i) : i.opcode = m.opc :=
  congrArg Message.opc (decodedCommandEncodesBack m i h)

/-! ### The messages while the latch is set -/

section
variable {s : State} {m : Message}

theorem Machine.complete_of_latched {opc : Byte} {r : Except Cause State} (h : s.fault = true) :
    complete opc s r = .next (s.respond []) :=
  congrArg _ (settle_of_latched h)

/-- A command other than STATUS is refused at its end, before its checks count, and an illegal opcode byte is too. -/
theorem Machine.runMessage_refused (hset : s.fault = true) (hopc : m.opc ≠ 0xF0) :
    runMessage m s = .next (s.respond []) := by
  rcases runMessage_cases m s with ⟨i, hi, hrun⟩ | ⟨opc, -, hrun⟩ <;> rw [hrun]
  · have hstatus : ∀ ops, i ≠ .status ops := by
      rintro ops rfl
      exact hopc (opcode_of_decode hi).symm
    obtain ⟨r, hexec⟩ := exec_is_complete i s hstatus
    rw [hexec, complete_of_latched hset]
  · exact complete_of_latched hset

/-- The opcode byte of STATUS decodes to STATUS, whatever the operands. -/
theorem Machine.runMessage_status_of_latched (hset : s.fault = true) (hopc : m.opc = 0xF0) :
    runMessage m s = .next (s.respond (statusBytes s)) := by
  have hm : m = encode (.status m.ops) := congrArg (Message.mk · m.ops) hopc
  rw [hm, runMessage_encode]
  exact execStatus_of_latched hset

/-- While the latch is set the whole effect of a message is its response. -/
theorem Machine.runMessage_only_responds (m : Message) (hset : s.fault = true) :
    ∃ bs, runMessage m s = .next (s.respond bs) := by
  by_cases hopc : m.opc = 0xF0
  · exact ⟨_, runMessage_status_of_latched hset hopc⟩
  · exact ⟨_, runMessage_refused hset hopc⟩

end

/-- Settles O21: every message but STATUS ends refused, and STATUS looks at no operand while the latch is set. -/
theorem latchRefusesAllButStatus : Obligations.LatchRefusesAllButStatus := by
  unfold Obligations.LatchRefusesAllButStatus
  intro m s hset
  exact ⟨runMessage_refused hset, runMessage_status_of_latched hset⟩

/-! ### The way out of the faulted state -/

theorem Safety.SameRegisters.refl (s : State) : Safety.SameRegisters s s := by
  simp [Safety.SameRegisters]

theorem Safety.SameRegisters.respond {s t : State} (h : Safety.SameRegisters s t) (bs : List Byte) :
    Safety.SameRegisters s (t.respond bs) := by
  simpa [Safety.SameRegisters] using h

/-- A reset clears the latch, whether or not a command is being delivered (R176, R191). -/
theorem Machine.resetStep_fault (s : State) : (resetStep s).fault = false := by
  rcases resetStep_cases s with ⟨-, e⟩ | ⟨m, s1, -, e⟩ <;> rw [e] <;> rfl

/-- Settles O18: a reset step clears the latch, an idle step changes nothing, and a command taken in the faulted state
only responds. -/
theorem onlyResetLeavesTheFaultedState : Obligations.OnlyResetLeavesTheFaultedState := by
  unfold Obligations.OnlyResetLeavesTheFaultedState
  intro s t hset hstep
  rcases step_cases hstep with ⟨hreset, rfl⟩ | ⟨hreset, -, rfl⟩ | ⟨hreset, m, s1, htake, hrun⟩
  · exact ⟨fun hoff => absurd hoff hreset, fun _ => resetStep_fault s⟩
  · exact ⟨fun _ => ⟨.refl t, rfl⟩, fun hon => absurd hreset hon⟩
  · obtain ⟨hregs, hstream, -⟩ := takeCommand_frame htake
    obtain ⟨bs, hresponds⟩ := runMessage_only_responds m ((takeCommand_fault htake).trans hset)
    obtain rfl : s1.respond bs = t := by simpa [hresponds] using hrun
    exact ⟨fun _ => ⟨hregs.respond bs, (s1.respond_stream bs).trans hstream⟩, fun hon => absurd hreset hon⟩

/-! ### The latch after a command -/

/-- The result of a command's checks and effect, where an effect that is performed leaves the latch as it was. -/
inductive LatchResult (s : State) : Except Cause State → Prop
  | ok {t : State} (ht : t.fault = s.fault) : LatchResult s (.ok t)
  | error (c : Cause) : LatchResult s (.error c)

/-- The latch is as before, or the state after is that of a fault entry: what a command does to the latch. -/
def Machine.LatchKeptOrEntered (opc : Byte) (s t : State) : Prop :=
  t.fault = s.fault ∨ ∃ c, t = faultEntry c opc s

/-- A refused and a performed command keep the latch; a failed check is a fault entry. -/
theorem LatchResult.complete {s t : State} {r : Except Cause State} {opc : Byte} (hr : LatchResult s r)
    (h : complete opc s r = .next t) : LatchKeptOrEntered opc s t := by
  obtain rfl := complete_eq_next.mp h
  rcases settle_cases opc s r with ⟨-, e⟩ | ⟨-, u, hok, e⟩ | ⟨-, c, -, e⟩ <;> rw [e]
  · exact .inl (s.respond_fault [])
  · subst hok
    cases hr with
    | ok hu => exact .inl hu
  · exact .inr ⟨c, rfl⟩

/-- An effect that ends in a response, after writes to other registers. -/
theorem LatchResult.respond {s u : State} {bs : List Byte} (hu : u.fault = s.fault) :
    LatchResult s (.ok (u.respond bs)) :=
  .ok ((u.respond_fault bs).trans hu)

theorem LatchResult.checkAddr {s t : State} {len : BitVec 3} {ops : List Byte} (ht : LatchResult s (.ok t)) :
    LatchResult s (checkAddr len ops t) := by
  cases h : Machine.checkAddr len ops t with
  | ok u =>
    obtain ⟨rfl, -⟩ := checkAddr_ok h
    exact ht
  | error c => exact .error c

theorem LatchResult.checkFraming {s t : State} {valid : Bool} {len : BitVec 3} {missing : Cause} {n : Nat}
    (ht : LatchResult s (.ok t)) : LatchResult s (checkFraming s valid len missing n t) := by
  cases h : Machine.checkFraming s valid len missing n t with
  | ok u =>
    obtain ⟨rfl, -⟩ := checkFraming_ok h
    exact ht
  | error c => exact .error c

/-- No command writes the latch but by a fault entry with its own opcode byte. -/
theorem Machine.exec_latch {i : Instr} {s t : State} (h : exec i s = .next t) : LatchKeptOrEntered i.opcode s t := by
  cases i with
  | nop ops | configure ops | setTxid ops | setAid ops | chWrite c ops | rdRxcrc ops =>
    refine LatchResult.complete ?_ h
    split
    · exact .respond rfl
    · exact .error _
  | setTxAddr len ops | setRxAddr len ops =>
    refine LatchResult.complete ?_ h
    exact .checkAddr (.respond rfl)
  | encode ops | decode ops =>
    refine LatchResult.complete ?_ h
    split
    · exact .error _
    · split
      · exact .checkFraming (.respond rfl)
      · exact .respond rfl
  | hopGet k ops | pack ty ops =>
    refine LatchResult.complete ?_ h
    split
    · split
      · exact .error _
      · exact .respond rfl
    · exact .error _
  | unpack ops | parseReply ops =>
    refine LatchResult.complete ?_ h
    split
    · exact .error _
    · exact .respond rfl
  | status ops =>
    by_cases hanswered : ops = [] ∨ s.fault = true
    · rw [exec_status_answered hanswered] at h
      cases h
      exact .inl (s.respond_fault _)
    · obtain ⟨hops, hclear⟩ := not_or.mp hanswered
      rw [exec_status_of_operands hops (Bool.eq_false_of_not_eq_true hclear)] at h
      cases h
      exact .inr ⟨.operandLength, rfl⟩

/-- A message changes the latch by a fault entry only, which records the message's opcode byte. -/
theorem Machine.runMessage_latch {m : Message} {s t : State} (h : runMessage m s = .next t) :
    LatchKeptOrEntered m.opc s t := by
  rcases runMessage_cases m s with ⟨i, hi, hrun⟩ | ⟨opc, hillegal, hrun⟩
  · exact opcode_of_decode hi ▸ exec_latch (hrun ▸ h)
  · obtain rfl : opc = m.opc := by simpa using decode_eq_error hillegal
    exact (LatchResult.error _).complete (hrun ▸ h)

/-! ### The fault entry -/

@[simp] theorem Machine.faultEntry_seq (c : Cause) (opc : Byte) (s : State) (p : Port) :
    ((faultEntry c opc s).portState p).seq = (s.portState p).seq := by
  rw [faultEntry, State.respond_seq]
  cases p <;> rfl

/-- Settles O20: the latch was clear and is set, so the command's end is a fault entry on the state after the taking,
which had advanced the sequence index. -/
theorem faultEntryIsPrecise : Obligations.FaultEntryIsPrecise := by
  unfold Obligations.FaultEntryIsPrecise
  intro s s1 t m hreset hclear htake hstep hset
  have hrun : runMessage m s1 = .next t := by simpa [step, hreset, htake] using hstep
  have hclear1 : s1.fault = false := (takeCommand_fault htake).trans hclear
  rcases runMessage_latch hrun with hkept | ⟨c, rfl⟩
  · simp [hkept, hclear1] at hset
  · obtain ⟨hmin, hmax⟩ := c.code_range
    obtain ⟨-, hseq, -, -⟩ := takeCommand_ports htake
    exact ⟨c.code, hmin, hmax, rfl, (faultEntry_seq c m.opc s1 s1.port).trans hseq⟩

end Sys2Proof
end

/-! PROOFS. The reset input: asserted, a step resets the block and refuses the command being delivered; deasserted, a
step with no command waiting is idle. -/
section
namespace Sys2Proof

open Machine

/-! ### The idle step -/

/-- Settles O11: with no command waiting there is none to take. -/
theorem idleStepChangesNothing : Obligations.IdleStepChangesNothing := by
  unfold Obligations.IdleStepChangesNothing
  intro s hreset hhost hproducer
  have htake : takeCommand s = none := takeCommand_none.mpr ⟨hhost, hproducer⟩
  simp [step, hreset, htake]

/-! ### What a reset does to the fields of the state -/

/-- A reset gives every register its value after reset; the parameters are no register (R44, R191). -/
theorem Machine.resetBlock_sameRegisters (s : State) :
    Safety.SameRegisters { State.reset with params := s.params } (resetBlock s) := by
  simp [Safety.SameRegisters, resetBlock]

@[simp] theorem Machine.resetBlock_resetHold (s : State) : (resetBlock s).resetHold = s.resetHold - 1 := rfl

/-- A reset restarts the sequence index of a port and leaves what waits there and what was answered (R22, R192). -/
@[simp] theorem Machine.resetBlock_portState (s : State) (p : Port) :
    (resetBlock s).portState p = { s.portState p with seq := 0 } := by
  cases p <;> rfl

/-! ### The step with reset asserted -/

theorem Machine.step_of_asserted {s : State} (h : s.resetHold ≠ 0) : step s = .next (resetStep s) := by
  simp [step, h]

/-- The registers are those of a reset, whether or not a command is being delivered. -/
theorem Machine.resetStep_sameRegisters (s : State) :
    Safety.SameRegisters { State.reset with params := s.params } (resetStep s) := by
  obtain ⟨hparams, -⟩ := resetStep_frame s
  rcases resetStep_cases s with ⟨-, e⟩ | ⟨m, s1, -, e⟩ <;> rw [e] at hparams ⊢
  · exact resetBlock_sameRegisters s
  · exact hparams ▸ resetBlock_sameRegisters (s1.respond [])

theorem Machine.resetStep_seq (s : State) (p : Port) : ((resetStep s).portState p).seq = 0 := by
  rcases resetStep_cases s with ⟨-, e⟩ | ⟨m, s1, -, e⟩ <;> rw [e, resetBlock_portState]

/-- The taking of a command does not count the assertion down, so each such step counts it down by one. -/
theorem Machine.resetStep_resetHold (s : State) : (resetStep s).resetHold = s.resetHold - 1 := by
  rcases resetStep_cases s with ⟨-, e⟩ | ⟨m, s1, htake, e⟩ <;> rw [e, resetBlock_resetHold]
  obtain ⟨-, -, hhold⟩ := takeCommand_frame htake
  rw [State.respond_resetHold, hhold]

theorem Machine.resetStep_of_none {s : State} (h : takeCommand s = none) : resetStep s = resetBlock s := by
  rw [resetStep, h]

theorem Machine.resetStep_of_some {s s1 : State} {m : Message} (h : takeCommand s = some (m, s1)) :
    resetStep s = resetBlock (s1.respond []) := by
  rw [resetStep, h]

/-- The command being delivered is taken from its port and answered by an empty response; the other port keeps its
messages and its responses (R190, R192). -/
theorem Machine.resetStep_ports {s s1 : State} {m : Message} (h : takeCommand s = some (m, s1)) :
    (resetStep s).portState s1.port =
      ⟨(s1.portState s1.port).waiting, 0, (s.portState s1.port).responses ++ [[]]⟩ ∧
    (resetStep s).portState s1.port.other = { s.portState s1.port.other with seq := 0 } := by
  obtain ⟨-, -, hresponses, hother⟩ := takeCommand_ports h
  rw [resetStep_of_some h, resetBlock_portState, resetBlock_portState, State.respond_portState_port,
    State.respond_portState_other, hresponses, hother]
  exact ⟨rfl, rfl⟩

/-- Settles O14: the registers are those of the reset state, and the ports those after the empty response to the
command taken, if there is one, with the sequence indices restarted. -/
theorem assertedResetRestoresTheBlock : Obligations.AssertedResetRestoresTheBlock := by
  unfold Obligations.AssertedResetRestoresTheBlock
  intro s hasserted
  obtain ⟨hparams, haddrLen, -, htxaLen, htxaValid, -, hrxaLen, hrxaValid, hcrcEn, -, htxidValid, haid, hch, hrxcrc,
    hfault, hcause, hfopc⟩ := resetStep_sameRegisters s
  obtain ⟨-, hstream⟩ := resetStep_frame s
  have hcount : (resetStep s).resetHold + 1 = s.resetHold := by
    have := resetStep_resetHold s
    omega
  refine ⟨resetStep s, step_of_asserted hasserted, haddrLen, htxaLen, htxaValid, hrxaLen, hrxaValid, hcrcEn, htxidValid,
    haid, hch, hrxcrc, hfault, hcause, hfopc, resetStep_seq s .host, resetStep_seq s .producer, hstream, hparams, hcount,
    fun hnone => ?_, fun m s1 htake => ?_⟩
  · rw [resetStep_of_none hnone]
    exact ⟨rfl, rfl⟩
  · obtain ⟨hserved, hother⟩ := resetStep_ports htake
    exact ⟨by rw [hserved], by rw [hserved], by rw [hother], by rw [hother]⟩

end Sys2Proof
end

/-! PROOFS. The receive CRC is compared with nothing: with any other value of `RXCRC` before a command, every command
but RD_RXCRC fails the same check, or is performed to the same state but for `RXCRC`. -/
section
namespace Sys2Proof

open Machine

/-! ### Another value in `RXCRC` -/

/-- The state with another value in `RXCRC`. -/
def Machine.State.withRxcrc (s : State) (w : Word) : State := { s with rxcrc := w }

section
variable (s : State) (w : Word)

theorem Machine.State.withRxcrc_fault : (s.withRxcrc w).fault = s.fault := rfl

theorem Machine.State.withRxcrc_respond (bs : List Byte) :
    (s.withRxcrc w).respond bs = (s.respond bs).withRxcrc w := by
  cases hport : s.port <;> simp [State.withRxcrc, State.respond, State.setPortState, State.portState, hport]

theorem Machine.State.withRxcrc_faultEntry (c : Cause) (opc : Byte) :
    faultEntry c opc (s.withRxcrc w) = (faultEntry c opc s).withRxcrc w :=
  State.withRxcrc_respond { s with fault := true, cause := c.code, fopc := opc } w []

end

/-! ### The end of a command -/

/-- The results of one command in two states: the same cause, or states the same but for `RXCRC`. -/
inductive RxcrcResult : Except Cause State → Except Cause State → Prop
  | ok (t : State) (w : Word) : RxcrcResult (.ok t) (.ok (t.withRxcrc w))
  | error (c : Cause) : RxcrcResult (.error c) (.error c)

/-- The outcomes of one command in two states: states the same but for `RXCRC`. -/
inductive RxcrcOutcome : Host.Outcome State Fault Refusal → Host.Outcome State Fault Refusal → Prop
  | next (t : State) (w : Word) : RxcrcOutcome (.next t) (.next (t.withRxcrc w))

theorem RxcrcOutcome.exists_next {t : State} {o : Host.Outcome State Fault Refusal} (h : RxcrcOutcome (.next t) o) :
    ∃ w, o = .next { t with rxcrc := w } := by
  cases h with
  | next _ w => exact ⟨w, rfl⟩

theorem RxcrcOutcome.respond (s : State) (w : Word) (bs : List Byte) :
    RxcrcOutcome (.next (s.respond bs)) (.next ((s.withRxcrc w).respond bs)) := by
  rw [State.withRxcrc_respond]
  exact .next _ w

theorem RxcrcOutcome.faultEntry (s : State) (w : Word) (c : Cause) (opc : Byte) :
    RxcrcOutcome (.next (faultEntry c opc s)) (.next (faultEntry c opc (s.withRxcrc w))) := by
  rw [State.withRxcrc_faultEntry]
  exact .next _ w

/-- Both commands end refused, performed or faulted, for the latch is the same. -/
theorem RxcrcResult.complete {s : State} {w : Word} {r r' : Except Cause State} (hr : RxcrcResult r r') (opc : Byte) :
    RxcrcOutcome (complete opc s r) (complete opc (s.withRxcrc w) r') := by
  unfold Machine.complete
  cases h : s.fault with
  | true =>
    rw [settle_of_latched h, settle_of_latched ((s.withRxcrc_fault w).trans h)]
    exact .respond s w []
  | false =>
    cases hr with
    | ok t w' =>
      rw [settle_ok h, settle_ok ((s.withRxcrc_fault w).trans h)]
      exact .next t w'
    | error c =>
      rw [settle_error h, settle_error ((s.withRxcrc_fault w).trans h)]
      exact .faultEntry s w c opc

/-- An effect that ends in a response. -/
theorem RxcrcResult.respond (u : State) (w : Word) (bs : List Byte) :
    RxcrcResult (.ok (u.respond bs)) (.ok ((u.withRxcrc w).respond bs)) := by
  rw [State.withRxcrc_respond]
  exact .ok _ w

/-- A check that decides the same in both states. -/
theorem RxcrcResult.ite {p : Prop} [Decidable p] {a a' b b' : Except Cause State} (ha : RxcrcResult a a')
    (hb : RxcrcResult b b') : RxcrcResult (if p then a else b) (if p then a' else b') := by
  split
  · exact ha
  · exact hb

/-- The checks on an address length read no register. -/
theorem RxcrcResult.checkAddr {t t' : State} {len : BitVec 3} {ops : List Byte} (ht : RxcrcResult (.ok t) (.ok t')) :
    RxcrcResult (checkAddr len ops t) (checkAddr len ops t') :=
  .ite (.error _) (.ite (.error _) ht)

/-- The framing checks do not read `RXCRC`. -/
theorem RxcrcResult.checkFraming {s t t' : State} {w : Word} {valid : Bool} {len : BitVec 3} {missing : Cause} {n : Nat}
    (ht : RxcrcResult (.ok t) (.ok t')) :
    RxcrcResult (checkFraming s valid len missing n t) (checkFraming (s.withRxcrc w) valid len missing n t') :=
  .ite (.error _) (.ite (.error _) (.ite (.error _) ht))

/-! ### The commands -/

/-- STATUS ends the same way in both states, for the latch is the same and no view shows `RXCRC` (R34 to R37). -/
theorem Machine.execStatus_withRxcrc (s : State) (w : Word) (ops : List Byte) :
    RxcrcOutcome (execStatus ops s) (execStatus ops (s.withRxcrc w)) := by
  have hfault : (s.withRxcrc w).fault = s.fault := rfl
  cases hlatch : s.fault with
  | true =>
    rw [execStatus_of_latched hlatch, execStatus_of_latched (hfault.trans hlatch)]
    exact .respond s w _
  | false =>
    cases ops with
    | nil =>
      rw [execStatus_nil, execStatus_nil]
      exact .respond s w _
    | cons b bs =>
      rw [execStatus_cons_of_clear hlatch, execStatus_cons_of_clear (hfault.trans hlatch)]
      exact .faultEntry s w _ _

/-- Every command but RD_RXCRC leaves two states the same but for `RXCRC`, the commands grouped by the order of their
checks. DECODE writes `RXCRC` in both, with values that may differ while the CRC is off. -/
theorem Machine.exec_withRxcrc (i : Instr) (s : State) (w : Word) (hi : ∀ ops, i ≠ .rdRxcrc ops) :
    RxcrcOutcome (exec i s) (exec i (s.withRxcrc w)) := by
  cases i with
  | nop _ | configure _ | setTxid _ | setAid _ | chWrite _ _ =>
    refine RxcrcResult.complete ?_ _
    split
    · exact .respond _ w _
    · exact .error _
  | hopGet _ _ | pack _ _ =>
    refine RxcrcResult.complete ?_ _
    split
    · exact .ite (.error _) (.respond s w _)
    · exact .error _
  | unpack _ | parseReply _ => exact RxcrcResult.complete (.ite (.error _) (.respond s w _)) _
  | setTxAddr _ _ | setRxAddr _ _ => exact RxcrcResult.complete (.checkAddr (.respond _ w _)) _
  | encode _ =>
    exact RxcrcResult.complete (.ite (.error _) (.ite (.checkFraming (.respond _ w _)) (.respond _ w _))) _
  | decode ops =>
    refine RxcrcResult.complete (.ite (.error _) (.ite (.checkFraming ?_) (.respond s w _))) _
    exact .respond { s with rxcrc := receivedCrc s ops } (receivedCrc (s.withRxcrc w) ops) _
  | status ops => exact execStatus_withRxcrc s w ops
  | rdRxcrc ops => exact absurd rfl (hi ops)

/-- Settles O56: the command ends the same way whatever `RXCRC` holds. -/
theorem receivedCrcInfluencesNothing : Obligations.ReceivedCrcInfluencesNothing := by
  unfold Obligations.ReceivedCrcInfluencesNothing
  intro i s t w hi hexec
  have hboth := exec_withRxcrc i s w hi
  rw [hexec] at hboth
  exact hboth.exists_next

end Sys2Proof
end

/-! PROOFS. What each command may write and which causes it may raise, said once for all 15: the frame of the registers,
the commands that only respond, and the two causes that a packet and a full table rule out. -/
section
namespace Sys2Proof

open Machine

/-! ### What a command may write and raise -/

/-- The effect of a performed command before its response, by the write columns of the access matrix (10_state.md,
section 5): `u` is `s` with other values, at most, in what the command may write. -/
def Machine.Writes (s u : State) : Instr → Prop
  | .configure _ => ∃ crcEn stream, u = { s with crcEn := crcEn, stream := stream }
  | .setTxAddr _ _ => ∃ a len valid addrLen stream,
      u = { s with txAddr := a, txaLen := len, txaValid := valid, addrLen := addrLen, stream := stream }
  | .setRxAddr _ _ => ∃ a len valid addrLen stream,
      u = { s with rxAddr := a, rxaLen := len, rxaValid := valid, addrLen := addrLen, stream := stream }
  | .encode _ => ∃ stream, u = { s with stream := stream }
  | .decode _ => ∃ crc, u = { s with rxcrc := crc }
  | .setTxid _ => ∃ id valid, u = { s with txid := id, txidValid := valid }
  | .setAid _ => ∃ id, u = { s with aid := id }
  | .chWrite _ _ => ∃ ch, u = { s with ch := ch }
  | .nop _ | .hopGet _ _ | .pack _ _ | .unpack _ | .parseReply _ | .status _ | .rdRxcrc _ => u = s

/-- The causes the framing checks raise for a payload (R110, R111, R171): the bound on its length comes first, and
TABLE_INDEX says that the index is out of the table. -/
def Machine.RaisesFraming (s : State) (missing : Cause) (ops : List Byte) (c : Cause) : Prop :=
  (c = .payloadLenRange ∧ 19 < ops.length) ∨ c = missing ∨ c = .addrLenMismatch ∨
  (c = .tableIndex ∧ ops.length ≤ 19 ∧ s.params.xorTable.length ≤ xorIndex s.addrLen.toNat ops.length)

/-- The causes a command raises (R171). -/
def Machine.Raises (s : State) (c : Cause) : Instr → Prop
  | .setTxAddr _ _ | .setRxAddr _ _ => c = .addrLenRange ∨ c = .operandLength
  | .encode ops => RaisesFraming s .noTxAddr ops c
  | .decode ops => RaisesFraming s .noRxAddr ops c
  | .hopGet _ _ | .pack _ _ => c = .operandLength ∨ c = .noTxid
  | .nop _ | .configure _ | .setTxid _ | .setAid _ | .chWrite _ _ | .unpack _ | .parseReply _ | .status _
  | .rdRxcrc _ => c = .operandLength

/-- The result of a command's checks and effect: one of its causes, or what it writes and then a response. -/
inductive CommandResult (i : Instr) (s : State) : Except Cause State → Prop
  | ok {u : State} {bs : List Byte} (hu : Writes s u i) : CommandResult i s (.ok (u.respond bs))
  | error {c : Cause} (hc : Raises s c i) : CommandResult i s (.error c)

/-- The end of a command: what it writes and then a response, or the fault entry of one of its causes. -/
def Machine.EndsAs (i : Instr) (s t : State) : Prop :=
  (∃ u bs, Writes s u i ∧ t = u.respond bs) ∨ (s.fault = false ∧ ∃ c, Raises s c i ∧ t = faultEntry c i.opcode s)

/-- A command may leave every register as it is. -/
theorem Machine.Writes.refl (s : State) (i : Instr) : Writes s s i := by
  cases i with
  | configure _ => exact ⟨_, _, rfl⟩
  | setTxAddr _ _ | setRxAddr _ _ => exact ⟨_, _, _, _, _, rfl⟩
  | setTxid _ => exact ⟨_, _, rfl⟩
  | encode _ | decode _ | setAid _ | chWrite _ _ => exact ⟨_, rfl⟩
  | nop _ | hopGet _ _ | pack _ _ | unpack _ | parseReply _ | status _ | rdRxcrc _ => exact rfl

theorem CommandResult.complete {i : Instr} {s t : State} {r : Except Cause State} (hr : CommandResult i s r)
    (h : complete i.opcode s r = .next t) : EndsAs i s t := by
  obtain rfl := complete_eq_next.mp h
  rcases settle_cases i.opcode s r with ⟨-, e⟩ | ⟨-, u, hok, e⟩ | ⟨hclear, c, herror, e⟩ <;> rw [e]
  · exact .inl ⟨s, [], .refl s i, rfl⟩
  · subst hok
    cases hr with
    | ok hu => exact .inl ⟨_, _, hu, rfl⟩
  · subst herror
    cases hr with
    | error hc => exact .inr ⟨hclear, c, hc, rfl⟩

/-- SET_TX_ADDR and SET_RX_ADDR raise the two causes of the checks on an address. -/
theorem CommandResult.checkAddr {i : Instr} {s t : State} {len : BitVec 3} {ops : List Byte}
    (hi : ∀ c, c = .addrLenRange ∨ c = .operandLength → Raises s c i) (ht : CommandResult i s (.ok t)) :
    CommandResult i s (checkAddr len ops t) := by
  cases h : Machine.checkAddr len ops t with
  | ok u =>
    obtain ⟨rfl, -⟩ := checkAddr_ok h
    exact ht
  | error c => exact .error (hi c (checkAddr_error h))

/-- ENCODE and DECODE bound the payload, and in emulation they go on to the framing checks. -/
theorem CommandResult.framing {i : Instr} {s t t' : State} {valid : Bool} {len : BitVec 3} {missing : Cause}
    {ops : List Byte} (hi : ∀ c, RaisesFraming s missing ops c → Raises s c i) (ht : CommandResult i s (.ok t))
    (ht' : CommandResult i s (.ok t')) :
    CommandResult i s (if Config.maxPayload < ops.length then .error .payloadLenRange
      else if s.params.emulate then checkFraming s valid len missing ops.length t else .ok t') := by
  split
  · rename_i hlong
    exact .error (hi _ (.inl ⟨rfl, hlong⟩))
  · rename_i hshort
    split
    · cases h : checkFraming s valid len missing ops.length t with
      | ok u =>
        obtain ⟨rfl, -⟩ := checkFraming_ok h
        exact ht
      | error c =>
        refine .error (hi c (.inr ?_))
        rcases checkFraming_error h with hmissing | hmismatch | ⟨htable, -, hindex⟩
        · exact .inl hmissing
        · exact .inr (.inl hmismatch)
        · exact .inr (.inr ⟨htable, Nat.not_lt.mp hshort, hindex⟩)
    · exact ht'

/-- Every command writes what it may write and raises what it may raise, the commands grouped by the order of their
checks. -/
theorem Machine.exec_endsAs {i : Instr} {s t : State} (h : exec i s = .next t) : EndsAs i s t := by
  cases i with
  | nop _ | rdRxcrc _ =>
    refine CommandResult.complete ?_ h
    split
    · exact .ok rfl
    · exact .error rfl
  | configure _ | setTxid _ =>
    refine CommandResult.complete ?_ h
    split
    · exact .ok ⟨_, _, rfl⟩
    · exact .error rfl
  | setAid _ | chWrite _ _ =>
    refine CommandResult.complete ?_ h
    split
    · exact .ok ⟨_, rfl⟩
    · exact .error rfl
  | setTxAddr _ _ | setRxAddr _ _ =>
    exact CommandResult.complete (.checkAddr (fun _ hc => hc) (.ok ⟨_, _, _, _, _, rfl⟩)) h
  | encode _ =>
    exact CommandResult.complete (.framing (fun _ hc => hc) (.ok ⟨_, rfl⟩) (.ok ⟨_, rfl⟩)) h
  | decode _ =>
    exact CommandResult.complete (.framing (fun _ hc => hc) (.ok ⟨_, rfl⟩) (.ok (.refl s _))) h
  | hopGet _ _ | pack _ _ =>
    refine CommandResult.complete ?_ h
    split
    · split
      · exact .error (.inr rfl)
      · exact .ok rfl
    · exact .error (.inl rfl)
  | unpack _ | parseReply _ =>
    refine CommandResult.complete ?_ h
    split
    · exact .error rfl
    · exact .ok rfl
  | status ops =>
    by_cases hanswered : ops = [] ∨ s.fault = true
    · rw [exec_status_answered hanswered] at h
      cases h
      exact .inl ⟨s, _, rfl, rfl⟩
    · obtain ⟨hops, hclear⟩ := not_or.mp hanswered
      rw [exec_status_of_operands hops (Bool.eq_false_of_not_eq_true hclear)] at h
      cases h
      exact .inr ⟨Bool.eq_false_of_not_eq_true hclear, .operandLength, rfl, rfl⟩

/-! ### The frame of the registers -/

/-- No command writes what belongs to a port before it responds. -/
theorem Machine.Writes.portState {i : Instr} {s u : State} (hu : Writes s u i) (p : Port) :
    u.portState p = s.portState p := by
  cases i with
  | configure _ | setTxid _ => obtain ⟨_, _, rfl⟩ := hu; cases p <;> rfl
  | setTxAddr _ _ | setRxAddr _ _ => obtain ⟨_, _, _, _, _, rfl⟩ := hu; cases p <;> rfl
  | encode _ | decode _ | setAid _ | chWrite _ _ => obtain ⟨_, rfl⟩ := hu; cases p <;> rfl
  | nop _ | hopGet _ _ | pack _ _ | unpack _ | parseReply _ | status _ | rdRxcrc _ => obtain rfl := hu; rfl

/-- No command writes the latch but by a fault entry. -/
theorem Machine.Writes.latch {i : Instr} {s u : State} (hu : Writes s u i) :
    u.fault = s.fault ∧ u.cause = s.cause ∧ u.fopc = s.fopc := by
  cases i with
  | configure _ | setTxid _ => obtain ⟨_, _, rfl⟩ := hu; exact ⟨rfl, rfl, rfl⟩
  | setTxAddr _ _ | setRxAddr _ _ => obtain ⟨_, _, _, _, _, rfl⟩ := hu; exact ⟨rfl, rfl, rfl⟩
  | encode _ | decode _ | setAid _ | chWrite _ _ => obtain ⟨_, rfl⟩ := hu; exact ⟨rfl, rfl, rfl⟩
  | nop _ | hopGet _ _ | pack _ _ | unpack _ | parseReply _ | status _ | rdRxcrc _ =>
    obtain rfl := hu; exact ⟨rfl, rfl, rfl⟩

@[simp] theorem Machine.faultEntry_waiting (c : Cause) (opc : Byte) (s : State) (p : Port) :
    ((faultEntry c opc s).portState p).waiting = (s.portState p).waiting := by
  rw [faultEntry, State.respond_waiting]
  cases p <;> rfl

/-- Settles O22: a performed command differs from the state before in what it may write, a faulted one in the latch, and
both in the responses. -/
theorem registersChangeOnlyByTheirCommands : Obligations.RegistersChangeOnlyByTheirCommands := by
  unfold Obligations.RegistersChangeOnlyByTheirCommands
  intro i s t h
  rcases exec_endsAs h with ⟨u, bs, hu, rfl⟩ | ⟨hclear, c, -, rfl⟩
  · have hports := hu.portState
    cases i with
    | configure _ | setTxid _ => obtain ⟨_, _, rfl⟩ := hu; simp [hports]
    | setTxAddr _ _ | setRxAddr _ _ => obtain ⟨_, _, _, _, _, rfl⟩ := hu; simp [hports]
    | encode _ | decode _ | setAid _ | chWrite _ _ => obtain ⟨_, rfl⟩ := hu; simp [hports]
    | nop _ | hopGet _ _ | pack _ _ | unpack _ | parseReply _ | status _ | rdRxcrc _ => obtain rfl := hu; simp
  · refine ⟨?_, ?_, ?_, ?_, ?_, ?_, ?_, ?_, ?_, fun _ => ⟨hclear, faultEntry_fault _ _ _⟩, ?_, ?_, ?_, ?_, ?_, ?_, ?_,
      fun p => ⟨faultEntry_waiting _ _ _ p, faultEntry_seq _ _ _ p⟩⟩ <;> simp [faultEntry]

/-- Settles O23: a command that kept the latch has not faulted, and these seven write nothing before they respond. -/
theorem readingCommandsWriteNoState : Obligations.ReadingCommandsWriteNoState := by
  unfold Obligations.ReadingCommandsWriteNoState
  intro s t i ops k ty hi h hkept
  rcases exec_endsAs h with ⟨u, bs, hu, rfl⟩ | ⟨hclear, c, -, rfl⟩
  · have hsame : u = s := by
      simp only [List.mem_cons, List.not_mem_nil, or_false] at hi
      rcases hi with rfl | rfl | rfl | rfl | rfl | rfl | rfl <;> exact hu
    exact ⟨bs, by rw [hsame]⟩
  · rw [faultEntry_fault, hclear] at hkept
    exact absurd hkept (by decide)

/-! ### The causes that a packet and a full table rule out -/

@[simp] theorem Machine.marshal_length (p : Params) (ty : PacketType) (txid aid : Vector Byte 4) (ch : Vector Word 6) :
    (marshal p ty txid aid ch).length = 19 := by
  rw [marshal_eq]
  rfl

/-- ENCODE and DECODE raise PAYLOAD_LEN_RANGE for a payload of more than 19 bytes only. -/
theorem Machine.RaisesFraming.code_ne_four {s : State} {missing c : Cause} {ops : List Byte}
    (h : RaisesFraming s missing ops c) (hmissing : missing.code ≠ 4) (hshort : ops.length ≤ 19) : c.code ≠ 4 := by
  rcases h with ⟨-, hlong⟩ | rfl | rfl | ⟨rfl, -⟩
  · exact absurd hlong (Nat.not_lt.mpr hshort)
  · exact hmissing
  · decide
  · decide

/-- Settles O53: the packet has the 19 bytes that a payload may have. -/
theorem packedPacketFitsAFrame : Obligations.PackedPacketFitsAFrame := by
  unfold Obligations.PackedPacketFitsAFrame
  intro s t p ty txid aid ch
  refine ⟨marshal_length p ty txid aid ch, fun hclear h hset => ?_⟩
  rcases exec_endsAs h with ⟨u, bs, hu, rfl⟩ | ⟨-, c, hc, rfl⟩
  · obtain ⟨hfault, -, -⟩ := hu.latch
    rw [State.respond_fault, hfault, hclear] at hset
    exact absurd hset (by decide)
  · rw [faultEntry_cause]
    exact hc.code_ne_four (by decide) (marshal_length p ty txid aid ch).le

/-- `ADDR_LEN` is at most 5 in a sound state: it is 0 or the length of a valid address. -/
theorem Safety.Sound.addrLen_le_five {s : State} (hs : Safety.Sound s) : s.addrLen ≤ 5 := by
  obtain ⟨-, htx, hrx, haddr, -⟩ := hs
  rcases haddr with ⟨hzero, -, -⟩ | ⟨hvalid, hlen⟩ | ⟨hvalid, hlen⟩
  · rw [hzero]
    decide
  · exact hlen ▸ htx.len_le_five hvalid
  · exact hlen ▸ hrx.len_le_five hvalid

/-- In a sound state the table index of every payload that fits is below 22, and so in the table. -/
theorem Safety.Sound.xorIndex_lt {s : State} (hs : Safety.Sound s) {n : Nat} (hn : n ≤ 19) :
    xorIndex s.addrLen.toNat n < s.params.xorTable.length := by
  have hlen : s.addrLen.toNat ≤ 5 := BitVec.le_def.mp hs.addrLen_le_five
  obtain ⟨⟨htable, -⟩, -⟩ := hs
  unfold xorIndex
  omega

theorem Safety.Sound.framing_code_ne_eight {s : State} (hs : Safety.Sound s) {missing c : Cause} {ops : List Byte}
    (h : RaisesFraming s missing ops c) (hmissing : missing.code ≠ 8) : c.code ≠ 8 := by
  rcases h with ⟨rfl, -⟩ | rfl | rfl | ⟨-, hshort, hindex⟩
  · decide
  · exact hmissing
  · decide
  · exact absurd (hs.xorIndex_lt hshort) (Nat.not_lt.mpr hindex)

/-- No command raises TABLE_INDEX in a sound state: only ENCODE and DECODE could. -/
theorem Safety.Sound.code_ne_eight {s : State} (hs : Safety.Sound s) {i : Instr} {c : Cause} (hc : Raises s c i) :
    c.code ≠ 8 := by
  cases i with
  | encode _ | decode _ => exact hs.framing_code_ne_eight hc (by decide)
  | setTxAddr _ _ | setRxAddr _ _ | hopGet _ _ | pack _ _ => rcases hc with rfl | rfl <;> decide
  | nop _ | configure _ | setTxid _ | setAid _ | chWrite _ _ | unpack _ | parseReply _ | status _ | rdRxcrc _ =>
    obtain rfl := hc
    decide

/-- Settles O54: a command that does not fault keeps the cause, which is 0 while the latch is clear, and one that faults
does not raise TABLE_INDEX. -/
theorem fullTableNeverFaults : Obligations.FullTableNeverFaults := by
  unfold Obligations.FullTableNeverFaults
  intro i s t hs hclear h
  rcases exec_endsAs h with ⟨u, bs, hu, rfl⟩ | ⟨-, c, hc, rfl⟩
  · obtain ⟨-, hcause, -⟩ := hu.latch
    obtain ⟨-, -, -, -, hlatch, -⟩ := hs
    have hzero : s.cause = 0 := by
      rcases hlatch with ⟨-, hzero, -⟩ | ⟨hset, -⟩
      · exact hzero
      · simp [hclear] at hset
    rw [State.respond_cause, hcause, hzero]
    decide
  · rw [faultEntry_cause]
    exact hs.code_ne_eight hc

end Sys2Proof
end

/-! PROOFS. The illegal opcode bytes: those that select no row of the map, and the two that the CH_WRITE row refuses. -/
section
namespace Sys2Proof

open Machine

/-! ### The bytes that select a row -/

/-- What the masks of R74 keep of a byte: the number with its last places cleared. -/
theorem and_mask_toNat : ∀ o : Byte,
    (o &&& 0xFF).toNat = o.toNat ∧ (o &&& 0xFE).toNat = o.toNat / 2 * 2 ∧ (o &&& 0xFC).toNat = o.toNat / 4 * 4 ∧
    (o &&& 0xF8).toNat = o.toNat / 8 * 8 := by decide

/-- The bytes of R75's list are those outside the ranges that select a row, and two that select CH_WRITE's. -/
theorem selectsNoRow_or_noChannel_iff_listed (o : Byte) :
    ((∀ r ∈ opcodeMap, o &&& r.mask ≠ r.pat) ∨ o = 0x86 ∨ o = 0x87) ↔
      (0x01 ≤ o ∧ o ≤ 0x0F) ∨ (0x11 ≤ o ∧ o ≤ 0x1F) ∨ (0x28 ≤ o ∧ o ≤ 0x2F) ∨ (0x38 ≤ o ∧ o ≤ 0x3F) ∨
      (0x41 ≤ o ∧ o ≤ 0x4F) ∨ (0x51 ≤ o ∧ o ≤ 0x5F) ∨ (0x62 ≤ o ∧ o ≤ 0x6F) ∨ (0x74 ≤ o ∧ o ≤ 0x7F) ∨
      (0x86 ≤ o ∧ o ≤ 0x8F) ∨ (0x92 ≤ o ∧ o ≤ 0x9F) ∨ (0xA2 ≤ o ∧ o ≤ 0xEF) ∨ (0xF2 ≤ o ∧ o ≤ 0xFF) := by
  obtain ⟨hFF, hFE, hFC, hF8⟩ := and_mask_toNat o
  simp only [opcodeMap, List.forall_mem_cons, List.not_mem_nil, false_imp_iff, implies_true, and_true, ne_eq,
    ← BitVec.toNat_inj, hFF, hFE, hFC, hF8]
  bv_omega

/-! ### The messages that decode -/

/-- Of the bytes of the CH_WRITE row, all but 0x86 and 0x87 name a channel (R74). -/
theorem lowField3_lt_six_iff : ∀ o : Byte, o &&& 0xF8 = 0x80 →
    ((lowField3 o).toNat < 6 ↔ o ≠ 0x86 ∧ o ≠ 0x87) := by decide

/-- A row builds a command but where it is CH_WRITE's and the field is no channel. -/
theorem buildInstr_isOk_iff {op : Op} {m : Message} :
    (∃ i, buildInstr op m = .ok i) ↔ (op = .chWrite → (lowField3 m.opc).toNat < 6) := by
  cases op with
  | chWrite => by_cases h : (lowField3 m.opc).toNat < 6 <;> simp [buildInstr, h]
  | nop | configure | setTxAddr | setRxAddr | encode | decode | setTxid | setAid | hopGet | pack | unpack
  | parseReply | status | rdRxcrc => simp [buildInstr]

/-- 0x86 and 0x87 select the CH_WRITE row, which has no channel for them. -/
theorem decode_noChannel {o : Byte} {ops : List Byte} (h : o = 0x86 ∨ o = 0x87) : ¬ ∃ i, decode ⟨o, ops⟩ = .ok i := by
  have hmatch : o &&& 0xF8 = 0x80 := by rcases h with rfl | rfl <;> rfl
  rw [decode_of_row (m := ⟨o, ops⟩) (r := ⟨.chWrite, 0x80, 0xF8⟩) (by decide) hmatch, buildInstr_isOk_iff]
  intro hchannel
  obtain ⟨h86, h87⟩ := (lowField3_lt_six_iff o hmatch).mp (hchannel rfl)
  exact h.elim h86 h87

/-- A message decodes where its opcode byte selects a row and is neither 0x86 nor 0x87 (R75, R77). -/
theorem decode_isOk_iff {o : Byte} {ops : List Byte} :
    (∃ i, decode ⟨o, ops⟩ = .ok i) ↔ ¬((∀ r ∈ opcodeMap, o &&& r.mask ≠ r.pat) ∨ o = 0x86 ∨ o = 0x87) := by
  constructor
  · rintro ⟨i, hi⟩ (hrows | hchannel)
    · obtain ⟨r, hmem, hmatch, -⟩ := decode_eq_ok hi
      exact hrows r hmem hmatch
    · exact decode_noChannel hchannel ⟨i, hi⟩
  · intro h
    obtain ⟨hrows, hchannel⟩ := not_or.mp h
    push Not at hrows
    obtain ⟨r, hmem, hmatch⟩ := hrows
    rw [decode_of_row (m := ⟨o, ops⟩) hmem hmatch, buildInstr_isOk_iff]
    intro hop
    obtain rfl := opcodeMap_op_injective r hmem ⟨.chWrite, 0x80, 0xF8⟩ (by decide) hop
    exact (lowField3_lt_six_iff o hmatch).mpr (not_or.mp hchannel)

/-- A message that does not decode faults with ILLEGAL_OPCODE where the latch is clear. -/
theorem Machine.runMessage_of_illegal {m : Message} {s : State} (hclear : s.fault = false)
    (h : ¬ ∃ i, decode m = .ok i) : runMessage m s = .next (Safety.afterFault s 1 m.opc) := by
  rcases runMessage_cases m s with ⟨i, hi, -⟩ | ⟨opc, hillegal, hrun⟩
  · exact absurd ⟨i, hi⟩ h
  · obtain rfl : opc = m.opc := by simpa using decode_eq_error hillegal
    rw [hrun]
    exact complete_error hclear

/-- Settles O4: the listed bytes are those that no row gives a command, so messages with them do not decode, and those
with any other byte do. -/
theorem illegalBytesAreExactlyTheListed : Obligations.IllegalBytesAreExactlyTheListed := by
  unfold Obligations.IllegalBytesAreExactlyTheListed
  intro o ops s hclear listed
  have hlisted := selectsNoRow_or_noChannel_iff_listed o
  have hdecodes : (∃ i, decode ⟨o, ops⟩ = .ok i) ↔ ¬ listed := decode_isOk_iff.trans (not_congr hlisted)
  exact ⟨hlisted, hdecodes, fun h => runMessage_of_illegal hclear fun hok => hdecodes.mp hok h⟩

end Sys2Proof
end

/-! PROOFS. The CRC's recurrence, the payload transform and its inverse, and the layout of a frame. -/
section
namespace Sys2Proof

open Machine

/-! ### The CRC -/

/-- Settles O26: a byte more is one `crcByte` more, which is eight shifts. -/
theorem crcFollowsItsRecurrence : Obligations.CrcFollowsItsRecurrence := by
  unfold Obligations.CrcFollowsItsRecurrence
  intro shift
  exact ⟨rfl, crc16_append, rfl, rfl, rfl, by simp [crc16, crcByte, crcShift, Nat.repeat]⟩

/-! ### The payload transform -/

/-- Entry `i` of the transform: reversed, then scrambled (R103). -/
theorem Machine.scramblePayload_getElem? (p : Params) (len : Nat) {bs : List Byte} {i : Nat} (hi : i < bs.length) :
    (scramblePayload p len bs)[i]? = some (rev8 bs[i] ^^^ scrambleAt p (len + i)) := by
  rw [scramblePayload, scrambleRun_getElem?, List.getElem?_map, List.getElem?_eq_getElem hi, Option.map_some,
    Option.map_some]

/-- Entry `i` of the inverse transform: unscrambled, then reversed (R103). -/
theorem Machine.descramblePayload_getElem? (p : Params) (len : Nat) {bs : List Byte} {i : Nat} (hi : i < bs.length) :
    (descramblePayload p len bs)[i]? = some (rev8 (bs[i] ^^^ scrambleAt p (len + i))) := by
  rw [descramblePayload, List.getElem?_map, scrambleRun_getElem?, List.getElem?_eq_getElem hi, Option.map_some,
    Option.map_some]

/-- The scrambling is its own inverse, and so is the bit reversal. -/
theorem Machine.descramblePayload_scramblePayload (p : Params) (len : Nat) (bs : List Byte) :
    descramblePayload p len (scramblePayload p len bs) = bs := by
  have hrev : rev8 ∘ rev8 = id := funext rev8_rev8
  rw [descramblePayload, scramblePayload, scrambleRun_scrambleRun, List.map_map, hrev, List.map_id]

/-- Settles O29, from the entries of the two transforms and their lengths. -/
theorem payloadTransformHasItsInverse : Obligations.PayloadTransformHasItsInverse := by
  unfold Obligations.PayloadTransformHasItsInverse
  intro p len bs
  refine ⟨fun i hb hs => ?_, scramblePayload_length p len bs, descramblePayload_length p len bs,
    descramblePayload_scramblePayload p len bs⟩
  rw [← scrambleAt_of_lt p hs]
  exact ⟨scramblePayload_getElem? p len hb, descramblePayload_getElem? p len hb⟩

/-! ### The frame -/

/-- Settles O31: 22 entries hold every index `(L-3)+n`, whose largest is 21, and the bounds on the length are those of
its four parts. -/
theorem frameLayoutAndLength : Obligations.FrameLayoutAndLength := by
  unfold Obligations.FrameLayoutAndLength
  intro p a payload ce hmin hmax hpayload htable
  have hindex : (a.length - 3) + payload.length < p.xorTable.length := by omega
  have hentry : p.xorTable[(a.length - 3) + payload.length]? = some p.xorTable[(a.length - 3) + payload.length] :=
    List.getElem?_eq_getElem hindex
  obtain ⟨hx, -⟩ := xorAt_of_getElem? hentry
  have hcrc : frameCrc p a a.length payload = crc16 (addrSeq p a ++ scramblePayload p a.length payload) ^^^
      p.xorTable[(a.length - 3) + payload.length] := by
    rw [frameCrc, airCrc, scramblePayload_length, xorIndex, hx]
  have hlength := frame_length p a a.length payload ce
  refine ⟨_, _, hentry, rfl, hcrc, ?_, hlength, ?_, ?_⟩
  · rw [frame, droppedPreamble_of_legal p hmin]
    rfl
  · rw [hlength]
    split <;> omega
  · rw [hlength]
    split <;> split <;> omega

end Sys2Proof
end

/-! PROOFS. The entries of the hop plan as numbers: each identity nibble above its base, so that the ranges follow one
another and the entries differ. -/
section
namespace Sys2Proof

open Machine

theorem and_low_nibble_toNat (b : Byte) : (b &&& (0x0F : Byte)).toNat = b.toNat % 16 :=
  Nat.and_two_pow_sub_one_eq_mod b.toNat 4

theorem high_nibble_toNat (b : Byte) : (b >>> 4).toNat = b.toNat / 16 := by
  rw [BitVec.toNat_ushiftRight, Nat.shiftRight_eq_div_pow]

/-- The entries of the plan (R130); no sum carries out of 8 bits, for the largest is 15 + 64. -/
theorem Machine.hopPlan_toNat (id0 id1 : Byte) :
    (hopPlan id0 id1)[0].toNat = id0.toNat % 16 + 3 ∧ (hopPlan id0 id1)[1].toNat = id0.toNat / 16 + 22 ∧
    (hopPlan id0 id1)[2].toNat = id1.toNat % 16 + 45 ∧ (hopPlan id0 id1)[3].toNat = id1.toNat / 16 + 64 := by
  have hlow0 := and_low_nibble_toNat id0
  have hhigh0 := high_nibble_toNat id0
  have hlow1 := and_low_nibble_toNat id1
  have hhigh1 := high_nibble_toNat id1
  refine ⟨?_, ?_, ?_, ?_⟩
  · show ((id0 &&& (0x0F : Byte)) + (0x03 : Byte)).toNat = _
    bv_omega
  · show ((id0 >>> 4) + (0x16 : Byte)).toNat = _
    bv_omega
  · show ((id1 &&& (0x0F : Byte)) + (0x2D : Byte)).toNat = _
    bv_omega
  · show ((id1 >>> 4) + (0x40 : Byte)).toNat = _
    bv_omega

/-- Settles O32: as numbers the entries lie in four ranges, one above the other. -/
theorem hopPlanEntriesAndRanges : Obligations.HopPlanEntriesAndRanges := by
  unfold Obligations.HopPlanEntriesAndRanges
  refine ⟨?_, rfl⟩
  intro id0 id1 h
  obtain ⟨h0, h1, h2, h3⟩ : h[0].toNat = id0.toNat % 16 + 3 ∧ h[1].toNat = id0.toNat / 16 + 22 ∧
      h[2].toNat = id1.toNat % 16 + 45 ∧ h[3].toNat = id1.toNat / 16 + 64 := hopPlan_toNat id0 id1
  refine ⟨rfl, rfl, rfl, rfl, ?_, ?_, ?_, ?_, ?_, ?_, ?_, ?_, h0, h1, h2, h3, ?distinct⟩
  case distinct =>
    rw [toList_four]
    simp only [List.nodup_cons, List.mem_cons, List.not_mem_nil, or_false, not_or, not_false_eq_true, List.nodup_nil,
      and_true]
    bv_omega
  all_goals bv_omega

end Sys2Proof
end

/-! PROOFS. What the framing commands do one after the other: DECODE of what ENCODE handed over, in both modes, and the
mismatch after addresses of different lengths. -/
section
namespace Sys2Proof

open Machine

/-! ### A payload handed to the driver -/

section
variable (s : State) (f : List Byte)

@[simp] theorem Machine.sendPayload_stream : (sendPayload s f).stream = s.stream ++ [.wrPayload f] := by
  simp [sendPayload]

/-- What DECODE reads after it is as before. -/
@[simp] theorem Machine.sendPayload_kept :
    (sendPayload s f).params = s.params ∧ (sendPayload s f).fault = s.fault ∧ (sendPayload s f).crcEn = s.crcEn ∧
    (sendPayload s f).addrLen = s.addrLen ∧ (sendPayload s f).rxAddr = s.rxAddr ∧
    (sendPayload s f).rxaLen = s.rxaLen ∧ (sendPayload s f).rxaValid = s.rxaValid := by
  simp [sendPayload]

end

/-! ### Passthrough -/

/-- Settles O49: in passthrough the register bytes are the operands, and DECODE responds its own. -/
theorem passthroughForwardsUnchanged : Obligations.PassthroughForwardsUnchanged := by
  unfold Obligations.PassthroughForwardsUnchanged
  intro s hclear hpass
  refine ⟨fun len a hmin hmax hcount => ⟨⟨_, exec_setTxAddr_of_legal hclear hmin hmax hcount, ?_⟩,
    ⟨_, exec_setRxAddr_of_legal hclear hmin hmax hcount, ?_⟩⟩, fun cfg => ⟨_, exec_configure_one hclear cfg, ?_⟩,
    fun payload hshort => ⟨_, exec_encode_passthrough hclear hshort hpass, sendPayload_stream s payload, ?_⟩⟩
  · simp [txRegisterBytes, hpass]
  · simp [rxRegisterBytes, hpass]
  · simp [forwardedConfig, hpass]
  · obtain ⟨hparams, hfault, -⟩ := sendPayload_kept s payload
    exact exec_decode_passthrough (hfault.trans hclear) hshort (hparams ▸ hpass)

/-! ### Emulation -/

/-- A frame behind its address part is the body and, with the CRC on, the CRC (R105). -/
theorem Machine.frame_drop_address (p : Params) {a : List Byte} {len : Nat} (payload : List Byte) (ce : Bool)
    (hlen : a.length = len) :
    (frame p a len payload ce).drop ((if len < 4 then 1 else 0) + len) =
      scramblePayload p len payload ++ if ce then beBytes (frameCrc p a len payload) else [] := by
  have hhead : (droppedPreamble p len ++ addrSeq p a).length = (if len < 4 then 1 else 0) + len := by
    rw [List.length_append, droppedPreamble_length, addrSeq_length, hlen]
  rw [frame, List.append_assoc, List.drop_left' hhead]

/-- ENCODE performed in emulation hands over the frame (R110). -/
theorem Machine.exec_encode_of_pass {s : State} {ops : List Byte} (hclear : s.fault = false)
    (hshort : ops.length ≤ 19) (hemu : s.params.emulate = true) (hvalid : s.txaValid = true)
    (hlen : s.txaLen = s.addrLen)
    (hindex : s.crcEn = true → xorIndex s.addrLen.toNat ops.length < s.params.xorTable.length) :
    exec (.encode ops) s =
      .next (sendPayload s (frame s.params (readAddr s.txAddr s.addrLen) s.addrLen.toNat ops s.crcEn)) := by
  rw [exec_encode_emulation hshort hemu, checkFraming_of_pass hvalid hlen hindex, complete_ok hclear]

/-- DECODE performed in emulation on a transformed payload responds the payload and writes `RXCRC` alone (R103,
R111). -/
theorem Machine.exec_decode_scramblePayload {s : State} {payload : List Byte} (hclear : s.fault = false)
    (hshort : payload.length ≤ 19) (hemu : s.params.emulate = true) (hvalid : s.rxaValid = true)
    (hlen : s.rxaLen = s.addrLen) (hindex : xorIndex s.addrLen.toNat payload.length < s.params.xorTable.length) :
    ∃ u, exec (.decode (scramblePayload s.params s.addrLen.toNat payload)) s = .next u ∧
      u = ({ s with rxcrc := u.rxcrc } : State).respond payload ∧
      u.rxcrc = receivedCrc s (scramblePayload s.params s.addrLen.toNat payload) := by
  have hbody := scramblePayload_length s.params s.addrLen.toNat payload
  have hdecode := exec_decode_framed hclear (hbody ▸ hshort) hemu hvalid hlen (fun _ => by rwa [hbody])
  rw [descramblePayload_scramblePayload] at hdecode
  exact ⟨_, hdecode, by rw [State.respond_rxcrc], State.respond_rxcrc _ _⟩

/-- Where the RX address reads as `a`, the CRC that DECODE computes over a transformed payload is that of the frame of
`a` (R106, R111). -/
theorem Machine.receivedCrc_scramblePayload {s : State} {a : List Byte} (payload : List Byte) (hcrc : s.crcEn = true)
    (haddr : readAddr s.rxAddr s.addrLen = a) :
    receivedCrc s (scramblePayload s.params s.addrLen.toNat payload) =
      frameCrc s.params a s.addrLen.toNat payload := by
  rw [receivedCrc, if_pos hcrc, haddr, frameCrc]

/-- Settles O50: the body of the frame is the transformed payload, which DECODE transforms back, and over equal address
bytes it computes the CRC that the frame ends with. -/
theorem emulationRoundTrip : Obligations.EmulationRoundTrip := by
  unfold Obligations.EmulationRoundTrip
  intro s payload hclear hemu htxValid hrxValid htxLen hrxLen hmin hmax hshort htable
  have hlenNat : s.addrLen.toNat ≤ 5 := BitVec.le_def.mp hmax
  have hindex : xorIndex s.addrLen.toNat payload.length < s.params.xorTable.length := by
    unfold xorIndex
    omega
  have haddr : (readAddr s.txAddr s.addrLen).length = s.addrLen.toNat := by
    rw [readAddr_length, Nat.min_eq_left hlenNat]
  let f := frame s.params (readAddr s.txAddr s.addrLen) s.addrLen.toNat payload s.crcEn
  have hrest : f.drop _ = _ := frame_drop_address s.params payload s.crcEn haddr
  have hbody : (scramblePayload s.params s.addrLen.toNat payload).length = payload.length := scramblePayload_length ..
  obtain ⟨hparams, hfault, hcrcEn, haddrLen, hrxAddr, hrxaLen, hrxaValid⟩ := sendPayload_kept s f
  obtain ⟨u, hdecode, hu, hreceived⟩ := exec_decode_scramblePayload (s := sendPayload s f) (hfault.trans hclear) hshort
    (hparams ▸ hemu) (hrxaValid.trans hrxValid) (by rw [hrxaLen, haddrLen, hrxLen]) (by rwa [haddrLen, hparams])
  refine ⟨sendPayload s f, f, u, exec_encode_of_pass hclear hshort hemu htxValid htxLen fun _ => hindex,
    sendPayload_stream s f, ?_, hu, fun hon hsame => ?_⟩
  · rwa [hrest, List.take_left' hbody, ← hparams, ← haddrLen]
  · rw [← List.drop_drop, hrest, List.drop_left' hbody, if_pos hon, hreceived,
      receivedCrc_scramblePayload (a := readAddr s.txAddr s.addrLen) payload (hcrcEn.trans hon)
        (by rw [hrxAddr, haddrLen]; exact hsame), hparams, haddrLen]
    rfl

/-! ### Addresses of different lengths -/

section
variable {s : State} {len : BitVec 3} {ops : List Byte}

/-- After SET_TX_ADDR the TX address has the length written, as has `ADDR_LEN`, and the RX address the one it had. -/
theorem Machine.setTxAddr_lengths (hclear : s.fault = false) (hmin : 3 ≤ len) (hmax : len ≤ 5)
    (hcount : ops.length = len.toNat) :
    ∃ t, exec (.setTxAddr len ops) s = .next t ∧ t.fault = false ∧ t.params = s.params ∧ t.addrLen = len ∧
      (t.txaValid = true ∧ t.txaLen = len) ∧ t.rxaValid = s.rxaValid ∧ t.rxaLen = s.rxaLen :=
  ⟨_, exec_setTxAddr_of_legal hclear hmin hmax hcount, by simp [hclear]⟩

/-- After SET_RX_ADDR the RX address has the length written, as has `ADDR_LEN`, and the TX address the one it had. -/
theorem Machine.setRxAddr_lengths (hclear : s.fault = false) (hmin : 3 ≤ len) (hmax : len ≤ 5)
    (hcount : ops.length = len.toNat) :
    ∃ t, exec (.setRxAddr len ops) s = .next t ∧ t.fault = false ∧ t.params = s.params ∧ t.addrLen = len ∧
      (t.rxaValid = true ∧ t.rxaLen = len) ∧ t.txaValid = s.txaValid ∧ t.txaLen = s.txaLen :=
  ⟨_, exec_setRxAddr_of_legal hclear hmin hmax hcount, by simp [hclear]⟩

end

/-- Settles O55: each address command writes `ADDR_LEN`, so the address set before the other one no longer has it. -/
theorem differentAddressLengthsMismatch : Obligations.DifferentAddressLengthsMismatch := by
  unfold Obligations.DifferentAddressLengthsMismatch
  intro s l1 l2 a1 a2 payload hclear hemu hmin1 hmax1 hmin2 hmax2 hne hcount1 hcount2 hshort
  obtain ⟨s1, hexec1, hclear1, hparams1, -, ⟨htxValid1, htxLen1⟩, -⟩ :=
    setTxAddr_lengths hclear hmin1 hmax1 hcount1
  obtain ⟨s2, hexec2, hclear2, hparams2, haddrLen2, ⟨hrxValid2, hrxLen2⟩, htxValid2, htxLen2⟩ :=
    setRxAddr_lengths hclear1 hmin2 hmax2 hcount2
  obtain ⟨s3, hexec3, hclear3, hparams3, haddrLen3, -, hrxValid3, hrxLen3⟩ :=
    setTxAddr_lengths hclear2 hmin1 hmax1 hcount1
  refine ⟨s1, s2, s3, hexec1, hexec2, hclear2, haddrLen2, ?_, hexec3, hclear3, haddrLen3, ?_⟩
  · refine exec_encode_of_checkFraming_error (c := .addrLenMismatch) hclear2 hshort
      (by rwa [hparams2, hparams1]) fun t => ?_
    exact checkFraming_of_mismatch (htxValid2.trans htxValid1) (by rwa [htxLen2, htxLen1, haddrLen2])
  · refine exec_decode_of_checkFraming_error (c := .addrLenMismatch) hclear3 hshort
      (by rwa [hparams3, hparams2, hparams1]) fun t => ?_
    exact checkFraming_of_mismatch (hrxValid3.trans hrxValid2) (by rw [hrxLen3, hrxLen2, haddrLen3]; exact hne.symm)

end Sys2Proof
end

/-! PROOFS. PACK and UNPACK together: what the flip bit of a packet carries, which UNPACK cannot tell from the bit of
the biased value it stands for. -/
section
namespace Sys2Proof

open Machine

/-! ### The flip bit of a word -/

section
variable (p : Params)

theorem Machine.flipMask_getLsbD {i : Nat} : (flipMask p).getLsbD i = decide (p.flipBit.val = i) := by
  have hmask : flipMask p = BitVec.twoPow 16 p.flipBit.val := (BitVec.twoPow_eq ..).symm
  rw [hmask, BitVec.getLsbD_twoPow, decide_eq_true p.flipBit.isLt, Bool.true_and]

/-- Clearing the flip bit leaves a word as it is exactly where the bit was clear. -/
theorem Machine.clear_flipMask_eq_iff (w : Word) : w &&& ~~~flipMask p = w ↔ w.getLsbD p.flipBit.val = false := by
  constructor
  · intro h
    rw [← h, BitVec.getLsbD_and, BitVec.getLsbD_not, flipMask_getLsbD]
    simp
  · intro h
    refine BitVec.eq_of_getLsbD_eq fun i hi => ?_
    rw [BitVec.getLsbD_and, BitVec.getLsbD_not, flipMask_getLsbD]
    by_cases hbit : p.flipBit.val = i
    · rw [← hbit, h, Bool.false_and]
    · simp [hbit, hi]

/-- Clearing the flip bit takes off a flag that was or-ed in. -/
theorem Machine.or_flipMask_clear (w : Word) : (w ||| flipMask p) &&& ~~~flipMask p = w &&& ~~~flipMask p := by
  rw [BitVec.and_or_distrib_right, BitVec.and_not_self]
  exact BitVec.or_zero

end

/-- Two words are equal where both of their bytes are. -/
theorem Machine.word_eq_iff {v w : Word} : v = w ↔ lo8 v = lo8 w ∧ hi8 v = hi8 w := by
  refine ⟨fun h => h ▸ ⟨rfl, rfl⟩, fun ⟨hlo, hhi⟩ => ?_⟩
  rw [← le16_lo8_hi8 v, ← le16_lo8_hi8 w, hlo, hhi]

/-! ### The fields of a packet built -/

/-- The biased value of a packet field, before the flag is or-ed in (R144). -/
def Machine.biasedField (ch : Vector Word 6) (k : Fin 4) : Word := ch[fieldChannel k] + 1000

section
variable (p : Params) (ty : PacketType) (txid aid : Vector Byte 4) (ch : Vector Word 6) (k : Fin 4)

/-- A field as carried is the field as built. -/
theorem Machine.carriedField_marshal : carriedField (marshal p ty txid aid ch) k = packetField p ch k := by
  rw [marshal_eq]
  match k with
  | 0 | 1 | 2 | 3 => exact le16_lo8_hi8 _

/-- Only the flip field can differ from its biased value, and only while the flag is raised. -/
theorem Machine.packetField_eq_biased :
    packetField p ch k =
      if flipFlag p ch = true ∧ k = p.flipField then biasedField ch k ||| flipMask p else biasedField ch k :=
  rfl

/-- UNPACK takes the flag off again and the bit of the biased flip field with it (R146). -/
theorem Machine.centeredField_marshal :
    centeredField p (marshal p ty txid aid ch) k =
      (if k = p.flipField then biasedField ch k &&& ~~~flipMask p else biasedField ch k) - 1000 := by
  rw [centeredField, carriedField_marshal, packetField_eq_biased]
  by_cases hfield : k = p.flipField
  · rw [if_pos hfield, if_pos hfield]
    split
    · rw [or_flipMask_clear]
    · rfl
  · rw [if_neg hfield, if_neg hfield, if_neg fun h => hfield h.2]

/-- A field comes back as the channel it carried, but the flip field only where its biased value had the bit clear. -/
theorem Machine.centeredField_marshal_eq_iff :
    centeredField p (marshal p ty txid aid ch) k = ch[fieldChannel k] ↔
      (k = p.flipField → (biasedField ch k).getLsbD p.flipBit.val = false) := by
  rw [centeredField_marshal, BitVec.sub_eq_iff_eq_add]
  by_cases hfield : k = p.flipField
  · simp only [hfield, if_true, forall_const]
    exact clear_flipMask_eq_iff p _
  · simp [hfield, biasedField]

/-- The flag carried is the flag raised or the bit of the biased flip field. -/
theorem Machine.carriedFlip_marshal :
    carriedFlip p (marshal p ty txid aid ch) =
      if (flipFlag p ch || (biasedField ch p.flipField).getLsbD p.flipBit.val) = true then 1 else 0 := by
  rw [carriedFlip, carriedField_marshal, packetField_eq_biased]
  cases hflag : flipFlag p ch
  · simp
  · simp [flipMask_getLsbD]

/-- What UNPACK answers to a packet that PACK built, byte by byte. -/
theorem Machine.unmarshal_marshal :
    let pk := marshal p ty txid aid ch
    unmarshal p pk =
      [typeMarker ty, txid[0], txid[1], txid[2], txid[3], aid[0], aid[1], aid[2], aid[3],
       lo8 (centeredField p pk 0), hi8 (centeredField p pk 0), lo8 (centeredField p pk 1), hi8 (centeredField p pk 1),
       lo8 (centeredField p pk 2), hi8 (centeredField p pk 2), lo8 (centeredField p pk 3), hi8 (centeredField p pk 3),
       carriedFlip p pk, modeByte p ch, 0] := by
  intro pk
  have hpk : pk = _ := marshal_eq p ty txid aid ch
  have hhead : bytesFrom pk 0 9 =
      [typeMarker ty, txid[0], txid[1], txid[2], txid[3], aid[0], aid[1], aid[2], aid[3]] := by rw [hpk]; rfl
  have hmode : byteAt pk 17 = modeByte p ch := by rw [hpk]; rfl
  have hlast : byteAt pk 18 = 0 := by rw [hpk]; rfl
  rw [unmarshal, hhead, hmode, hlast]
  rfl

end

/-- The four fields of a packet carry aileron, elevator, throttle and rudder, in this order (R144). -/
theorem Machine.getElem_fieldChannel (ch : Vector Word 6) (k : Fin 4) :
    ch[fieldChannel k] = if k = 0 then ch[1] else if k = 1 then ch[2] else if k = 2 then ch[0] else ch[3] := by
  match k with
  | 0 | 1 | 2 | 3 => rfl

/-- Four words written low byte first are the channels of the fields where each is its own. -/
theorem Machine.fieldBytes_eq_iff (v : Fin 4 → Word) (ch : Vector Word 6) :
    [lo8 (v 0), hi8 (v 0), lo8 (v 1), hi8 (v 1), lo8 (v 2), hi8 (v 2), lo8 (v 3), hi8 (v 3)] =
      [lo8 ch[1], hi8 ch[1], lo8 ch[2], hi8 ch[2], lo8 ch[0], hi8 ch[0], lo8 ch[3], hi8 ch[3]] ↔
    ∀ k, v k = ch[fieldChannel k] := by
  have hfields : (∀ k, v k = ch[fieldChannel k]) ↔ v 0 = ch[1] ∧ v 1 = ch[2] ∧ v 2 = ch[0] ∧ v 3 = ch[3] :=
    ⟨fun h => ⟨h 0, h 1, h 2, h 3⟩, fun ⟨h0, h1, h2, h3⟩ k => match k with | 0 => h0 | 1 => h1 | 2 => h2 | 3 => h3⟩
  rw [hfields]
  simp only [word_eq_iff, List.cons.injEq, and_true, and_assoc]

/-- Settles O51: the bytes of the answer pair up to the four centered fields, and of these only the flip field can
differ from its channel. -/
theorem unpackInvertsPackExactlyWhenTheBitWasClear : Obligations.UnpackInvertsPackExactlyWhenTheBitWasClear := by
  unfold Obligations.UnpackInvertsPackExactlyWhenTheBitWasClear
  intro p ty txid aid ch channels source r
  have hr : r = _ := unmarshal_marshal p ty txid aid ch
  have hsource : source + 1000 = biasedField ch p.flipField := by rw [biasedField, getElem_fieldChannel]
  have hhead : r.take 9 = (if ty = .bind then (0xAA : Byte) else 0x55) :: (txid.toList ++ aid.toList) := by
    rw [hr, toList_four, toList_four, ← typeMarker_eq]
    rfl
  have hchannels : (r.drop 9).take 8 = channels ↔
      ∀ k, centeredField p (marshal p ty txid aid ch) k = ch[fieldChannel k] := by
    rw [← fieldBytes_eq_iff, hr]
    rfl
  rw [hsource, hchannels]
  refine ⟨by rw [hr]; rfl, hhead, ?_, fun hbit => ?_, by rw [hr, marshal_eq]; rfl, by rw [hr]; rfl⟩
  · simp only [centeredField_marshal_eq_iff, forall_eq]
  · have hflip : carriedFlip p (marshal p ty txid aid ch) = if ch[p.flipSrc] > p.flipThreshold then 1 else 0 := by
      rw [carriedFlip_marshal, hbit, Bool.or_false]
      simp only [flipFlag_iff]
    rw [hr, ← hflip]
    rfl

/-! ### A packet with the flag raised -/

section
variable {p : Params} {ch : Vector Word 6} {v : Word}

/-- No field carries an aux channel, and the flip source is one of them (R8, R144). -/
theorem Machine.fieldChannel_ne_flipSrc (hlegal : p.Legal) (k : Fin 4) : p.flipSrc.val ≠ (fieldChannel k).val := by
  obtain ⟨-, hsrc, -⟩ := hlegal
  rcases hsrc with h | h <;> rw [h] <;> match k with
    | 0 | 1 | 2 | 3 => decide

/-- Writing the flip source changes a packet by the flag alone. -/
theorem Machine.packetField_set_flipSrc (hlegal : p.Legal) (k : Fin 4) :
    packetField p (ch.set p.flipSrc.val v p.flipSrc.isLt) k =
      if p.flipThreshold < v ∧ k = p.flipField then biasedField ch k ||| flipMask p else biasedField ch k := by
  have hkept : biasedField (ch.set p.flipSrc.val v p.flipSrc.isLt) k = biasedField ch k :=
    congrArg (· + 1000) (Vector.getElem_set_ne _ _ (fieldChannel_ne_flipSrc hlegal k))
  have hflag : flipFlag p (ch.set p.flipSrc.val v p.flipSrc.isLt) = decide (p.flipThreshold < v) :=
    congrArg (fun w : Word => decide (p.flipThreshold < w)) (Vector.getElem_set_self p.flipSrc.isLt)
  simp only [packetField_eq_biased, hkept, hflag, decide_eq_true_iff]

/-- The mode byte is read from the other aux channel (R8). -/
theorem Machine.modeByte_set_flipSrc (hlegal : p.Legal) :
    modeByte p (ch.set p.flipSrc.val v p.flipSrc.isLt) = modeByte p ch := by
  obtain ⟨-, -, -, -, hne, -⟩ := hlegal
  have hkept : (ch.set p.flipSrc.val v p.flipSrc.isLt)[p.modeSrc] = ch[p.modeSrc] :=
    Vector.getElem_set_ne _ _ (Fin.val_ne_of_ne hne.symm)
  unfold modeByte
  rw [hkept]

/-- The flip bit is one of the high byte's (R8). -/
theorem Machine.bytes_or_flipMask (hbit : 8 ≤ p.flipBit.val) (w : Word) :
    lo8 (w ||| flipMask p) = lo8 w ∧ hi8 (w ||| flipMask p) = hi8 w ||| ((1 : Byte) <<< (p.flipBit.val - 8)) := by
  constructor
  · refine BitVec.eq_of_getLsbD_eq fun i hi => ?_
    have hne : p.flipBit.val ≠ i := by omega
    simp [lo8, flipMask_getLsbD, hne]
  · refine BitVec.eq_of_getLsbD_eq fun i hi => ?_
    have hone : (1 : Byte) <<< (p.flipBit.val - 8) = BitVec.twoPow 8 (p.flipBit.val - 8) := (BitVec.twoPow_eq ..).symm
    have hbitLt := p.flipBit.isLt
    have hplace : p.flipBit.val = 8 + i ↔ i = p.flipBit.val - 8 := by omega
    rw [hone]
    simp [hi8, flipMask_getLsbD, hplace, hi]

/-- With the flag raised the packet is the one without it, with the flip bit set in the high byte of the flip field. -/
theorem Machine.marshal_flag_raised (hlegal : p.Legal) {low high : Word} (hlow : low ≤ p.flipThreshold)
    (hhigh : p.flipThreshold < high) (ty : PacketType) (txid aid : Vector Byte 4) :
    marshal p ty txid aid (ch.set p.flipSrc.val high p.flipSrc.isLt) =
      (marshal p ty txid aid (ch.set p.flipSrc.val low p.flipSrc.isLt)).modify (10 + 2 * p.flipField.val)
        (· ||| ((1 : Byte) <<< (p.flipBit.val - 8))) := by
  have hbit : 8 ≤ p.flipBit.val := by
    obtain ⟨-, -, hbit, -⟩ := hlegal
    omega
  have hnot : ¬ p.flipThreshold < low := BitVec.not_lt.mpr hlow
  have hbytes := bytes_or_flipMask hbit
  simp only [marshal_eq, packetField_set_flipSrc hlegal, modeByte_set_flipSrc hlegal, hnot, hhigh, false_and, true_and,
    if_false]
  match p.flipField with
  | 0 | 1 | 2 | 3 => simp [hbytes]

end

/-- Settles O52: the two packets are the same list but for the one byte modified. -/
theorem flipFlagSetsOneBitOfThePacket : Obligations.FlipFlagSetsOneBitOfThePacket := by
  unfold Obligations.FlipFlagSetsOneBitOfThePacket
  intro p ty txid aid ch low high hlegal hlow hhigh before after
  have hafter : after = before.modify _ _ := marshal_flag_raised hlegal hlow hhigh ty txid aid
  refine ⟨marshal_length .., marshal_length .., fun i _ hne => ?_, ?_⟩
  · rw [hafter, List.getElem?_modify_ne _ _ hne.symm]
  · rw [hafter, List.getElem?_modify_eq]
    rfl

end Sys2Proof
end

/-! PROOFS. The exclusion window of a CH_WRITE first in line: the step that serves the other port notes that it passed
the CH_WRITE, which is then owed the next step. -/
section
namespace Sys2Proof

open Machine

/-! ### A step that takes a command -/

/-- A step that takes a command leaves the ports' lines, the port being served and the schedule as the taking left
them. -/
theorem Machine.step_of_taken {s s1 : State} {m : Message} (hreset : s.resetHold = 0)
    (htake : takeCommand s = some (m, s1)) :
    ∃ t, step s = .next t ∧ t.port = s1.port ∧ t.schedule = s1.schedule ∧
      ∀ p, (t.portState p).waiting = (s1.portState p).waiting ∧ (t.portState p).seq = (s1.portState p).seq := by
  obtain ⟨u, es, bs, hrun, hemits, -, -⟩ := runMessage_answers m s1
  refine ⟨u.respond bs, by simp [step, hreset, htake, hrun], (u.respond_port bs).trans hemits.port,
    runMessage_keepsSchedule m s1 _ hrun, fun p => ?_⟩
  rw [State.respond_waiting, State.respond_seq, hemits.portState]
  exact ⟨rfl, rfl⟩

/-- The first command waiting on the port served is taken: that port's line is one shorter and its index one on. -/
theorem Machine.step_serves {s s1 : State} {m m' : Message} {p : Port} {rest : List Message} (hreset : s.resetHold = 0)
    (hline : (s.portState p).waiting = m :: rest) (htake : takeCommand s = some (m', s1)) (hserved : s1.port = p) :
    ∃ t, step s = .next t ∧ t.port = p ∧ (t.portState p).seq = (s.portState p).seq + 1 ∧
      (t.portState p).waiting = rest := by
  subst hserved
  obtain ⟨t, hstep, hport, -, hlines⟩ := step_of_taken hreset htake
  obtain ⟨hfirst, hseq, -, -⟩ := takeCommand_ports htake
  obtain ⟨hwaiting, hindex⟩ := hlines s1.port
  refine ⟨t, hstep, hport, hindex.trans hseq, hwaiting.trans ?_⟩
  exact (List.cons.inj (hfirst.symm.trans hline)).2

/-! ### The CH_WRITE that is passed -/

theorem Machine.exists_takeCommand {s : State} {p : Port} (hwaiting : (s.portState p).waiting ≠ []) :
    ∃ m s1, takeCommand s = some (m, s1) := by
  cases htake : takeCommand s with
  | none =>
    obtain ⟨hhost, hproducer⟩ := takeCommand_none.mp htake
    cases p
    · exact absurd hhost hwaiting
    · exact absurd hproducer hwaiting
  | some r => exact ⟨r.1, r.2, rfl⟩

/-- Where both ports have a command waiting, the taking is of the contested choice, and it notes the port passed. -/
theorem Machine.takeCommand_of_both {s s1 : State} {m : Message} (hh : s.host.waiting ≠ [])
    (hp : s.producer.waiting ≠ []) (htake : takeCommand s = some (m, s1)) :
    s1.port = (contestedChoice s).1 ∧ s1.arbPassed = some (contestedChoice s).1.other := by
  obtain ⟨q, rest, ap, al, ai, ao, hchoose, -, rfl⟩ := takeCommand_some htake
  obtain ⟨hport, hstate⟩ := Prod.mk.inj (Option.some.inj ((choosePort_of_both hh hp).symm.trans hchoose))
  exact ⟨hport.symm, (congrArg State.arbPassed hstate).symm⟩

/-- A taking from the other port, while a command waits on `p`, is contested: both ports have a command waiting. -/
theorem Machine.both_waiting_of_other {s s1 : State} {m : Message} {p : Port}
    (hwaiting : (s.portState p).waiting ≠ []) (htake : takeCommand s = some (m, s1)) (hother : s1.port = p.other) :
    s.host.waiting ≠ [] ∧ s.producer.waiting ≠ [] := by
  obtain ⟨hfirst, -, -, -⟩ := takeCommand_ports htake
  have hq : (s.portState p.other).waiting ≠ [] := by
    rw [← hother, hfirst]
    exact List.cons_ne_nil _ _
  cases p
  · exact ⟨hwaiting, hq⟩
  · exact ⟨hq, hwaiting⟩

/-- A CH_WRITE first in line at a port that was passed is owed. -/
theorem Machine.owedChWrite_of_passed {s : State} {p : Port} {m : Message} {rest : List Message}
    (hpassed : s.arbPassed = some p) (hline : (s.portState p).waiting = m :: rest) (hm : isChWrite m = true) :
    s.owedChWrite = some p := by
  simp [State.owedChWrite, hpassed, hline, hm]

/-- A port that is owed a CH_WRITE is served next: uncontested, or as the contested choice (R63). -/
theorem Machine.takeCommand_of_owed {s s1 : State} {m : Message} {p : Port} (howed : s.owedChWrite = some p)
    (hwaiting : (s.portState p).waiting ≠ []) (htake : takeCommand s = some (m, s1)) : s1.port = p := by
  by_contra hport
  obtain ⟨hh, hp⟩ := both_waiting_of_other hwaiting htake (Port.eq_other_of_ne hport)
  exact hport ((takeCommand_of_both hh hp htake).1.trans (contestedChoice_of_owed howed))

/-- A step that serves the other port leaves a CH_WRITE first in line where it was, and owed. -/
theorem Machine.step_passes {s s1 : State} {m m' : Message} {p : Port} {rest : List Message} (hreset : s.resetHold = 0)
    (hline : (s.portState p).waiting = m :: rest) (hm : isChWrite m = true) (htake : takeCommand s = some (m', s1))
    (hother : s1.port = p.other) :
    ∃ t, step s = .next t ∧ t.resetHold = 0 ∧ (t.portState p).waiting = m :: rest ∧
      (t.portState p).seq = (s.portState p).seq ∧ t.owedChWrite = some p := by
  obtain ⟨hh, hp⟩ := both_waiting_of_other (by simp [hline]) htake hother
  obtain ⟨hchoice, hpassed⟩ := takeCommand_of_both hh hp htake
  obtain ⟨-, -, -, hkept⟩ := takeCommand_ports htake
  obtain ⟨-, -, hhold⟩ := takeCommand_frame htake
  rw [hother, Port.other_other] at hkept
  rw [← hchoice, hother, Port.other_other] at hpassed
  obtain ⟨t, hstep, -, hschedule, hlines⟩ := step_of_taken hreset htake
  obtain ⟨hwaiting, hseq⟩ := hlines p
  rw [hkept] at hwaiting hseq
  exact ⟨t, hstep, (congrArg Schedule.hold hschedule).trans (hhold.trans hreset), hwaiting.trans hline, hseq,
    owedChWrite_of_passed ((congrArg Schedule.passed hschedule).trans hpassed) (hwaiting.trans hline) hm⟩

/-- Settles O59: the next step serves the port, or it passes the CH_WRITE and the step after it serves the port. -/
theorem chWriteWaitsForAtMostOneCommand : Obligations.ChWriteWaitsForAtMostOneCommand := by
  unfold Obligations.ChWriteWaitsForAtMostOneCommand
  intro s p m rest c ops hreset hline hm
  have hchWrite : isChWrite m = true := by simp [isChWrite, hm]
  obtain ⟨m1, s1, htake⟩ := exists_takeCommand (s := s) (p := p) (by simp [hline])
  by_cases hserved : s1.port = p
  · obtain ⟨t, hstep, htaken⟩ := step_serves hreset hline htake hserved
    exact ⟨1, t, .inl rfl, run_succ 0 hstep, htaken⟩
  · obtain ⟨t1, hstep1, hreset1, hline1, hseq1, howed⟩ :=
      step_passes hreset hline hchWrite htake (Port.eq_other_of_ne hserved)
    obtain ⟨m2, s2, htake2⟩ := exists_takeCommand (s := t1) (p := p) (by simp [hline1])
    obtain ⟨t, hstep, htaken⟩ :=
      step_serves hreset1 hline1 htake2 (takeCommand_of_owed howed (by simp [hline1]) htake2)
    exact ⟨2, t, .inr rfl, (run_succ 1 hstep1).trans (run_succ 0 hstep), hseq1 ▸ htaken⟩

end Sys2Proof
end

/-! PROOFS. The assembler: what it makes of each mnemonic's operands, that all of it decodes, and the messages that a
line of R79's form stands for. -/
section
namespace Sys2Proof

open Machine

/-! ### The rows of the assembler -/

section
variable (replyLen : Nat) (args : List AsmOperand)

theorem Machine.asmCommands_nop :
    asmCommands replyLen "NOP".toList args = (asmBytes 0 args).map fun bs => [.nop bs] := by
  unfold asmCommands
  rw [String.ofList_toList]
  rfl

theorem Machine.asmCommands_configure :
    asmCommands replyLen "CONFIGURE".toList args = (asmBytes 1 args).map fun bs => [.configure bs] := by
  unfold asmCommands
  rw [String.ofList_toList]
  rfl

theorem Machine.asmCommands_setTxAddr :
    asmCommands replyLen "SET_TX_ADDR".toList args = (asmAddr args).map fun a => [.setTxAddr a.1 a.2] := by
  unfold asmCommands
  rw [String.ofList_toList]
  rfl

theorem Machine.asmCommands_setRxAddr :
    asmCommands replyLen "SET_RX_ADDR".toList args = (asmAddr args).map fun a => [.setRxAddr a.1 a.2] := by
  unfold asmCommands
  rw [String.ofList_toList]
  rfl

theorem Machine.asmCommands_encode :
    asmCommands replyLen "ENCODE".toList args = (args.mapM asmByte).map fun bs => [.encode bs] := by
  unfold asmCommands
  rw [String.ofList_toList]
  rfl

theorem Machine.asmCommands_decode :
    asmCommands replyLen "DECODE".toList args = (args.mapM asmByte).map fun bs => [.decode bs] := by
  unfold asmCommands
  rw [String.ofList_toList]
  rfl

theorem Machine.asmCommands_setTxid :
    asmCommands replyLen "SET_TXID".toList args = (asmBytes 4 args).map fun bs => [.setTxid bs] := by
  unfold asmCommands
  rw [String.ofList_toList]
  rfl

theorem Machine.asmCommands_setAid :
    asmCommands replyLen "SET_AID".toList args = (asmBytes 4 args).map fun bs => [.setAid bs] := by
  unfold asmCommands
  rw [String.ofList_toList]
  rfl

theorem Machine.asmCommands_hopGet (k : Nat) :
    asmCommands replyLen "HOP_GET".toList [.num k] = if k < 4 then some [.hopGet (BitVec.ofNat 2 k) []] else none := by
  unfold asmCommands
  rw [String.ofList_toList]
  rfl

theorem Machine.asmCommands_chWrite (c : AsmOperand) (v : Nat) :
    asmCommands replyLen "CH_WRITE".toList [c, .num v] =
      if v < 65536 then (asmChannel c).map fun c => [.chWrite c [BitVec.ofNat 8 v, BitVec.ofNat 8 (v / 256)]]
      else none := by
  unfold asmCommands
  rw [String.ofList_toList]
  rfl

theorem Machine.asmCommands_pack (t : AsmOperand) :
    asmCommands replyLen "PACK".toList [t] = (asmPacketType t).map fun t => [.pack t []] := by
  unfold asmCommands
  rw [String.ofList_toList]
  rfl

theorem Machine.asmCommands_unpack :
    asmCommands replyLen "UNPACK".toList args = (asmBytes 19 args).map fun bs => [.unpack bs] := by
  unfold asmCommands
  rw [String.ofList_toList]
  rfl

theorem Machine.asmCommands_parseReply :
    asmCommands replyLen "PARSE_REPLY".toList args = (asmBytes replyLen args).map fun bs => [.parseReply bs] := by
  unfold asmCommands
  rw [String.ofList_toList]
  rfl

theorem Machine.asmCommands_status :
    asmCommands replyLen "STATUS".toList args = (asmBytes 0 args).map fun bs => [.status bs] := by
  unfold asmCommands
  rw [String.ofList_toList]
  rfl

theorem Machine.asmCommands_rdRxcrc :
    asmCommands replyLen "RD_RXCRC".toList args = (asmBytes 0 args).map fun bs => [.rdRxcrc bs] := by
  unfold asmCommands
  rw [String.ofList_toList]
  rfl

theorem Machine.asmCommands_packData :
    asmCommands replyLen "PACK_DATA".toList args = (asmBytes 0 args).map fun _ => [.pack .data []] := by
  unfold asmCommands
  rw [String.ofList_toList]
  rfl

theorem Machine.asmCommands_packBind :
    asmCommands replyLen "PACK_BIND".toList args = (asmBytes 0 args).map fun _ => [.pack .bind []] := by
  unfold asmCommands
  rw [String.ofList_toList]
  rfl

theorem Machine.asmCommands_setAddr :
    asmCommands replyLen "SET_ADDR".toList args =
      (asmAddr args).map fun a => [.setTxAddr a.1 a.2, .setRxAddr a.1 a.2] := by
  unfold asmCommands
  rw [String.ofList_toList]
  rfl

theorem Machine.asmCommands_hopAll :
    asmCommands replyLen "HOP_ALL".toList args =
      (asmBytes 0 args).map fun _ => [.hopGet 0 [], .hopGet 1 [], .hopGet 2 [], .hopGet 3 []] := by
  unfold asmCommands
  rw [String.ofList_toList]
  rfl

end

/-! ### What is accepted decodes -/

/-- A pass of `mapM` that succeeds keeps the length. -/
theorem length_of_mapM_eq_some {α β : Type} {f : α → Option β} {xs : List α} {ys : List β} (h : xs.mapM f = some ys) :
    ys.length = xs.length := by
  induction xs generalizing ys with
  | nil =>
    obtain rfl : [] = ys := by simpa using h
    rfl
  | cons x xs ih =>
    simp only [List.mapM_cons, Option.bind_eq_bind, Option.bind_eq_some_iff, Option.pure_def, Option.some.injEq] at h
    obtain ⟨y, -, ys', hys, rfl⟩ := h
    simp [ih hys]

theorem Machine.length_of_asmBytes {n : Nat} {args : List AsmOperand} {bs : List Byte}
    (h : asmBytes n args = some bs) : bs.length = n := by
  unfold asmBytes at h
  split at h
  · rename_i hcount
    exact (length_of_mapM_eq_some h).trans hcount
  · cases h

/-- An address taken is of a legal length and has that many bytes. -/
theorem Machine.legal_of_asmAddr {args : List AsmOperand} {a : BitVec 3 × List Byte} (h : asmAddr args = some a) :
    legalAddrLen a.1 = true ∧ a.2.length = a.1.toNat := by
  unfold asmAddr at h
  split at h
  · rename_i n rest
    split at h
    · rename_i hlegal
      obtain ⟨hmin, hmax, hcount⟩ := hlegal
      obtain ⟨bs, hbs, rfl⟩ := Option.map_eq_some_iff.mp h
      have hn : (BitVec.ofNat 3 n).toNat = n := by simp; omega
      refine ⟨legalAddrLen_iff.mpr ⟨?_, ?_⟩, ?_⟩
      · exact BitVec.le_def.mpr (by rw [hn]; exact hmin)
      · exact BitVec.le_def.mpr (by rw [hn]; exact hmax)
      · rw [hn, ← hcount]
        exact length_of_mapM_eq_some hbs
    · cases h
  · cases h

/-- What the assembler leaves to the block is the payload bound of ENCODE and DECODE alone (log entry 7). -/
def Machine.FormedButPayload (replyLen : Nat) (i : Instr) : Prop :=
  i.wellFormed replyLen = true ∨ (∃ ops, i = .encode ops) ∨ (∃ ops, i = .decode ops)

theorem Machine.formed_of_asmBytes {replyLen n : Nat} {args : List AsmOperand} {f : List Byte → List Instr}
    {is : List Instr} (h : (asmBytes n args).map f = some is)
    (hf : ∀ bs, bs.length = n → ∀ i ∈ f bs, FormedButPayload replyLen i) : ∀ i ∈ is, FormedButPayload replyLen i := by
  obtain ⟨bs, hbs, rfl⟩ := Option.map_eq_some_iff.mp h
  exact hf bs (length_of_asmBytes hbs)

theorem Machine.formed_of_asmAddr {replyLen : Nat} {args : List AsmOperand} {f : BitVec 3 × List Byte → List Instr}
    {is : List Instr} (h : (asmAddr args).map f = some is)
    (hf : ∀ a, legalAddrLen a.1 = true ∧ a.2.length = a.1.toNat → ∀ i ∈ f a, FormedButPayload replyLen i) :
    ∀ i ∈ is, FormedButPayload replyLen i := by
  obtain ⟨a, ha, rfl⟩ := Option.map_eq_some_iff.mp h
  exact hf a (legal_of_asmAddr ha)

/-- Every row of the assembler checks the operand count of its command; the rows are numbered in their order. -/
theorem Machine.formed_of_asmCommands {replyLen : Nat} {mnemonic : List Char} {args : List AsmOperand}
    {is : List Instr} (h : asmCommands replyLen mnemonic args = some is) : ∀ i ∈ is, FormedButPayload replyLen i := by
  unfold asmCommands at h
  split at h
  case h_3 | h_4 | h_18 => -- SET_TX_ADDR, SET_RX_ADDR and SET_ADDR
    exact formed_of_asmAddr h fun a ha => by simp [FormedButPayload, Instr.wellFormed, ha]
  case h_5 | h_6 => -- ENCODE and DECODE
    obtain ⟨bs, -, rfl⟩ := Option.map_eq_some_iff.mp h
    simp [FormedButPayload]
  case h_9 => -- HOP_GET
    split at h
    · split at h
      · cases h
        simp [FormedButPayload, Instr.wellFormed]
      · cases h
    · cases h
  case h_10 => -- CH_WRITE
    split at h
    · split at h
      · obtain ⟨c, -, rfl⟩ := Option.map_eq_some_iff.mp h
        simp [FormedButPayload, Instr.wellFormed]
      · cases h
    · cases h
  case h_11 => -- PACK
    split at h
    · obtain ⟨t, -, rfl⟩ := Option.map_eq_some_iff.mp h
      simp [FormedButPayload, Instr.wellFormed]
    · cases h
  case h_20 => -- no mnemonic
    cases h
  all_goals -- the rows that take a count of bytes
    exact formed_of_asmBytes h fun bs hbs => by simp [FormedButPayload, Instr.wellFormed, hbs]

/-- A line accepted is the messages of its commands, if it has any. -/
theorem Machine.commands_of_assembleLine {replyLen : Nat} {line : List Char} {ms : List Message}
    (h : assembleLine replyLen line = some ms) :
    ms = [] ∨ ∃ mnemonic args is, asmCommands replyLen mnemonic args = some is ∧ ms = is.map encode := by
  simp only [assembleLine] at h
  split at h
  · cases h
    exact .inl rfl
  · split at h
    · cases h
    · obtain ⟨is, his, rfl⟩ := Option.map_eq_some_iff.mp h
      exact .inr ⟨_, _, is, his, rfl⟩

/-- Settles O7: a message assembled is that of a command, to which it decodes. -/
theorem assembledMessagesDecode : Obligations.AssembledMessagesDecode := by
  unfold Obligations.AssembledMessagesDecode
  intro replyLen line ms hline m hm
  rcases commands_of_assembleLine hline with rfl | ⟨mnemonic, args, is, his, rfl⟩
  · cases hm
  · obtain ⟨i, hi, rfl⟩ := List.mem_map.mp hm
    exact ⟨i, decode_encode i, formed_of_asmCommands his i hi⟩

end Sys2Proof
end

/-! PROOFS. The lines of R79's form: each operand's text is read as its number or name, so a line stands for the
messages of its row. -/
section
namespace Sys2Proof

open Machine

/-! ### The operands of a line -/

/-- A text that is one word and is read as an operand. -/
def Machine.Reads (text : List Char) (a : AsmOperand) : Prop := IsWord text ∧ readOperand text = some a

theorem Machine.isWord_of_all {text : List Char} (hne : text ≠ [])
    (h : (text.all fun c => c != ',' && c != ';' && !isBlank c) = true) : IsWord text := by
  refine ⟨hne, fun c hc => ?_⟩
  simpa [and_assoc] using List.all_eq_true.mp h c hc

theorem Machine.reads_number {text : List Char} {n : Nat} (h : Safety.NumberText text n) : Reads text (.num n) :=
  ⟨isWord_numberText h, readOperand_numberText h⟩

theorem Machine.reads_bytes {texts : List (List Char)} {bs : List Byte} (h : Safety.BytesText texts bs) :
    List.Forall₂ Reads texts (bs.map fun b => .num b.toNat) := by
  induction h with
  | nil => exact .nil
  | cons hb _ ih => exact .cons (reads_number hb) ih

/-- The names of the channels and of the packet types are read as names. -/
theorem Machine.reads_channelName (c : Channel) : Reads (Safety.channelName c) (.name (Safety.channelName c)) := by
  match c with
  | 0 | 1 | 2 | 3 | 4 | 5 => exact ⟨isWord_of_all (by decide) (by decide), by decide⟩

theorem Machine.mapM_readOperand_of_reads {texts : List (List Char)} {args : List AsmOperand}
    (h : List.Forall₂ Reads texts args) : texts.mapM readOperand = some args ∧ ∀ t ∈ texts, IsWord t := by
  induction h with
  | nil => exact ⟨rfl, nofun⟩
  | cons ht _ ih =>
    obtain ⟨hword, hread⟩ := ht
    obtain ⟨hargs, hwords⟩ := ih
    exact ⟨by simp [hread, hargs], List.forall_mem_cons.mpr ⟨hword, hwords⟩⟩

/-- A line of R79's form is its mnemonic with the operands its texts are read as. -/
theorem Machine.assembleLine_of_reads (replyLen : Nat) {mnemonic : String} {texts : List (List Char)}
    {args : List AsmOperand} (hm : IsWord mnemonic.toList) (h : List.Forall₂ Reads texts args) :
    assembleLine replyLen (Safety.lineText mnemonic texts) =
      (asmCommands replyLen mnemonic.toList args).map (·.map encode) := by
  obtain ⟨hargs, hwords⟩ := mapM_readOperand_of_reads h
  rw [assembleLine_lineText replyLen mnemonic texts hm hwords, hargs]

/-! ### What the operands stand for -/

theorem Machine.mapM_asmByte_bytes (bs : List Byte) : (bs.map fun b => .num b.toNat).mapM asmByte = some bs := by
  induction bs with
  | nil => rfl
  | cons b bs ih => simp [asmByte, b.isLt, ih]

theorem Machine.asmBytes_bytes {n : Nat} {bs : List Byte} (h : bs.length = n) :
    asmBytes n (bs.map fun b => .num b.toNat) = some bs := by
  rw [asmBytes, if_pos ((List.length_map _).trans h), mapM_asmByte_bytes]

theorem Machine.asmAddr_bytes {len : BitVec 3} {bs : List Byte} (hmin : 3 ≤ len) (hmax : len ≤ 5)
    (h : bs.length = len.toNat) : asmAddr (.num len.toNat :: bs.map fun b => .num b.toNat) = some (len, bs) := by
  have hlegal : 3 ≤ len.toNat ∧ len.toNat ≤ 5 ∧ (bs.map fun b => AsmOperand.num b.toNat).length = len.toNat :=
    ⟨BitVec.le_def.mp hmin, BitVec.le_def.mp hmax, (List.length_map _).trans h⟩
  simp only [asmAddr, if_pos hlegal, mapM_asmByte_bytes, Option.map_some, BitVec.ofNat_toNat, BitVec.setWidth_eq]

/-- R79's first refusal: `L` differs from the count of the bytes. -/
theorem Machine.asmAddr_of_count {n : Nat} {bs : List Byte} (h : n ≠ bs.length) :
    asmAddr (.num n :: bs.map fun b => .num b.toNat) = none := by
  have hcount : ¬(3 ≤ n ∧ n ≤ 5 ∧ (bs.map fun b => AsmOperand.num b.toNat).length = n) := fun hl =>
    h (hl.2.2.symm.trans (List.length_map _))
  simp only [asmAddr, if_neg hcount]

theorem Machine.asmChannel_number (c : Channel) : asmChannel (.num c.val) = some c := dif_pos c.isLt

theorem Machine.asmChannel_name (c : Channel) : asmChannel (.name (Safety.channelName c)) = some c := by
  match c with
  | 0 | 1 | 2 | 3 | 4 | 5 => rfl

/-! ### The messages of a row -/

/-- The field of an opcode byte lies in bits that the row leaves free, so or-ing it in adds it (R72). -/
theorem encode_setTxAddr (len : BitVec 3) (ops : List Byte) :
    encode (.setTxAddr len ops) = ⟨0x20 + len.setWidth 8, ops⟩ := by
  have hopc : (0x20 : Byte) ||| len.setWidth 8 = 0x20 + len.setWidth 8 := by revert len; decide
  exact congrArg (Message.mk · ops) hopc

theorem encode_setRxAddr (len : BitVec 3) (ops : List Byte) :
    encode (.setRxAddr len ops) = ⟨0x30 + len.setWidth 8, ops⟩ := by
  have hopc : (0x30 : Byte) ||| len.setWidth 8 = 0x30 + len.setWidth 8 := by revert len; decide
  exact congrArg (Message.mk · ops) hopc

theorem encode_hopGet (k : BitVec 2) (ops : List Byte) : encode (.hopGet k ops) = ⟨0x70 + k.setWidth 8, ops⟩ := by
  have hopc : (0x70 : Byte) ||| k.setWidth 8 = 0x70 + k.setWidth 8 := by revert k; decide
  exact congrArg (Message.mk · ops) hopc

theorem encode_chWrite (c : Channel) (ops : List Byte) :
    encode (.chWrite c ops) = ⟨0x80 + BitVec.ofNat 8 c.val, ops⟩ := by
  have hopc : (0x80 : Byte) ||| BitVec.ofNat 8 c.val = 0x80 + BitVec.ofNat 8 c.val := by revert c; decide
  exact congrArg (Message.mk · ops) hopc

/-- The operand bytes of CH_WRITE are the two bytes of the word, the low byte first (R53, R79). -/
theorem Machine.word_bytes (v : Word) :
    BitVec.ofNat 8 v.toNat = v.extractLsb' 0 8 ∧ BitVec.ofNat 8 (v.toNat / 256) = v.extractLsb' 8 8 := by
  constructor
  · rfl
  · rw [BitVec.extractLsb', Nat.shiftRight_eq_div_pow]

/-- A line whose row takes its operands stands for the messages of the row's commands. -/
theorem Machine.assembleLine_of_row {replyLen : Nat} {mnemonic : String} {texts : List (List Char)}
    {args : List AsmOperand} {is : List Instr} (hrow : asmCommands replyLen mnemonic.toList args = some is)
    (h : List.Forall₂ Reads texts args) (hm : IsWord mnemonic.toList) :
    assembleLine replyLen (Safety.lineText mnemonic texts) = some (is.map encode) := by
  rw [assembleLine_of_reads replyLen hm h, hrow, Option.map_some]

/-- A line whose row refuses its operands is refused. -/
theorem Machine.assembleLine_of_refused {replyLen : Nat} {mnemonic : String} {texts : List (List Char)}
    {args : List AsmOperand} (hrow : asmCommands replyLen mnemonic.toList args = none)
    (h : List.Forall₂ Reads texts args) (hm : IsWord mnemonic.toList) :
    assembleLine replyLen (Safety.lineText mnemonic texts) = none := by
  rw [assembleLine_of_reads replyLen hm h, hrow, Option.map_none]

section
variable (replyLen : Nat) {t u : List Char}

/-- A line of a row that takes an address. -/
theorem Machine.assembleLine_addr {mnemonic : String} {texts : List (List Char)} {bs : List Byte} {len : BitVec 3}
    {f : BitVec 3 × List Byte → List Instr} (hm : IsWord mnemonic.toList)
    (hrow : ∀ args, asmCommands replyLen mnemonic.toList args = (asmAddr args).map f)
    (hlen : 3 ≤ len ∧ len ≤ 5 ∧ bs.length = len.toNat) (ht : Safety.NumberText t len.toNat)
    (hbytes : Safety.BytesText texts bs) :
    assembleLine replyLen (Safety.lineText mnemonic (t :: texts)) = some ((f (len, bs)).map encode) := by
  obtain ⟨hmin, hmax, hcount⟩ := hlen
  refine assembleLine_of_row ?_ ((reads_bytes hbytes).cons (reads_number ht)) hm
  rw [hrow, asmAddr_bytes hmin hmax hcount, Option.map_some]

theorem Machine.assembleLine_addr_refused {mnemonic : String} {texts : List (List Char)} {bs : List Byte} {n : Nat}
    {f : BitVec 3 × List Byte → List Instr} (hm : IsWord mnemonic.toList)
    (hrow : ∀ args, asmCommands replyLen mnemonic.toList args = (asmAddr args).map f) (hn : n ≠ bs.length)
    (ht : Safety.NumberText t n) (hbytes : Safety.BytesText texts bs) :
    assembleLine replyLen (Safety.lineText mnemonic (t :: texts)) = none := by
  refine assembleLine_of_refused ?_ ((reads_bytes hbytes).cons (reads_number ht)) hm
  rw [hrow, asmAddr_of_count hn, Option.map_none]

theorem Machine.assembleLine_chWrite {c : Channel} {v : Word} {a : AsmOperand} (ht : Reads t a)
    (ha : asmChannel a = some c) (hu : Safety.NumberText u v.toNat) :
    assembleLine replyLen (Safety.lineText "CH_WRITE" [t, u]) =
      some [⟨0x80 + BitVec.ofNat 8 c.val, [v.extractLsb' 0 8, v.extractLsb' 8 8]⟩] := by
  obtain ⟨hlo, hhi⟩ := word_bytes v
  have hrow : asmCommands replyLen "CH_WRITE".toList [a, .num v.toNat] =
      some [.chWrite c [v.extractLsb' 0 8, v.extractLsb' 8 8]] := by
    rw [asmCommands_chWrite, if_pos v.isLt, ha, hlo, hhi, Option.map_some]
  rw [assembleLine_of_row hrow (.cons ht (.cons (reads_number hu) .nil)) (isWord_of_all (by decide) (by decide)),
    ← encode_chWrite]
  rfl

/-- R79's second refusal: a channel above 5. -/
theorem Machine.assembleLine_chWrite_refused {c v : Nat} (hc : 5 < c) (ht : Safety.NumberText t c)
    (hu : Safety.NumberText u v) : assembleLine replyLen (Safety.lineText "CH_WRITE" [t, u]) = none := by
  have hchannel : asmChannel (.num c) = none := dif_neg (by omega)
  have hrow : asmCommands replyLen "CH_WRITE".toList [.num c, .num v] = none := by
    rw [asmCommands_chWrite, hchannel, Option.map_none, ite_self]
  exact assembleLine_of_refused hrow (.cons (reads_number ht) (.cons (reads_number hu) .nil))
    (isWord_of_all (by decide) (by decide))

theorem Machine.assembleLine_pack {ty : PacketType} {a : AsmOperand} (ht : Reads t a)
    (ha : asmPacketType a = some ty) :
    assembleLine replyLen (Safety.lineText "PACK" [t]) = some [encode (.pack ty [])] := by
  have hrow : asmCommands replyLen "PACK".toList [a] = some [.pack ty []] := by
    rw [asmCommands_pack, ha, Option.map_some]
  exact assembleLine_of_row hrow (.cons ht .nil) (isWord_of_all (by decide) (by decide))

end

/-- Settles O58: row by row, the operands are read as what they stand for and the row gives the commands. -/
theorem assemblerLinesStandForTheirMessages : Obligations.AssemblerLinesStandForTheirMessages := by
  unfold Obligations.AssemblerLinesStandForTheirMessages
  intro replyLen ts bs t u hbytes asm
  have hts := reads_bytes hbytes
  have htx : IsWord "SET_TX_ADDR".toList := isWord_of_all (by decide) (by decide)
  have hrx : IsWord "SET_RX_ADDR".toList := isWord_of_all (by decide) (by decide)
  have noOperand {mnemonic : String} {is : List Instr}
      (hrow : asmCommands replyLen mnemonic.toList [] = some is) (hm : IsWord mnemonic.toList) :
      asm mnemonic [] = some (is.map encode) := assembleLine_of_row hrow .nil hm
  have bytes {mnemonic : String} {is : List Instr}
      (hrow : asmCommands replyLen mnemonic.toList (bs.map fun b => .num b.toNat) = some is)
      (hm : IsWord mnemonic.toList) : asm mnemonic ts = some (is.map encode) := assembleLine_of_row hrow hts hm
  refine ⟨noOperand (asmCommands_nop replyLen []) ?_, noOperand (asmCommands_status replyLen []) ?_,
    noOperand (asmCommands_rdRxcrc replyLen []) ?_,
    fun h => bytes (by rw [asmCommands_configure, asmBytes_bytes h]; rfl) ?_, ?addr, ?addrCount,
    bytes (by rw [asmCommands_encode, mapM_asmByte_bytes]; rfl) ?_,
    bytes (by rw [asmCommands_decode, mapM_asmByte_bytes]; rfl) ?_,
    fun h => ⟨bytes (by rw [asmCommands_setTxid, asmBytes_bytes h]; rfl) ?_,
      bytes (by rw [asmCommands_setAid, asmBytes_bytes h]; rfl) ?_⟩, ?hopGet,
    noOperand (asmCommands_hopAll replyLen []) ?_, ?chWrite, fun c v => assembleLine_chWrite_refused replyLen,
    ?packData, ?packBind,
    noOperand (asmCommands_packData replyLen []) ?_, noOperand (asmCommands_packBind replyLen []) ?_,
    fun h => bytes (by rw [asmCommands_unpack, asmBytes_bytes h]; rfl) ?_,
    fun h => bytes (by rw [asmCommands_parseReply, asmBytes_bytes h]; rfl) ?_,
    fun line comment => (assembleLine_comment replyLen · comment)⟩
  case addr =>
    intro len hmin hmax hcount ht
    have hlen : 3 ≤ len ∧ len ≤ 5 ∧ bs.length = len.toNat := ⟨hmin, hmax, hcount⟩
    rw [← encode_setTxAddr, ← encode_setRxAddr]
    exact ⟨assembleLine_addr replyLen htx (asmCommands_setTxAddr replyLen) hlen ht hbytes,
      assembleLine_addr replyLen hrx (asmCommands_setRxAddr replyLen) hlen ht hbytes,
      assembleLine_addr replyLen (isWord_of_all (by decide) (by decide)) (asmCommands_setAddr replyLen) hlen ht hbytes⟩
  case addrCount =>
    intro n hn ht
    exact ⟨assembleLine_addr_refused replyLen htx (asmCommands_setTxAddr replyLen) hn ht hbytes,
      assembleLine_addr_refused replyLen hrx (asmCommands_setRxAddr replyLen) hn ht hbytes⟩
  case hopGet =>
    intro k ht
    have hrow : asmCommands replyLen "HOP_GET".toList [.num k.toNat] = some [.hopGet k []] := by
      rw [asmCommands_hopGet, if_pos k.isLt, BitVec.ofNat_toNat, BitVec.setWidth_eq]
    rw [← encode_hopGet]
    exact assembleLine_of_row hrow (.cons (reads_number ht) .nil) (isWord_of_all (by decide) (by decide))
  case chWrite =>
    rintro c v (ht | rfl) hu
    · exact assembleLine_chWrite replyLen (reads_number ht) (asmChannel_number c) hu
    · exact assembleLine_chWrite replyLen (reads_channelName c) (asmChannel_name c) hu
  case packData =>
    rintro (ht | rfl)
    · exact assembleLine_pack replyLen (ty := .data) (reads_number ht) rfl
    · exact assembleLine_pack replyLen (ty := .data) ⟨isWord_of_all (by decide) (by decide), rfl⟩ rfl
  case packBind =>
    rintro (ht | rfl)
    · exact assembleLine_pack replyLen (ty := .bind) (reads_number ht) rfl
    · exact assembleLine_pack replyLen (ty := .bind) ⟨isWord_of_all (by decide) (by decide), rfl⟩ rfl
  all_goals exact isWord_of_all (by decide) (by decide)

end Sys2Proof
end
